-- ==== Sys2Proof/Word.lean ====
section
/-! DEFINITION. The words of the block: 32-bit words and addresses (00_scope.md R5 `W`, `AW`; R7, R8), bytes. -/

namespace Sys2Proof

/-- A LUT word, a bus data word, a byte address, an internal value: all 32-bit unsigned
(00_scope.md R5, R8; `AW = 32` is decision D1, log entry 19). -/
abbrev Word := BitVec 32

/-- A byte of the register space, for the byte-level store of 20_memory.md R36. -/
abbrev Byte := BitVec 8

/-- The all-ones pattern of the full-word fast path (43_lut_programmer.md R81). -/
abbrev allOnes : Word := 0xFFFFFFFF#32

end Sys2Proof
end

