-- ==== Sys2Proof/Syntax.lean ====
section
/-! DEFINITION. The operations of the block: one constructor of `Instr` per row of spec/opcode_table.json
(30_encoding.md R50, R58), the memory types, the Region record and the stored form of a descriptor. -/

namespace Sys2Proof

/-- MemoryType, "enumerated variant {ITCM, DTCM}" (30_encoding.md R51). -/
inductive MemType where
  | itcm
  | dtcm
deriving DecidableEq, Repr

/-- A Region, "{start: byte address, end: byte address (inclusive), type: MemoryType}" (30_encoding.md R50).
`stop` is the source's `end`. -/
structure Region where
  start : Word
  stop  : Word
  type  : MemType
deriving DecidableEq, Repr

/-- The stored form of a descriptor: three 32-bit words in the order W0, W1, W2 (30_encoding.md R50).
Any bits may stand in it; `decodeRegion` says which spell a Region. -/
structure Descriptor where
  w0 : Word
  w1 : Word
  w2 : Word
deriving DecidableEq, Repr

/-- The instructions and internal operations that have a row in the operation table (30_encoding.md R58). -/
inductive Instr where
  /-- `NSR.ITCM start, end` (44_orchestrator.md R93). -/
  | nsrItcm (start stop : Word)
  /-- `NSR.DTCM start, end` (44_orchestrator.md R94). -/
  | nsrDtcm (start stop : Word)
  /-- `RUN`, the start trigger (44_orchestrator.md R96). `fromDone` is bit 3 of the phase code in which
  it is accepted: IDLE 0000 or DONE 1000. -/
  | run (fromDone : Bool)
  /-- `RESOLVE` (40_blocksize_resolver.md R63). -/
  | resolve
  /-- `TRANSLATE` (41_region_translator.md R67). -/
  | translate
  /-- `SPLIT` (43_lut_programmer.md R79). -/
  | split
  /-- `SINGLE` (43_lut_programmer.md R83). -/
  | single
  /-- `FIRST` (43_lut_programmer.md R85). -/
  | first
  /-- `MID` (43_lut_programmer.md R86). -/
  | mid
  /-- `LAST` (43_lut_programmer.md R87). -/
  | last
deriving DecidableEq, Repr

/-- The instruction a Region is (30_encoding.md R50: `type = 0` NSR.ITCM, `type = 1` NSR.DTCM). -/
def Region.toInstr (r : Region) : Instr :=
  match r.type with
  | .itcm => .nsrItcm r.start r.stop
  | .dtcm => .nsrDtcm r.start r.stop

end Sys2Proof
end

