-- ==== Sys2Proof/Config.lean ====
section
/-! DEFINITION. The parameters the source leaves to the platform (00_scope.md R5), as plain data. They are fixed
for one machine. `State` carries them in a field no step changes, so that a statement about every state is a
statement about every value of every OPEN parameter (log entry 1). -/

namespace Sys2Proof

/-- `MERGE_POLICY` (00_scope.md R5): the required `uniform_or`, or the documented variant `legacy_assign`
(43_lut_programmer.md R92). -/
inductive MergePolicy where
  | uniformOr
  | legacyAssign
deriving DecidableEq, Repr

/-- The parameters of one memory type (00_scope.md R5). -/
structure TypeParams where
  /-- `BASE[t]`. -/
  base       : Word
  /-- `SIZE[t]`, in bytes; up to 2^32. -/
  size       : Nat
  /-- `CFG_ADDR[t]`. -/
  cfgAddr    : Word
  /-- `BLKSZ_LSB[t]`. -/
  blkszLsb   : Nat
  /-- `BLKSZ_WIDTH[t]`. -/
  blkszWidth : Nat
  /-- `CFG_VALUE[t]`, what every read of `CFG[t]` returns (10_state.md R18). -/
  cfgValue   : Word
  /-- `LUT_BASE[t]`. -/
  lutBase    : Word
  /-- `N_LUT_WORDS[t]`. -/
  nLutWords  : Nat
deriving DecidableEq, Repr

/-- The parameters of the block (00_scope.md R5), less `REGIONS`, which is the program. -/
structure Config where
  itcm : TypeParams
  dtcm : TypeParams
  /-- `LUT_RESET`: the LUT contents when reset is released, as cells of the register space
  (10_state.md R27); an address it does not list holds `Machine.unlistedByte`. -/
  lutReset : List Host.Cell
  mergePolicy : MergePolicy
  /-- `CHECK_PRECONDITIONS` (60_exceptions.md R108). -/
  checkPreconditions : Bool
deriving DecidableEq, Repr

/-- The parameters `t` selects: "MemoryType ... Selects base address, block-size source register, and LUT base
register group" (20_memory.md R33, 30_encoding.md R51). -/
def Config.of (c : Config) : MemType → TypeParams
  | .itcm => c.itcm
  | .dtcm => c.dtcm

/-- The parameter values of `Machine.State.reset`. DESIGN CHOICE, unsafe (log entries 1, 2): the spec leaves most of
them OPEN. They are the defaults of 00_scope.md R5 where it gives one (`BASE[DTCM]`, `BLKSZ_LSB`, `BLKSZ_WIDTH`,
`MERGE_POLICY`, `CHECK_PRECONDITIONS`) and the test parameter set T0 of 95_test_vectors.md for the others. -/
def Config.default : Config where
  itcm :=
    { base := 0x00000000#32, size := 0x00040000, cfgAddr := 0x40000004#32, blkszLsb := 0, blkszWidth := 3
      cfgValue := 0x00000005#32, lutBase := 0x40000010#32, nLutWords := 16 }
  dtcm :=
    { base := 0x20000000#32, size := 0x00100000, cfgAddr := 0x40000104#32, blkszLsb := 0, blkszWidth := 3
      cfgValue := 0x00000007#32, lutBase := 0x40000110#32, nLutWords := 16 }
  lutReset := []
  mergePolicy := .uniformOr
  checkPreconditions := false

end Sys2Proof
end

