-- ==== Sys2Proof/Machine/Operands.lean ====
section
/-! DEFINITION. Operand assembly: the block-size field, the block index of an address, the LUT word and bit of a
block, the LUT address, the bit-range mask (30_encoding.md section 4; 40, 41, 42). Pure functions. -/

namespace Sys2Proof.Machine

/-- The block-size field of a value read from `CFG[t]`, an unsigned integer
(10_state.md R17, 40_blocksize_resolver.md R63). -/
def blkszField (p : TypeParams) (c : Word) : Nat :=
  (c >>> p.blkszLsb).toNat % 2 ^ p.blkszWidth

/-- `field + 5`, the log2 of the block size (40_blocksize_resolver.md R63). -/
def shiftOfField (field : Nat) : BitVec 5 :=
  BitVec.ofNat 5 (field + 5)

/-- `2^(field + 5)` bytes (40_blocksize_resolver.md R63). -/
def blocksizeOfField (field : Nat) : Word :=
  BitVec.ofNat 32 (2 ^ (field + 5))

/-- The shift RESOLVE gives for a type: `CFG[t]` always reads as `CFG_VALUE[t]` (10_state.md R18). -/
def shiftOf (p : TypeParams) : BitVec 5 :=
  shiftOfField (blkszField p p.cfgValue)

/-- The block size RESOLVE gives for a type. -/
def blocksizeOf (p : TypeParams) : Word :=
  blocksizeOfField (blkszField p p.cfgValue)

/-- The block that holds byte address `a`: `(a - base) >> shift` (41_region_translator.md R67, its second form; R68,
40_blocksize_resolver.md R66). The subtraction is modulo 2^32 (00_scope.md R8). DEDUCED, log entry 20. -/
def blockOf (p : TypeParams) (shift : BitVec 5) (a : Word) : Word :=
  (a - p.base) >>> shift.toNat

/-- The LUT word of block `k`: `k / 32` (30_encoding.md R55). -/
def lutIndex (k : Word) : Word :=
  k >>> 5

/-- The bit position of block `k` in its word: `k % 32 = k[4:0]` (30_encoding.md R55). -/
def lutOffset (k : Word) : BitVec 5 :=
  k.setWidth 5

/-- `LUT_ADDR(t, w) = LUT_BASE[t] + 4*w`, modulo 2^32 (20_memory.md R32). -/
def lutAddr (p : TypeParams) (w : Word) : Word :=
  p.lutBase + 4#32 * w

/-- `SET_BIT_RANGE(lo, hi)` by the 32-bit formula of 42_bit_range_mask.md R77, right for every `lo <= hi`.
A caller that could have `lo > hi` refuses instead of calling it (R76). -/
def setBitRange (lo hi : BitVec 5) : Word :=
  (allOnes >>> (31 - hi.toNat)) &&& (allOnes <<< lo.toNat)

/-- Does `[start, stop]` lie in the window of the type, in order: `BASE <= start <= end <= BASE + SIZE - 1`
(41_region_translator.md R70)? -/
def inWindow (p : TypeParams) (start stop : Word) : Bool :=
  decide (p.base.toNat ≤ start.toNat ∧ start.toNat ≤ stop.toNat ∧ stop.toNat + 1 ≤ p.base.toNat + p.size)

end Sys2Proof.Machine
end

