-- ==== Sys2Proof/WellFormed.lean ====
section
/-! DEFINITION. Well-formedness: the parameter constraints (00_scope.md R6) and the Region invariant with "fits the
LUT" (41_region_translator.md R70). Every bit pattern an `Instr` can hold has an encoding; what a descriptor must
meet beyond that depends on the parameters. -/

namespace Sys2Proof

/-- The address one past the LUT array of a type, not reduced modulo 2^32. -/
def TypeParams.lutEnd (p : TypeParams) : Nat :=
  p.lutBase.toNat + 4 * p.nLutWords

/-- Is the register-space address `a` a byte of the LUT array of the type? -/
abbrev TypeParams.inLut (p : TypeParams) (a : Nat) : Prop :=
  p.lutBase.toNat ≤ a ∧ a < p.lutEnd

/-- The constraints of 00_scope.md R6 that concern one memory type. -/
abbrev TypeParams.wf (p : TypeParams) : Prop :=
  1 ≤ p.blkszWidth ∧ p.blkszWidth ≤ 4 ∧ p.blkszLsb + p.blkszWidth ≤ 32 ∧
  p.cfgAddr.toNat % 4 = 0 ∧ p.lutBase.toNat % 4 = 0 ∧ p.lutEnd ≤ 2 ^ 32 ∧
  p.base.toNat + p.size ≤ 2 ^ 32 ∧ 1 ≤ p.size ∧ 1 ≤ p.nLutWords

/-- The four address ranges of 00_scope.md R6 are pairwise disjoint. -/
abbrev Config.disjoint (c : Config) : Prop :=
  c.itcm.cfgAddr ≠ c.dtcm.cfgAddr ∧
  ¬ c.itcm.inLut c.itcm.cfgAddr.toNat ∧ ¬ c.itcm.inLut c.dtcm.cfgAddr.toNat ∧
  ¬ c.dtcm.inLut c.itcm.cfgAddr.toNat ∧ ¬ c.dtcm.inLut c.dtcm.cfgAddr.toNat ∧
  (c.itcm.lutEnd ≤ c.dtcm.lutBase.toNat ∨ c.dtcm.lutEnd ≤ c.itcm.lutBase.toNat)

/-- `ParamsOk` (70_reset_and_hazards.md R133): every constraint of 00_scope.md R6. -/
def Config.wf (c : Config) : Bool :=
  decide (c.itcm.wf ∧ c.dtcm.wf ∧ c.disjoint)

/-- "fits the LUT": `((end - BASE[t]) >> shift_t) / 32 < N_LUT_WORDS[t]` (41_region_translator.md R70). -/
abbrev Region.fits (c : Config) (r : Region) : Prop :=
  (Machine.lutIndex (Machine.blockOf (c.of r.type) (Machine.shiftOf (c.of r.type)) r.stop)).toNat < (c.of r.type).nLutWords

/-- A well-formed region that fits the LUT (41_region_translator.md R70). Block alignment is not part of it. -/
abbrev Region.wf (c : Config) (r : Region) : Prop :=
  Machine.inWindow (c.of r.type) r.start r.stop ∧ r.fits c

/-- Do the block bounds pass the ALIGN check of 60_exceptions.md R109, with the block size RESOLVE finds? -/
abbrev Region.aligned (c : Config) (r : Region) : Prop :=
  (r.start - (c.of r.type).base) % Machine.blocksizeOf (c.of r.type) = 0#32 ∧
  (r.stop + 1#32 - (c.of r.type).base) % Machine.blocksizeOf (c.of r.type) = 0#32

/-- A region the block programs: well-formed, fits the LUT (41_region_translator.md R70), and, where the optional check
exists, passes it (60_exceptions.md R109). -/
abbrev Region.accepted (c : Config) (r : Region) : Prop :=
  r.wf c ∧ (c.checkPreconditions = true → r.aligned c)

/-- Well-formedness of an instruction: a descriptor's Region is well-formed; the trigger and the internal operations
carry no value that could be ill-formed. -/
abbrev Instr.wf (c : Config) : Instr → Prop
  | .nsrItcm start stop => Region.wf c ⟨start, stop, .itcm⟩
  | .nsrDtcm start stop => Region.wf c ⟨start, stop, .dtcm⟩
  | .run _ => True
  | .resolve => True
  | .translate => True
  | .split => True
  | .single => True
  | .first => True
  | .mid => True
  | .last => True

end Sys2Proof
end

