-- ==== Sys2Proof/Decode.lean ====
section
/-! DEFINITION. Decoding, total on any bytes and rejecting by name, and the encoder (30_encoding.md R50 to R52,
R58 to R61). Two fixed lengths: a region descriptor is 12 bytes (words W0, W1, W2, each little-endian, log entry 5),
a sequencer position is one byte that holds the 4-bit phase code. -/

namespace Sys2Proof

/-- Why bytes spell no instruction (30_encoding.md R60). -/
inductive DecodeError where
  /-- `W2[31:1]` is not zero (30_encoding.md R52). -/
  | reservedBits
  /-- A value that is no phase code: 1010 to 1111, or wider than four bits (30_encoding.md R59). -/
  | undefinedPhase
  /-- The code 1001 of ABORT, a phase that performs no operation (30_encoding.md R59, 60_exceptions.md R111). -/
  | noOperation
  /-- Neither 12 bytes nor one byte (30_encoding.md R49, R61: there is one descriptor length). -/
  | badLength
deriving DecidableEq, Repr

/-- MemoryType code: ITCM 0, DTCM 1 (30_encoding.md R51). -/
def memTypeOfCode (b : Bool) : MemType :=
  if b then .dtcm else .itcm

/-- The code of a MemoryType (30_encoding.md R51). -/
def codeOfMemType : MemType → Word
  | .itcm => 0#32
  | .dtcm => 1#32

/-- The Region a descriptor spells (30_encoding.md R50, R52). -/
def decodeRegion (d : Descriptor) : Except DecodeError Region :=
  if d.w2 >>> 1 = 0#32 then
    .ok { start := d.w0, stop := d.w1, type := memTypeOfCode (d.w2.getLsbD 0) }
  else .error .reservedBits

/-- The operation of a phase code (30_encoding.md R58, R59); 0000 and 1000 are the codes in which RUN is accepted. -/
def decodePhaseCode (code : Byte) : Except DecodeError Instr :=
  match code.toNat with
  | 0 => .ok (.run false)
  | 1 => .ok .resolve
  | 2 => .ok .translate
  | 3 => .ok .split
  | 4 => .ok .single
  | 5 => .ok .first
  | 6 => .ok .mid
  | 7 => .ok .last
  | 8 => .ok (.run true)
  | 9 => .error .noOperation
  | _ => .error .undefinedPhase

/-- A word from its bytes, the least significant first (20_memory.md R36). -/
def wordOfBytes (b0 b1 b2 b3 : Byte) : Word :=
  b3 ++ b2 ++ b1 ++ b0

/-- Byte `i` of a word, byte 0 the least significant (20_memory.md R36). -/
def byteOfWord (i : Nat) (w : Word) : Byte :=
  w.extractLsb' (8 * i) 8

/-- The four bytes of a word, the least significant first. -/
def bytesOfWord (w : Word) : List Byte :=
  [byteOfWord 0 w, byteOfWord 1 w, byteOfWord 2 w, byteOfWord 3 w]

/-- A descriptor as stored: W0, W1, W2 in that order (30_encoding.md R50). -/
def Descriptor.toBytes (d : Descriptor) : List Byte :=
  bytesOfWord d.w0 ++ bytesOfWord d.w1 ++ bytesOfWord d.w2

/-- The decoder: 12 bytes are a descriptor, one byte is a phase code, anything else is rejected. -/
def decode : List Byte → Except DecodeError Instr
  | [code] => decodePhaseCode code
  | [a0, a1, a2, a3, b0, b1, b2, b3, c0, c1, c2, c3] =>
    (decodeRegion { w0 := wordOfBytes a0 a1 a2 a3, w1 := wordOfBytes b0 b1 b2 b3, w2 := wordOfBytes c0 c1 c2 c3 }).map
      Region.toInstr
  | _ => .error .badLength

/-- The descriptor of a Region: `W0 = start`, `W1 = end`, `W2` the type code (30_encoding.md R50). -/
def encodeRegion (r : Region) : Descriptor :=
  { w0 := r.start, w1 := r.stop, w2 := codeOfMemType r.type }

/-- The encoder: the bytes of an instruction (30_encoding.md R50, R59). -/
def encode : Instr → List Byte
  | .nsrItcm start stop => (encodeRegion ⟨start, stop, .itcm⟩).toBytes
  | .nsrDtcm start stop => (encodeRegion ⟨start, stop, .dtcm⟩).toBytes
  | .run fromDone => [if fromDone then 0b1000#8 else 0b0000#8]
  | .resolve => [0b0001#8]
  | .translate => [0b0010#8]
  | .split => [0b0011#8]
  | .single => [0b0100#8]
  | .first => [0b0101#8]
  | .mid => [0b0110#8]
  | .last => [0b0111#8]

/-- The descriptor whose bits, numbered as 30_encoding.md R50 numbers `D[95:0]`, are `w`. -/
def descriptorOfNat (w : Nat) : Descriptor :=
  { w0 := BitVec.ofNat 32 w, w1 := BitVec.ofNat 32 (w / 2 ^ 32), w2 := BitVec.ofNat 32 (w / 2 ^ 64) }

/-- The bytes of a table word of `nbits` bits: a phase code has at most 8, a descriptor 96. -/
def tableWordBytes (nbits w : Nat) : List Byte :=
  if nbits ≤ 8 then [BitVec.ofNat 8 w] else (descriptorOfNat w).toBytes

/-- What the decoder reads from a word of spec/opcode_table.json, bit 0 the least significant bit of the first word.
A `w` that has bits beyond the row's length is no word of the row. -/
def decodeTableWord (nbits w : Nat) : Option Instr :=
  if w < 2 ^ (if nbits ≤ 8 then 8 else 96) then (decode (tableWordBytes nbits w)).toOption else none

end Sys2Proof
end

