-- ==== Sys2Proof/Machine/Memory.lean ====
section
/-! DEFINITION. The register space as bytes (20_memory.md R28, R36): a list of (address, byte) cells in one canonical
form, and the 32-bit word accesses built from it, in which the byte order is decided once. -/

namespace Sys2Proof.Machine

/-- The stored bytes of the register space. -/
abbrev Memory := List Host.Cell

/-- What an unlisted address reads as. DESIGN CHOICE, unsafe (log entry 2): the spec gives no reset contents of the
LUT (10_state.md R27, 91_not_in_source.md N7); other contents are listed in `Config.lutReset`. -/
def unlistedByte : Byte := 0x00#8

/-- The canonical form: addresses strictly rising, no cell equal to what an unlisted address reads as. -/
abbrev Memory.wf (m : Memory) : Prop :=
  m.Pairwise (fun x y => x.1 < y.1) ∧ ∀ c ∈ m, c.2 ≠ unlistedByte

/-- The byte at `a`. -/
def Memory.readByte : Memory → Nat → Byte
  | [], _ => unlistedByte
  | (k, v) :: rest, a => if k = a then v else Memory.readByte rest a

/-- Store `v` at `a`, keeping the canonical form. -/
def Memory.writeByte : Memory → Nat → Byte → Memory
  | [], a, v => if v = unlistedByte then [] else [(a, v)]
  | (k, u) :: rest, a, v =>
    if a < k then
      (if v = unlistedByte then (k, u) :: rest else (a, v) :: (k, u) :: rest)
    else if a = k then
      (if v = unlistedByte then rest else (a, v) :: rest)
    else (k, u) :: Memory.writeByte rest a v

/-- The 32-bit word at `a`, least significant byte at the lowest address (20_memory.md R35, R36). -/
def Memory.readWord (m : Memory) (a : Nat) : Word :=
  wordOfBytes (m.readByte a) (m.readByte (a + 1)) (m.readByte (a + 2)) (m.readByte (a + 3))

/-- Store a 32-bit word at `a`, all 32 bits (10_state.md R14, 20_memory.md R36). -/
def Memory.writeWord (m : Memory) (a : Nat) (v : Word) : Memory :=
  (((m.writeByte a (byteOfWord 0 v)).writeByte (a + 1) (byteOfWord 1 v)).writeByte (a + 2) (byteOfWord 2 v)).writeByte
    (a + 3) (byteOfWord 3 v)

end Sys2Proof.Machine
end

