-- ==== Sys2Proof/Machine/State.lean ====
section
/-! DEFINITION. The state of the block (10_state.md R11 to R27), the reasons a step can stop, and the state after
reset. Plain data. -/

namespace Sys2Proof.Machine

/-- The kind of a bus transaction (20_memory.md R30, 30_encoding.md R57). -/
inductive BusKind where
  | rd
  | wr
deriving DecidableEq, Repr

/-- A bus transaction record `(kind, addr, data)` (30_encoding.md R57). -/
structure BusEvent where
  kind : BusKind
  addr : Word
  data : Word
deriving DecidableEq, Repr

/-- The phases of the sequencer (10_state.md R22, 30_encoding.md R59). -/
inductive Phase where
  | idle
  | resolve
  | translate
  | split
  | single
  | first
  | mid
  | last
  | done
  | abort
deriving DecidableEq, Repr

/-- The model's own field: how much one step does when the sequencer stands at the start of a region. Step granularity
is unobservable (92_eei_decisions.md D16; log entry 6). -/
inductive Grain where
  /-- One phase operation per step, the transition table of 10_state.md R23. -/
  | phase
  /-- One whole descriptor per step, the sequence of 44_orchestrator.md R95. -/
  | region
deriving DecidableEq, Repr

/-- What the block's input ports do at one step (44_orchestrator.md R96, 70_reset_and_hazards.md R118; log entry 7). -/
inductive Input where
  /-- Neither trigger nor reset. -/
  | quiet
  /-- The start trigger. -/
  | start
  /-- Reset. -/
  | reset
deriving DecidableEq, Repr

/-- The working registers of 10_state.md R20, all but `wi`, which belongs to the position. -/
structure Work where
  curStart    : Word
  curEnd      : Word
  curType     : MemType
  shift       : BitVec 5
  blocksize   : Word
  startBlock  : Word
  endBlock    : Word
  startLut    : Word
  endLut      : Word
  startOffset : BitVec 5
  endOffset   : BitVec 5
  mask        : Word
  rdata       : Word
deriving DecidableEq, Repr

/-- The working registers after reset. DESIGN CHOICE, unsafe (log entry 3): the spec gives them no value at reset and
no run reads one before it is written (10_state.md R21, R27). -/
def Work.reset : Work where
  curStart := 0
  curEnd := 0
  curType := .itcm
  shift := 0
  blocksize := 0
  startBlock := 0
  endBlock := 0
  startLut := 0
  endLut := 0
  startOffset := 0
  endOffset := 0
  mask := 0
  rdata := 0

/-- The state of the machine (10_state.md R11; INVENTORY.md, State). -/
structure State where
  /-- The parameters of 00_scope.md R5; no step changes them. -/
  cfg       : Config
  /-- `REGIONS`, the region table (10_state.md R25, 20_memory.md R31); no step changes it. -/
  regions   : List Descriptor
  /-- The bytes of the register space: the LUT words (10_state.md R12). -/
  mem       : Memory
  /-- The sequencer position (10_state.md R22). -/
  phase     : Phase
  /-- The index in `regions` of the descriptor being processed (10_state.md R22). -/
  ri        : Nat
  /-- The LUT word the MID phase writes next (10_state.md R22). -/
  wi        : Word
  /-- The working registers (10_state.md R20). -/
  work      : Work
  /-- The code of the last abort (60_exceptions.md R110). -/
  abortCode : BitVec 2
  /-- The index of the offending region (60_exceptions.md R110). -/
  abortRi   : Nat
  /-- Every bus transaction so far, in issue order (20_memory.md R44). -/
  trace     : List BusEvent
  /-- What the input ports do at the coming steps, the next step first; past its end they are quiet. -/
  inputs    : List Input
  /-- The model's own step size. -/
  grain     : Grain
deriving DecidableEq, Repr

/-- The reasons the machine stops with a fault: none. "There is no runtime error-reporting path"; the set of
synchronous exception causes is empty (60_exceptions.md R102). The optional abort is a next state (R110). -/
inductive Fault where
deriving DecidableEq, Repr

/-- The reasons the spec gives an input no meaning (60_exceptions.md R103). Each is safe: the model stops where the
hardware does something the spec does not define, so a claim becomes unprovable and none becomes falsely provable. -/
inductive Refusal where
  /-- Raised by `exec` for an instruction that has no meaning yet. Safe. No arm answers it. -/
  | notModelled (mnemonic : String)
  /-- `ReservedBits`: a descriptor with `W2[31:1] != 0` in the region list. Raised by RUN for the whole list, and by
  every step that fetches a descriptor (30_encoding.md R52). Safe. -/
  | reservedBits
  /-- `IllFormedRegion`: raised by TRANSLATE without the optional check (41_region_translator.md R72). Safe. -/
  | illFormedRegion
  /-- `EmptyCase`: `start_lut > end_lut`, or equal with `start_offset > end_offset`. Raised by SPLIT, and by SINGLE
  on the second condition (43_lut_programmer.md R91, 42_bit_range_mask.md R76). Safe. -/
  | emptyCase
  /-- `LutIndexOutOfRange`: a LUT word index that names no register. Raised by SPLIT for the whole range, and by
  SINGLE, FIRST, MID, LAST for their own word (20_memory.md R47, 43_lut_programmer.md R91). Safe. -/
  | lutIndexOutOfRange
  /-- `BadParameters`: a constraint of 00_scope.md R6 fails. Raised by `step`, before anything else. Safe. -/
  | badParameters
  /-- `Reentry`: a start trigger while busy (44_orchestrator.md R101). Raised by RUN. Safe (log entry 8). -/
  | reentry
  /-- A position whose code names no operation (93_implementation_defined.md U13). Raised by `step`; the closed type
  `Phase` leaves no state in which it is raised. Safe. -/
  | undefinedPhase
deriving DecidableEq, Repr

/-- The machine when reset is released, for any parameters and any region list (10_state.md R27,
70_reset_and_hazards.md R118 to R120): IDLE, `ri = 0`, the LUT as `LUT_RESET` says. The working registers, `wi`,
`abort_code` and `abort_ri`, to which the spec gives no value, are zero (log entries 3, 4). -/
def State.powerOn (c : Config) (regions : List Descriptor) : State where
  cfg := c
  regions := regions
  mem := c.lutReset
  phase := .idle
  ri := 0
  wi := 0
  work := Work.reset
  abortCode := 0
  abortRi := 0
  trace := []
  inputs := []
  grain := .phase

/-- The machine right after reset, with the parameters of `Config.default` and no program (log entries 1, 7). -/
def State.reset : State :=
  State.powerOn Config.default []

end Sys2Proof.Machine
end

