-- ==== Sys2Proof/Machine/Flags.lean ====
section
/-! DEFINITION. The block has no flags or condition codes (10_state.md R24); what it shows of its position are the
status outputs `busy`, `done` and `abort`, and the 4-bit phase codes. -/

namespace Sys2Proof.Machine

/-- `busy = (phase is not IDLE, DONE or ABORT)` (10_state.md R24). -/
def Phase.isBusy : Phase → Bool
  | .idle => false
  | .resolve => true
  | .translate => true
  | .split => true
  | .single => true
  | .first => true
  | .mid => true
  | .last => true
  | .done => false
  | .abort => false

/-- The status output `busy` (10_state.md R24). -/
def State.busy (s : State) : Bool := s.phase.isBusy

/-- The status output `done = (phase = DONE)` (10_state.md R24). -/
def State.done (s : State) : Bool := s.phase == .done

/-- The third status output, `abort = (phase = ABORT)` (60_exceptions.md R110). -/
def State.abort (s : State) : Bool := s.phase == .abort

/-- The phase codes (30_encoding.md R59). -/
def Phase.code : Phase → BitVec 4
  | .idle => 0b0000#4
  | .resolve => 0b0001#4
  | .translate => 0b0010#4
  | .split => 0b0011#4
  | .single => 0b0100#4
  | .first => 0b0101#4
  | .mid => 0b0110#4
  | .last => 0b0111#4
  | .done => 0b1000#4
  | .abort => 0b1001#4

/-- The phase of a code; 1010 to 1111 have no meaning (30_encoding.md R59). -/
def phaseOfCode (c : BitVec 4) : Option Phase :=
  match c.toNat with
  | 0 => some .idle
  | 1 => some .resolve
  | 2 => some .translate
  | 3 => some .split
  | 4 => some .single
  | 5 => some .first
  | 6 => some .mid
  | 7 => some .last
  | 8 => some .done
  | 9 => some .abort
  | _ => none

end Sys2Proof.Machine
end

