-- ==== Sys2Proof/Machine/Ops.lean ====
section
/-! DEFINITION. The shared operations: named updates of the state, the bus port, ORMERGE and FILL, the region fetch
and the advance to the next region, the abort entry, reset, and what the next step performs. -/

namespace Sys2Proof.Machine

/-- The outcome of an operation (00_scope.md R10). -/
abbrev Result := Host.Outcome State Fault Refusal

/-- Run `f` on the next state; a stop stays a stop. -/
def andThen (o : Result) (f : State → Result) : Result :=
  match o with
  | .next s => f s
  | .fault r => .fault r
  | .refused r => .refused r

/-! ### Named updates -/

/-- The parameters of the type of the current region. -/
def State.params (s : State) : TypeParams := s.cfg.of s.work.curType

/-- `phase <- p` (00_scope.md R9). -/
def State.toPhase (s : State) (p : Phase) : State := { s with phase := p }

/-- `wi <- w` (00_scope.md R9). -/
def State.setWi (s : State) (w : Word) : State := { s with wi := w }

/-- `ri <- n` (00_scope.md R9). -/
def State.setRi (s : State) (n : Nat) : State := { s with ri := n }

/-- Write working registers. -/
def State.setWork (s : State) (w : Work) : State := { s with work := w }

/-- `mask <- m` (00_scope.md R9). -/
def State.setMask (s : State) (m : Word) : State := s.setWork { s.work with mask := m }

/-- Append one event to the transaction trace (20_memory.md R44). -/
def State.log (s : State) (e : BusEvent) : State := { s with trace := s.trace ++ [e] }

/-- Replace the register-space bytes. -/
def State.setMem (s : State) (m : Memory) : State := { s with mem := m }

/-- What the input ports do at this step; past the end of the list they are quiet (log entry 7). -/
def State.input (s : State) : Input :=
  match s.inputs with
  | [] => .quiet
  | x :: _ => x

/-- Take the inputs of this step off the list. -/
def State.tick (s : State) : State := { s with inputs := s.inputs.tail }

/-! ### The bus port -/

/-- The register at bus address `a`: `CFG[t]` reads as `CFG_VALUE[t]` (10_state.md R18), every other register as the
word stored there. -/
def State.regAt (s : State) (a : Word) : Word :=
  if a = s.cfg.itcm.cfgAddr then s.cfg.itcm.cfgValue
  else if a = s.cfg.dtcm.cfgAddr then s.cfg.dtcm.cfgValue
  else s.mem.readWord a.toNat

/-- `MemRead(addr, 4)`: returns the register's value and appends `Rd(addr, v)`; no other effect
(20_memory.md R39, R44). -/
def busRead (a : Word) (s : State) : Word × State :=
  (s.regAt a, s.log { kind := .rd, addr := a, data := s.regAt a })

/-- `MemWrite(addr, 4, v)`: sets the register and appends `Wr(addr, v)` (20_memory.md R44). -/
def busWrite (a v : Word) (s : State) : State :=
  (s.setMem (s.mem.writeWord a.toNat v)).log { kind := .wr, addr := a, data := v }

/-- `LUT[t][w]`, the architectural register itself, without a transaction (00_scope.md R9, 10_state.md R12). -/
def State.lutWord (s : State) (t : MemType) (w : Word) : Word :=
  s.mem.readWord (lutAddr (s.cfg.of t) w).toNat

/-! ### The two write primitives -/

/-- `ORMERGE(t, w, m)`: one read, then one write of `old | m` to the same address, always issued
(43_lut_programmer.md R80); refused for an index that names no register (20_memory.md R47). -/
def orMerge (t : MemType) (w m : Word) (s : State) : Result :=
  if w.toNat < (s.cfg.of t).nLutWords then
    let a := lutAddr (s.cfg.of t) w
    let (old, s1) := busRead a s
    .next (busWrite a (old ||| m) (s1.setWork { s1.work with rdata := old }))
  else .refused .lutIndexOutOfRange

/-- One write of a whole word without a read: `FILL` (43_lut_programmer.md R81) for all ones, and the plain assignment
of the `legacy_assign` variant (R92); refused for an index that names no register (20_memory.md R47). -/
def assign (t : MemType) (w v : Word) (s : State) : Result :=
  if w.toNat < (s.cfg.of t).nLutWords then .next (busWrite (lutAddr (s.cfg.of t) w) v s)
  else .refused .lutIndexOutOfRange

/-- `FILL(t, w)`: the all-ones pattern, one write, no read (43_lut_programmer.md R81). -/
def fill (t : MemType) (w : Word) (s : State) : Result :=
  assign t w allOnes s

/-! ### The walk over the region list -/

/-- The fetch of 44_orchestrator.md R95: `cur_start`, `cur_end`, `cur_type`, with the move to RESOLVE it is part of.
No bus transaction (20_memory.md R31). The other working registers, which R21 of 10_state.md gives no value here, keep
those of the previous region: DESIGN CHOICE, log entry 28. -/
def State.loadRegion (s : State) (r : Region) : State :=
  (s.setWork { s.work with curStart := r.start, curEnd := r.stop, curType := r.type }).toPhase .resolve

/-- Take up region `n`: fetch it and go to RESOLVE, or go to DONE when the list has no such region
(44_orchestrator.md R96 to R98). A descriptor with reserved bits set is refused (30_encoding.md R52). In DONE the working
registers keep their values (DESIGN CHOICE, log entry 28). -/
def enterRegion (n : Nat) (s : State) : Result :=
  match s.regions[n]? with
  | none => .next ((s.setRi n).toPhase .done)
  | some d =>
    match decodeRegion d with
    | .ok r => .next ((s.setRi n).loadRegion r)
    | .error _ => .refused .reservedBits

/-- `next region`: `ri <- ri + 1`, then the next descriptor or DONE (10_state.md R23, 44_orchestrator.md R97). -/
def nextRegion (s : State) : Result :=
  enterRegion (s.ri + 1) s

/-- Does every descriptor of the list spell a Region (30_encoding.md R52)? -/
def regionsDecode (ds : List Descriptor) : Bool :=
  ds.all fun d => (decodeRegion d).toBool

/-! ### The optional abort, and reset -/

/-- `raise Abort(code)`: the one exception entry of the block (60_exceptions.md R110). It records the code and the
region index and moves to ABORT; there is no return from it but reset (R107, R111). -/
def State.raiseAbort (s : State) (code : BitVec 2) : State :=
  { s with abortCode := code, abortRi := s.ri, phase := .abort }

/-- Reset while the machine exists: the sequencer to IDLE, `ri` to 0, the working registers, `wi` and the abort
registers to their reset values; LUT and CFG untouched, nothing undone (70_reset_and_hazards.md R118; log entry 9). -/
def State.applyReset (s : State) : State :=
  { s with phase := .idle, ri := 0, wi := 0, work := Work.reset, abortCode := 0, abortRi := 0 }

/-! ### What the next step performs -/

/-- What a step does. -/
inductive Action where
  /-- Execute one instruction. -/
  | execute (i : Instr)
  /-- Nothing: IDLE, DONE or ABORT without an input that moves the position. -/
  | wait
  /-- Reset. -/
  | reset
  /-- Stop. -/
  | stop (r : Refusal)
deriving DecidableEq, Repr

/-- The bytes of the next instruction: at the start of a region with grain `region` the descriptor of that region
(44_orchestrator.md R95), else the phase code of the position (30_encoding.md R59). -/
def fetchBytes (s : State) : List Byte :=
  let code : List Byte := [s.phase.code.setWidth 8]
  match s.grain, s.phase with
  | .region, .resolve =>
    match s.regions[s.ri]? with
    | some d => d.toBytes
    | none => code
  | _, _ => code

/-- The refusal that answers bytes that spell no instruction. -/
def refusalOf : DecodeError → Refusal
  | .reservedBits => .reservedBits
  | .undefinedPhase => .undefinedPhase
  | .noOperation => .undefinedPhase
  | .badLength => .undefinedPhase

/-- What the next step does: bad parameters are refused first (00_scope.md R6; log entries 14, 27); reset overrides everything
(60_exceptions.md R105); a start trigger is RUN (44_orchestrator.md R96); without either, a busy block executes what
it fetches and an idle, finished or aborted one waits (70_reset_and_hazards.md R122). -/
def nextAction (s : State) : Action :=
  if s.cfg.wf then
    match s.input with
    | .reset => .reset
    | .start => .execute (.run s.done)
    | .quiet =>
      if s.busy then
        match decode (fetchBytes s) with
        | .ok i => .execute i
        | .error e => .stop (refusalOf e)
      else .wait
  else .stop .badParameters

/-! ### Placing an instruction where the next step fetches -/

/-- `s` with the table word `w` of `nbits` bits placed so that the very next step runs it (log entry 7). A descriptor
becomes the region list of one, taken up at its start, one descriptor a step; a phase code becomes the position, and
for IDLE and DONE the start trigger is given. A word that is no phase code of an operation changes nothing. -/
def placeWord (nbits w : Nat) (s : State) : State :=
  if nbits ≤ 8 then
    match decodeTableWord nbits w, phaseOfCode (BitVec.ofNat 4 w) with
    | some (.run _), some p => { s with phase := p, grain := .phase, inputs := [.start] }
    | some _, some p => { s with phase := p, grain := .phase, inputs := [] }
    | _, _ => s
  else
    { s with regions := [descriptorOfNat w], ri := 0, phase := .resolve, grain := .region, inputs := [] }

end Sys2Proof.Machine
end

