-- ==== Sys2Proof/Machine/Programmer.lean ====
section
/-! DEFINITION. The LUTProgrammer: SPLIT, SINGLE, FIRST, MID, LAST and their composite PROGRAM
(43_lut_programmer.md). -/

namespace Sys2Proof.Machine

/-- `SPLIT`: locate the boundary blocks and choose the case (43_lut_programmer.md R79, R82). The undefined inputs of
R91 are refused here, for the whole range, before the first transaction of PROGRAM. A range both out of order and beyond
the array is refused as EmptyCase: R91 and 60_exceptions.md R103 give no order. DESIGN CHOICE, log entry 27. -/
def execSplit (s : State) : Result :=
  let sl := lutIndex s.work.startBlock
  let el := lutIndex s.work.endBlock
  let so := lutOffset s.work.startBlock
  let eo := lutOffset s.work.endBlock
  if sl > el ∨ (sl = el ∧ so > eo) then .refused .emptyCase
  else if el.toNat ≥ s.params.nLutWords then .refused .lutIndexOutOfRange
  else
    .next ((s.setWork { s.work with startLut := sl, endLut := el, startOffset := so, endOffset := eo }).toPhase
      (if sl = el then .single else .first))

/-- `SINGLE`, Case A: OR-merge bits `[start_offset, end_offset]` into word `start_lut`, then the next region
(43_lut_programmer.md R83). `lo > hi` is refused (42_bit_range_mask.md R76), before the word index is
looked at (DESIGN CHOICE, log entry 27). -/
def execSingle (s : State) : Result :=
  if s.work.startOffset ≤ s.work.endOffset then
    let m := setBitRange s.work.startOffset s.work.endOffset
    andThen (orMerge s.work.curType s.work.startLut m (s.setMask m)) nextRegion
  else .refused .emptyCase

/-- The move after FIRST: to MID at `start_lut + 1` if a word lies between, else to LAST (43_lut_programmer.md R85). -/
def afterFirst (s : State) : State :=
  if s.work.startLut + 1 < s.work.endLut then (s.setWi (s.work.startLut + 1)).toPhase .mid else s.toPhase .last

/-- `FIRST`, Case B step 1: bits `[start_offset, 31]` into word `start_lut`, by OR-merge (43_lut_programmer.md R85), or
by plain assignment under `legacy_assign` (R92). -/
def execFirst (s : State) : Result :=
  let m := setBitRange s.work.startOffset 31
  let s1 := s.setMask m
  andThen
    (match s.cfg.mergePolicy with
     | .uniformOr => orMerge s.work.curType s.work.startLut m s1
     | .legacyAssign => assign s.work.curType s.work.startLut m s1)
    fun s2 => .next (afterFirst s2)

/-- The move after MID: the next word between, or LAST (43_lut_programmer.md R86). -/
def afterMid (s : State) : State :=
  if s.wi + 1 < s.work.endLut then s.setWi (s.wi + 1) else s.toPhase .last

/-- `MID`, Case B step 2: all ones into word `wi`, no read (43_lut_programmer.md R86). -/
def execMid (s : State) : Result :=
  andThen (fill s.work.curType s.wi s) fun s1 => .next (afterMid s1)

/-- `LAST`, Case B step 3: OR-merge bits `[0, end_offset]` into word `end_lut`, then the next region
(43_lut_programmer.md R87). -/
def execLast (s : State) : Result :=
  let m := setBitRange 0 s.work.endOffset
  andThen (orMerge s.work.curType s.work.endLut m (s.setMask m)) nextRegion

/-- `n` MID steps (43_lut_programmer.md R84). -/
def midSteps : Nat → State → Result
  | 0, s => .next s
  | n + 1, s => andThen (execMid s) (midSteps n)

/-- The number of words strictly between `start_lut` and `end_lut` (43_lut_programmer.md R84). -/
def State.midCount (s : State) : Nat := s.work.endLut.toNat - s.work.startLut.toNat - 1

/-- Case B: FIRST, MID for every word between, ascending, LAST (43_lut_programmer.md R84). -/
def caseB (s : State) : Result :=
  andThen (execFirst s) fun s1 => andThen (midSteps s1.midCount s1) execLast

/-- `PROGRAM`: SPLIT, then Case A or Case B (43_lut_programmer.md R78). -/
def program (s : State) : Result :=
  andThen (execSplit s) fun s1 => if s1.phase = .single then execSingle s1 else caseB s1

end Sys2Proof.Machine
end

