-- ==== Sys2Proof/Machine/Resolver.lean ====
section
/-! DEFINITION. The BlockSizeResolver: RESOLVE (40_blocksize_resolver.md). -/

namespace Sys2Proof.Machine

/-- `RESOLVE`: one read of `CFG[cur_type]`; `shift <- field + 5`, `blocksize <- 2^(field + 5)`
(40_blocksize_resolver.md R63). -/
def execResolve (s : State) : Result :=
  let p := s.params
  let (c, s1) := busRead p.cfgAddr s
  let field := blkszField p c
  .next ((s1.setWork { s1.work with shift := shiftOfField field, blocksize := blocksizeOfField field }).toPhase .translate)

end Sys2Proof.Machine
end

