-- ==== Sys2Proof/Machine/Translator.lean ====
section
/-! DEFINITION. The RegionTranslator: TRANSLATE (41_region_translator.md), with the optional precondition check of
60_exceptions.md section 2. -/

namespace Sys2Proof.Machine

/-- The first precondition that fails and its code, in the order ORDER, WINDOW, ALIGN (60_exceptions.md R109).
`cur_end > base + SIZE - 1` is compared in the integers, since `base + SIZE` can be 2^32. -/
def failedCheck (p : TypeParams) (start stop blocksize : Word) : Option (BitVec 2) :=
  if start > stop then some 1
  else if start < p.base ∨ stop.toNat + 1 > p.base.toNat + p.size then some 2
  else if (start - p.base) % blocksize ≠ 0 ∨ (stop + 1 - p.base) % blocksize ≠ 0 then some 3
  else none

/-- The block range of the current region: `start_block`, `end_block` (41_region_translator.md R67). -/
def State.setBlocks (s : State) : State :=
  (s.setWork { s.work with
      startBlock := blockOf s.params s.work.shift s.work.curStart
      endBlock := blockOf s.params s.work.shift s.work.curEnd }).toPhase .split

/-- `TRANSLATE` (41_region_translator.md R67). With `CHECK_PRECONDITIONS` a failed check aborts (60_exceptions.md R108
to R110); without it an ill-formed region is refused (R72) and a misaligned one is floored (R71). -/
def execTranslate (s : State) : Result :=
  if s.cfg.checkPreconditions then
    match failedCheck s.params s.work.curStart s.work.curEnd s.work.blocksize with
    | some code => .next (s.raiseAbort code)
    | none => .next s.setBlocks
  else if inWindow s.params s.work.curStart s.work.curEnd then .next s.setBlocks
  else .refused .illFormedRegion

end Sys2Proof.Machine
end

