-- ==== Sys2Proof/Machine/Orchestrator.lean ====
section
/-! DEFINITION. The orchestrator: RUN and the two instructions NSR.ITCM and NSR.DTCM (44_orchestrator.md). -/

namespace Sys2Proof.Machine

/-- `RUN`, the start trigger: accepted in IDLE and DONE (44_orchestrator.md R96, R98, R100); while busy it has no move
and is refused as `Reentry` (R101); in ABORT it is not accepted and nothing happens (60_exceptions.md R111). A region
list that holds a descriptor with reserved bits is refused whole (30_encoding.md R52; log entry 10). While busy the phase
is looked at and the list is not (log entry 27). The operand is bit 3 of the phase code the trigger meets; both codes
start the same walk. -/
def execRun (_fromDone : Bool) (s : State) : Result :=
  match s.phase with
  | .idle => if regionsDecode s.regions then enterRegion 0 s else .refused .reservedBits
  | .done => if regionsDecode s.regions then enterRegion 0 s else .refused .reservedBits
  | .abort => .next s
  | _ => .refused .reentry

/-- One region executed whole: fetch, RESOLVE, TRANSLATE, PROGRAM, next region (44_orchestrator.md R95). An abort in
TRANSLATE ends it there (60_exceptions.md R110). -/
def execRegion (r : Region) (s : State) : Result :=
  andThen (execResolve (s.loadRegion r)) fun s1 =>
    andThen (execTranslate s1) fun s2 => if s2.phase = .abort then .next s2 else program s2

/-- `NSR.ITCM start, end`: mark the ITCM blocks holding `[start, end]` Non-Secure (44_orchestrator.md R93). -/
def execNsrItcm (start stop : Word) (s : State) : Result :=
  execRegion { start := start, stop := stop, type := .itcm } s

/-- `NSR.DTCM start, end`: mark the DTCM blocks holding `[start, end]` Non-Secure (44_orchestrator.md R94). -/
def execNsrDtcm (start stop : Word) (s : State) : Result :=
  execRegion { start := start, stop := stop, type := .dtcm } s

end Sys2Proof.Machine
end

