-- ==== Sys2Proof/Machine/Dispatch.lean ====
section
/-! DEFINITION. One arm per constructor of Instr: the meaning of each instruction. -/

namespace Sys2Proof.Machine

def exec (i : Instr) (s : State) : Host.Outcome State Fault Refusal :=
  match i with
  | .nsrItcm start stop => Sys2Proof.Machine.execNsrItcm start stop s
  | .nsrDtcm start stop => Sys2Proof.Machine.execNsrDtcm start stop s
  | .run fromDone => Sys2Proof.Machine.execRun fromDone s
  | .resolve => Sys2Proof.Machine.execResolve s
  | .translate => Sys2Proof.Machine.execTranslate s
  | .split => Sys2Proof.Machine.execSplit s
  | .single => Sys2Proof.Machine.execSingle s
  | .first => Sys2Proof.Machine.execFirst s
  | .mid => Sys2Proof.Machine.execMid s
  | .last => Sys2Proof.Machine.execLast s

end Sys2Proof.Machine
end

