-- ==== Sys2Proof/Machine/Step.lean ====
section
/-! DEFINITION. One step of the machine (10_state.md R23), and where it fetches its next instruction. -/

namespace Sys2Proof.Machine

/-- One step: the inputs of the step are taken, and what `nextAction` says is done. -/
def step (s : State) : Host.Outcome State Fault Refusal :=
  match nextAction s with
  | .execute i => exec i s.tick
  | .wait => .next s.tick
  | .reset => .next s.tick.applyReset
  | .stop r => .refused r

/-- `s` with the table word `w` placed where `step` fetches its next instruction (log entry 7). -/
def State.withFetchWord (s : State) (nbits w : Nat) : State :=
  placeWord nbits w s

end Sys2Proof.Machine
end

