-- ==== Sys2Proof/Safety.lean ====
section
/-! DEFINITION. The terms claims use: LUT bits and the blocks of a region, what an instruction keeps, the invariant of
the machine, well-formed region lists, the transition table, and which working registers are live in a phase. -/

namespace Sys2Proof.Machine

/-! ### LUT bits and regions -/

/-- `LUT[t][w][b]`: the Non-Secure flag of block `32*w + b` of type `t` (10_state.md R12, 30_encoding.md R54). -/
def State.lutBit (s : State) (t : MemType) (w : Word) (b : Nat) : Bool :=
  (s.lutWord t w).getLsbD b

/-- The first block of a region, with the shift RESOLVE gives for its type (41_region_translator.md R67). -/
def startBlockOf (c : Config) (r : Region) : Word :=
  blockOf (c.of r.type) (shiftOf (c.of r.type)) r.start

/-- The last block of a region, inclusive. -/
def endBlockOf (c : Config) (r : Region) : Word :=
  blockOf (c.of r.type) (shiftOf (c.of r.type)) r.stop

/-- Is block `32*w + b` of type `t` in the block range of `r` (43_lut_programmer.md R89, the set `S`)? -/
def coversBit (c : Config) (r : Region) (t : MemType) (w : Word) (b : Nat) : Bool :=
  decide (r.type = t ∧ (startBlockOf c r).toNat ≤ 32 * w.toNat + b ∧ 32 * w.toNat + b ≤ (endBlockOf c r).toNat)

/-- The Region the working registers hold (10_state.md R20). -/
def State.curRegion (s : State) : Region :=
  { start := s.work.curStart, stop := s.work.curEnd, type := s.work.curType }

/-- The Region of a descriptor in a list, if it spells one. -/
def regionOf (d : Descriptor) : Option Region :=
  (decodeRegion d).toOption

/-- `ListWellFormed` (70_reset_and_hazards.md R133): every descriptor has zero reserved bits and spells a region that is
well-formed and fits the LUT. Block alignment is no part of it (41_region_translator.md R70). -/
def ListWellFormed (c : Config) (ds : List Descriptor) : Prop :=
  ∀ d ∈ ds, ∃ r, decodeRegion d = .ok r ∧ r.wf c

/-- No region of the list fails the ALIGN check of 60_exceptions.md R109, which exists with `CHECK_PRECONDITIONS` only.
It is no premise of R133: a well-formed list that breaks it aborts. -/
def ListAligned (c : Config) (ds : List Descriptor) : Prop :=
  c.checkPreconditions = true → ∀ d ∈ ds, ∀ r, decodeRegion d = .ok r → r.aligned c

/-- Does a region of the list cover block `32*w + b` of type `t`? -/
def listCovers (c : Config) (ds : List Descriptor) (t : MemType) (w : Word) (b : Nat) : Bool :=
  ds.any fun d => match regionOf d with
    | some r => coversBit c r t w b
    | none => false

/-- `m` is the contiguous run of 1-bits from `lo` through `hi`, all other bits zero (42_bit_range_mask.md R74). -/
def isBitRange (m : Word) (lo hi : Nat) : Prop :=
  ∀ b < 32, m.getLsbD b = decide (lo ≤ b ∧ b ≤ hi)

/-! ### What an instruction keeps -/

/-- Parameters, region table, inputs and step size are kept. -/
abbrev keepsPlatform (s t : State) : Prop :=
  t.cfg = s.cfg ∧ t.regions = s.regions ∧ t.inputs = s.inputs ∧ t.grain = s.grain

/-- The abort registers are kept (60_exceptions.md R110). -/
abbrev keepsAbort (s t : State) : Prop :=
  t.abortCode = s.abortCode ∧ t.abortRi = s.abortRi

/-- Every register-space byte outside the word at bus address `a` reads as before. -/
abbrev bytesKeptOutside (s t : State) (a : Word) : Prop :=
  ∀ x : Nat, (x < a.toNat ∨ a.toNat + 4 ≤ x) → t.mem.readByte x = s.mem.readByte x

/-- `t` stands where region `n` of the list is taken up: fetched and in RESOLVE, or in DONE past the end of the list
(44_orchestrator.md R97, R98). The other working registers are not spoken of. That
DONE keeps the fetched Region is the model's choice (log entry 28). -/
def takenUp (s : State) (n : Nat) (t : State) : Prop :=
  t.ri = n ∧
  match s.regions[n]? with
  | some d => t.phase = .resolve ∧ decodeRegion d = .ok t.curRegion
  | none => t.phase = .done ∧ t.curRegion = s.curRegion

/-- Region `n` can be taken up: there is none, or its descriptor spells a Region (30_encoding.md R52). -/
def canTakeUp (s : State) (n : Nat) : Prop :=
  match s.regions[n]? with
  | some d => (decodeRegion d).toBool = true
  | none => True

/-! ### The invariant -/

/-- A bus event of this block: aligned, a read of a CFG register that returns its constant value, or a read or write of
a LUT word that exists (20_memory.md R30, R37; 10_state.md R18). -/
def eventOk (c : Config) (e : BusEvent) : Prop :=
  e.addr.toNat % 4 = 0 ∧
  ((e.kind = .rd ∧ ∃ t : MemType, e.addr = (c.of t).cfgAddr ∧ e.data = (c.of t).cfgValue) ∨
   ∃ (t : MemType) (w : Word), w.toNat < (c.of t).nLutWords ∧ e.addr = lutAddr (c.of t) w)

/-- The busy sequencer works on descriptor `ri` of a list that spells Regions, and holds that Region. -/
def onRegion (s : State) : Prop :=
  regionsDecode s.regions = true ∧ ∃ d, s.regions[s.ri]? = some d ∧ decodeRegion d = .ok s.curRegion

/-- What holds of position and working registers in each phase (10_state.md R22, R23; 43_lut_programmer.md R86). -/
def positionOk (s : State) : Prop :=
  match s.phase with
  | .idle => s.ri = 0
  | .resolve => onRegion s
  | .translate => onRegion s ∧ s.work.shift = shiftOf s.params ∧ s.work.blocksize = blocksizeOf s.params
  | .split => onRegion s ∧ s.work.startBlock ≤ s.work.endBlock
  | .single => onRegion s ∧ s.work.startLut = s.work.endLut ∧ s.work.startOffset ≤ s.work.endOffset ∧
      s.work.endLut.toNat < s.params.nLutWords
  | .first => onRegion s ∧ s.work.startLut < s.work.endLut ∧ s.work.endLut.toNat < s.params.nLutWords
  | .mid => onRegion s ∧ s.work.startLut < s.wi ∧ s.wi < s.work.endLut ∧ s.work.endLut.toNat < s.params.nLutWords
  | .last => onRegion s ∧ s.work.startLut < s.work.endLut ∧ s.work.endLut.toNat < s.params.nLutWords
  | .done => s.ri = s.regions.length
  | .abort => onRegion s ∧ s.cfg.checkPreconditions = true ∧ s.abortRi = s.ri ∧ s.abortCode ≠ 0#2

/-- The invariant every step keeps. -/
structure State.Inv (s : State) : Prop where
  /-- The parameters meet 00_scope.md R6. -/
  params : s.cfg.wf
  /-- The register space keeps its canonical form. -/
  canonical : s.mem.wf
  /-- Only LUT bytes are stored (20_memory.md R30). -/
  inLut : ∀ c ∈ s.mem, s.cfg.itcm.inLut c.1 ∨ s.cfg.dtcm.inLut c.1
  /-- Every transaction was one the block may issue. -/
  events : ∀ e ∈ s.trace, eventOk s.cfg e
  /-- The position means something. -/
  position : positionOk s

/-! ### The transition table of 10_state.md R23 -/

/-- `next region` of the table: `ri` moves on by one, to RESOLVE while a descriptor is left, else to DONE. -/
def tableNextRegion (s t : State) : Prop :=
  t.ri = s.ri + 1 ∧ t.phase = if s.ri + 1 < s.regions.length then .resolve else .done

/-- The moves of the position `(phase, ri, wi)` that 10_state.md R23 allows from `s` to `t` in one step with one input.
"No other transition exists": a phase that no line names, without its event, stays. -/
def tableMove (s t : State) : Input → Prop
  | .reset => t.phase = .idle ∧ t.ri = 0
  | .start =>
    match s.phase with
    | .idle => t.ri = 0 ∧ t.phase = if s.regions.length = 0 then .done else .resolve
    | .done => t.ri = 0 ∧ t.phase = if s.regions.length = 0 then .done else .resolve
    | .abort => t.phase = .abort ∧ t.ri = s.ri
    | _ => False
  | .quiet =>
    match s.phase with
    | .idle => t.phase = .idle ∧ t.ri = s.ri
    | .resolve => t.phase = .translate ∧ t.ri = s.ri
    | .translate => t.ri = s.ri ∧ (t.phase = .split ∨ (t.phase = .abort ∧ s.cfg.checkPreconditions = true))
    | .split => t.ri = s.ri ∧
        ((t.phase = .single ∧ t.work.startLut = t.work.endLut) ∨ (t.phase = .first ∧ t.work.startLut < t.work.endLut))
    | .single => tableNextRegion s t
    | .first => t.ri = s.ri ∧
        if s.work.startLut + 1#32 < s.work.endLut then t.phase = .mid ∧ t.wi = s.work.startLut + 1#32 else t.phase = .last
    | .mid => t.ri = s.ri ∧
        if s.wi + 1#32 < s.work.endLut then t.phase = .mid ∧ t.wi = s.wi + 1#32 else t.phase = .last
    | .last => tableNextRegion s t
    | .done => t.phase = .done ∧ t.ri = s.ri
    | .abort => t.phase = .abort ∧ t.ri = s.ri

/-! ### Live working registers -/

/-- The working registers a phase or a later phase of the same region still reads (10_state.md R20, R21); the others
are put to their reset values. -/
def liveWork (p : Phase) (w : Work) : Work :=
  match p with
  | .idle => Work.reset
  | .done => Work.reset
  | .abort => Work.reset
  | .resolve => { Work.reset with curStart := w.curStart, curEnd := w.curEnd, curType := w.curType }
  | .translate => { Work.reset with
      curStart := w.curStart, curEnd := w.curEnd, curType := w.curType, shift := w.shift, blocksize := w.blocksize }
  | .split => { Work.reset with curType := w.curType, startBlock := w.startBlock, endBlock := w.endBlock }
  | .single => { Work.reset with
      curType := w.curType, startLut := w.startLut, startOffset := w.startOffset, endOffset := w.endOffset }
  | .first => { Work.reset with
      curType := w.curType, startLut := w.startLut, endLut := w.endLut, startOffset := w.startOffset
      endOffset := w.endOffset }
  | .mid => { Work.reset with curType := w.curType, endLut := w.endLut, endOffset := w.endOffset }
  | .last => { Work.reset with curType := w.curType, endLut := w.endLut, endOffset := w.endOffset }

/-- The state without what no later step reads: dead working registers, and `wi` outside MID (10_state.md R21, R22).
Everything a claim or an observer can see is kept. -/
def State.observed (s : State) : State :=
  { s with work := liveWork s.phase s.work, wi := if s.phase = .mid then s.wi else 0#32 }

/-- Two outcomes of the same kind, equal up to what no later step reads. -/
def sameOutcome (o o' : Result) : Prop :=
  match o, o' with
  | .next t, .next t' => t.observed = t'.observed
  | .refused r, .refused r' => r = r'
  | .fault r, .fault r' => r = r'
  | _, _ => False

/-! ### Replay of the trace -/

/-- The memory after one event: a write stores its word, a read leaves it (20_memory.md R44). -/
def replayEvent (m : Memory) (e : BusEvent) : Memory :=
  match e.kind with
  | .rd => m
  | .wr => m.writeWord e.addr.toNat e.data

/-- The memory after a list of events, in issue order (20_memory.md R42). -/
def replay (m : Memory) (es : List BusEvent) : Memory :=
  es.foldl replayEvent m

/-- Every LUT read of the list returns the latest write to that word before it, or the initial value
(20_memory.md R42); a read of a CFG register returns its constant (10_state.md R18). -/
def readsTrue (c : Config) : Memory → List BusEvent → Prop
  | _, [] => True
  | m, e :: es =>
    (e.kind = .rd → e.data =
      if e.addr = c.itcm.cfgAddr then c.itcm.cfgValue
      else if e.addr = c.dtcm.cfgAddr then c.dtcm.cfgValue
      else m.readWord e.addr.toNat) ∧ readsTrue c (replayEvent m e) es

/-! ### Runs, and the walk of one region phase by phase -/

/-- `n` steps of the machine, stopping at the first refusal: `Host.Core.run` of the core, on this state type. -/
def runSteps : Nat → State → Result
  | 0, s => .next s
  | n + 1, s => andThen (step s) (runSteps n)

/-- The instruction of a Region. -/
def nsr (t : MemType) (start stop : Word) : Instr :=
  Region.toInstr { start := start, stop := stop, type := t }

/-- The number of phase steps of one region: RESOLVE, TRANSLATE, SPLIT, then SINGLE, or FIRST, a MID for every word
between, LAST (43_lut_programmer.md R84, 44_orchestrator.md R95); two when TRANSLATE aborts. -/
def walkSteps (c : Config) (r : Region) (aborts : Bool) : Nat :=
  let sl := (lutIndex (startBlockOf c r)).toNat
  let el := (lutIndex (endBlockOf c r)).toNat
  if aborts then 2 else if sl = el then 4 else 5 + (el - sl - 1)

/-- The bus accesses of one region under `uniform_or`, without their data: the CFG read, then the LUT accesses of
43_lut_programmer.md R88 (40_blocksize_resolver.md R65, 44_orchestrator.md R95). -/
def regionAccesses (c : Config) (r : Region) : List (BusKind × Word) :=
  let p := c.of r.type
  let sl := lutIndex (startBlockOf c r)
  let el := lutIndex (endBlockOf c r)
  (.rd, p.cfgAddr) ::
    if sl = el then [(.rd, lutAddr p sl), (.wr, lutAddr p sl)]
    else
      [(.rd, lutAddr p sl), (.wr, lutAddr p sl)] ++
      (List.range (el.toNat - sl.toNat - 1)).map (fun i => (.wr, lutAddr p (sl + 1#32 + BitVec.ofNat 32 i))) ++
      [(.rd, lutAddr p el), (.wr, lutAddr p el)]

/-- The bus accesses of a region list, region by region in list order (44_orchestrator.md R99). -/
def listAccesses (c : Config) (ds : List Descriptor) : List (BusKind × Word) :=
  ds.flatMap fun d => match regionOf d with
    | some r => regionAccesses c r
    | none => []

/-- The accesses of a trace, without their data. -/
def accesses (es : List BusEvent) : List (BusKind × Word) :=
  es.map fun e => (e.kind, e.addr)

/-! ### The premises of a run, by the names of 70_reset_and_hazards.md R133

`ListWellFormed` stands above. The first four are conditions on the state a run starts in. The last three speak of a run
from `s` to `t`; the model has no run that breaks one (log entries 15, 18). -/

/-- `ParamsOk`: the parameter constraints of 00_scope.md R6 hold. -/
def ParamsOk (c : Config) : Prop :=
  c.wf = true

/-- `EntryClean`: the phase is IDLE or DONE at the trigger, and the trace is the given prior list. -/
def EntryClean (s : State) (prior : List BusEvent) : Prop :=
  (s.phase = .idle ∨ s.phase = .done) ∧ s.trace = prior

/-- `InitialLut`: the LUT holds the given contents; at power-on they are `LUT_RESET` (70_reset_and_hazards.md R119). -/
def InitialLut (s : State) (lut : Memory) : Prop :=
  s.mem = lut ∧ lut.wf

/-- `CfgConstant`: `CFG_VALUE` is kept, and every read of `CFG[ty]` in the run returns it. -/
def CfgConstant (s t : State) : Prop :=
  t.cfg = s.cfg ∧ ∃ es, t.trace = s.trace ++ es ∧
    ∀ e ∈ es, e.kind = .rd → ∀ ty, e.addr = (s.cfg.of ty).cfgAddr → e.data = (s.cfg.of ty).cfgValue

/-- `Exclusive`, of a run of `n` steps: the block's own writes are all that changes the LUT, nothing changes `CFG` or
`REGIONS`, and no trigger is given while the block is busy. -/
def Exclusive (n : Nat) (s t : State) : Prop :=
  (∃ es, t.trace = s.trace ++ es ∧ t.mem = replay s.mem es) ∧ t.cfg = s.cfg ∧ t.regions = s.regions ∧
  ∀ k < n, ∀ u, runSteps k s = .next u → u.busy = true → u.input ≠ .start

/-- `InOrderBus`: the transactions take effect in issue order, none merged, dropped or failing: the LUT at the end is the
LUT before with the writes applied in order, and every read returns the latest write (20_memory.md R42). -/
def InOrderBus (s t : State) : Prop :=
  ∃ es, t.trace = s.trace ++ es ∧ t.mem = replay s.mem es ∧ readsTrue s.cfg s.mem es

/-- A run can start from `s`, with the trace `prior` and the LUT contents `lut`: the premises of R133 that are conditions
on its start, the required merge policy, and the trigger given once with no other input (`Exclusive`). -/
structure State.RunReady (s : State) (prior : List BusEvent) (lut : Memory) : Prop where
  paramsOk : ParamsOk s.cfg
  listWellFormed : ListWellFormed s.cfg s.regions
  entryClean : EntryClean s prior
  initialLut : InitialLut s lut
  policy : s.cfg.mergePolicy = .uniformOr
  trigger : s.inputs = [.start]

/-- The LUT transactions of one region under `uniform_or` (43_lut_programmer.md R88), on the LUT of `s`. -/
def programEvents (s : State) (r : Region) : List BusEvent :=
  let p := s.cfg.of r.type
  let sb := startBlockOf s.cfg r
  let eb := endBlockOf s.cfg r
  let merge (w m : Word) : List BusEvent :=
    [{ kind := .rd, addr := lutAddr p w, data := s.lutWord r.type w },
     { kind := .wr, addr := lutAddr p w, data := s.lutWord r.type w ||| m }]
  if lutIndex sb = lutIndex eb then merge (lutIndex sb) (setBitRange (lutOffset sb) (lutOffset eb))
  else
    merge (lutIndex sb) (setBitRange (lutOffset sb) 31) ++
    (List.range ((lutIndex eb).toNat - (lutIndex sb).toNat - 1)).map
      (fun i => { kind := .wr, addr := lutAddr p (lutIndex sb + 1#32 + BitVec.ofNat 32 i), data := allOnes }) ++
    merge (lutIndex eb) (setBitRange 0 (lutOffset eb))

end Sys2Proof.Machine
end

