-- ==== Sys2Proof/Laws/Memory.lean ====
section
/-! SUPPORT. The register space: reads after writes, bytes and words, and the canonical form every write keeps. -/

namespace Sys2Proof.Machine

/-! ### Bytes -/

/-- Every address of a canonical list past its head is larger than the head's. -/
theorem Memory.wf_cons {c : Host.Cell} {m : Memory} :
    Memory.wf (c :: m) ↔ (∀ x ∈ m, c.1 < x.1) ∧ c.2 ≠ unlistedByte ∧ Memory.wf m := by
  simp only [Memory.wf, List.pairwise_cons, List.forall_mem_cons]
  tauto

/-- An address below every listed one reads as unlisted. -/
theorem Memory.readByte_of_lt {m : Memory} {a : Nat} (h : ∀ x ∈ m, a < x.1) : m.readByte a = unlistedByte := by
  induction m with
  | nil => rfl
  | cons c m ih =>
    obtain ⟨hc, hm⟩ := List.forall_mem_cons.1 h
    simp only [Memory.readByte]
    rw [if_neg (by omega), ih hm]

theorem Memory.mem_writeByte {m : Memory} {a : Nat} {v : Byte} {x : Host.Cell} (h : x ∈ m.writeByte a v) :
    x = (a, v) ∨ x ∈ m := by
  induction m with
  | nil => simp only [Memory.writeByte] at h; split at h <;> simp_all
  | cons c m ih =>
    simp only [Memory.writeByte] at h
    split at h
    · split at h <;> simp_all
    · split at h
      · split at h
        · exact .inr (.tail _ h)
        · rcases List.mem_cons.1 h with h | h
          · exact .inl h
          · exact .inr (.tail _ h)
      · rcases List.mem_cons.1 h with h | h
        · exact .inr (h ▸ .head _)
        · exact (ih h).imp_right (.tail _)

/-- A write keeps the canonical form. -/
theorem Memory.wf_writeByte {m : Memory} (h : m.wf) (a : Nat) (v : Byte) : (m.writeByte a v).wf := by
  induction m with
  | nil =>
    simp only [Memory.writeByte]
    split
    · exact h
    · exact Memory.wf_cons.2 ⟨by simp, ‹_›, h⟩
  | cons c m ih =>
    obtain ⟨hlt, hne, hm⟩ := Memory.wf_cons.1 h
    simp only [Memory.writeByte]
    split
    · split
      · exact h
      · refine Memory.wf_cons.2 ⟨?_, ‹_›, h⟩
        intro x hx
        rcases List.mem_cons.1 hx with rfl | hx
        · assumption
        · exact lt_trans ‹a < c.1› (hlt x hx)
    · split
      · subst a
        split
        · exact hm
        · exact Memory.wf_cons.2 ⟨hlt, ‹_›, hm⟩
      · refine Memory.wf_cons.2 ⟨?_, hne, ih hm⟩
        intro x hx
        rcases Memory.mem_writeByte hx with rfl | hx
        · show c.1 < a; omega
        · exact hlt x hx

/-- The byte written reads back. -/
theorem Memory.readByte_writeByte_self {m : Memory} (h : m.wf) (a : Nat) (v : Byte) :
    (m.writeByte a v).readByte a = v := by
  induction m with
  | nil => simp only [Memory.writeByte]; split <;> simp_all [Memory.readByte]
  | cons c m ih =>
    obtain ⟨hlt, hne, hm⟩ := Memory.wf_cons.1 h
    simp only [Memory.writeByte]
    split
    · rename_i hlt'
      split
      · subst v
        refine Memory.readByte_of_lt fun x hx => ?_
        rcases List.mem_cons.1 hx with rfl | hx
        · exact hlt'
        · exact lt_trans hlt' (hlt x hx)
      · simp [Memory.readByte]
    · split
      · subst a
        split
        · subst v; exact Memory.readByte_of_lt hlt
        · simp [Memory.readByte]
      · simp only [Memory.readByte]
        rw [if_neg (by omega), ih hm]

/-- Every other byte reads as before. -/
theorem Memory.readByte_writeByte_ne {m : Memory} {a x : Nat} (hx : x ≠ a) (v : Byte) :
    (m.writeByte a v).readByte x = m.readByte x := by
  induction m with
  | nil => simp only [Memory.writeByte]; split <;> simp [Memory.readByte, Ne.symm hx]
  | cons c m ih =>
    simp only [Memory.writeByte]
    split
    · split
      · rfl
      · simp [Memory.readByte, Ne.symm hx]
    · split
      · subst a
        split <;> simp [Memory.readByte, Ne.symm hx]
      · simp only [Memory.readByte, ih]

/-! ### Words -/

/-- A word is put together again from its bytes. -/
@[simp] theorem wordOfBytes_byteOfWord (w : Word) :
    wordOfBytes (byteOfWord 0 w) (byteOfWord 1 w) (byteOfWord 2 w) (byteOfWord 3 w) = w := by
  apply BitVec.eq_of_getLsbD_eq
  intro i hi
  have : i < 32 := hi
  simp only [wordOfBytes, byteOfWord, BitVec.getLsbD_append, BitVec.getLsbD_extractLsb']
  rcases (by omega : i < 8 ∨ (8 ≤ i ∧ i < 16) ∨ (16 ≤ i ∧ i < 24) ∨ (24 ≤ i ∧ i < 32)) with h | h | h | h
  · simp [h]
  · simp [show ¬ i < 8 by omega, show i - 8 < 8 by omega, show 8 + (i - 8) = i by omega]
  · simp [show ¬ i < 8 by omega, show ¬ i - 8 < 8 by omega, show i - 8 - 8 < 8 by omega,
      show 16 + (i - 8 - 8) = i by omega]
  · simp [show ¬ i < 8 by omega, show ¬ i - 8 < 8 by omega, show ¬ i - 8 - 8 < 8 by omega,
      show i - 8 - 8 - 8 < 8 by omega, show 24 + (i - 8 - 8 - 8) = i by omega]

theorem Memory.wf_writeWord {m : Memory} (h : m.wf) (a : Nat) (v : Word) : (m.writeWord a v).wf :=
  Memory.wf_writeByte (Memory.wf_writeByte (Memory.wf_writeByte (Memory.wf_writeByte h _ _) _ _) _ _) _ _

/-- Every byte outside the word written reads as before. -/
theorem Memory.readByte_writeWord_outside {m : Memory} {a x : Nat} (hx : x < a ∨ a + 4 ≤ x) (v : Word) :
    (m.writeWord a v).readByte x = m.readByte x := by
  unfold Memory.writeWord
  rw [Memory.readByte_writeByte_ne (by omega), Memory.readByte_writeByte_ne (by omega),
    Memory.readByte_writeByte_ne (by omega), Memory.readByte_writeByte_ne (by omega)]

/-- The word written reads back. -/
theorem Memory.readWord_writeWord_self {m : Memory} (h : m.wf) (a : Nat) (v : Word) :
    (m.writeWord a v).readWord a = v := by
  have h1 := Memory.wf_writeByte h a (byteOfWord 0 v)
  have h2 := Memory.wf_writeByte h1 (a + 1) (byteOfWord 1 v)
  have h3 := Memory.wf_writeByte h2 (a + 2) (byteOfWord 2 v)
  have e0 : (m.writeWord a v).readByte a = byteOfWord 0 v := by
    unfold Memory.writeWord
    rw [Memory.readByte_writeByte_ne (by omega), Memory.readByte_writeByte_ne (by omega),
      Memory.readByte_writeByte_ne (by omega), Memory.readByte_writeByte_self h]
  have e1 : (m.writeWord a v).readByte (a + 1) = byteOfWord 1 v := by
    unfold Memory.writeWord
    rw [Memory.readByte_writeByte_ne (by omega), Memory.readByte_writeByte_ne (by omega),
      Memory.readByte_writeByte_self h1]
  have e2 : (m.writeWord a v).readByte (a + 2) = byteOfWord 2 v := by
    unfold Memory.writeWord
    rw [Memory.readByte_writeByte_ne (by omega), Memory.readByte_writeByte_self h2]
  have e3 : (m.writeWord a v).readByte (a + 3) = byteOfWord 3 v := Memory.readByte_writeByte_self h3 _ _
  rw [Memory.readWord, e0, e1, e2, e3, wordOfBytes_byteOfWord]

/-- A word that does not overlap the one written reads as before. -/
theorem Memory.readWord_writeWord_ne {m : Memory} {a x : Nat} (hx : x + 4 ≤ a ∨ a + 4 ≤ x) (v : Word) :
    (m.writeWord a v).readWord x = m.readWord x := by
  unfold Memory.readWord
  rw [Memory.readByte_writeWord_outside (by omega), Memory.readByte_writeWord_outside (by omega),
    Memory.readByte_writeWord_outside (by omega), Memory.readByte_writeWord_outside (by omega)]

/-- The cells a word write leaves are the old ones and the four of the word. -/
theorem Memory.mem_writeWord {m : Memory} {a : Nat} {v : Word} {x : Host.Cell} (h : x ∈ m.writeWord a v) :
    (a ≤ x.1 ∧ x.1 < a + 4) ∨ x ∈ m := by
  unfold Memory.writeWord at h
  rcases Memory.mem_writeByte h with rfl | h
  · exact .inl ⟨by simp, by simp⟩
  rcases Memory.mem_writeByte h with rfl | h
  · exact .inl ⟨by simp, by simp⟩
  rcases Memory.mem_writeByte h with rfl | h
  · exact .inl ⟨by simp, by simp⟩
  rcases Memory.mem_writeByte h with rfl | h
  · exact .inl ⟨by simp, by simp⟩
  exact .inr h

/-- Canonical memories that read the same are the same list. -/
theorem Memory.ext_of_wf {m m' : Memory} (h : m.wf) (h' : m'.wf) (hr : ∀ a, m.readByte a = m'.readByte a) : m = m' := by
  induction m generalizing m' with
  | nil =>
    cases m' with
    | nil => rfl
    | cons c' m' =>
      obtain ⟨-, hne, -⟩ := Memory.wf_cons.1 h'
      have := hr c'.1
      simp only [Memory.readByte, if_true] at this
      exact absurd this.symm hne
  | cons c m ih =>
    obtain ⟨hlt, hne, hm⟩ := Memory.wf_cons.1 h
    cases m' with
    | nil =>
      have := hr c.1
      simp only [Memory.readByte, if_true] at this
      exact absurd this hne
    | cons c' m' =>
      obtain ⟨hlt', hne', hm'⟩ := Memory.wf_cons.1 h'
      have hk : c.1 = c'.1 := by
        rcases lt_trichotomy c.1 c'.1 with hk | hk | hk
        · have h1 := hr c.1
          have h2 : Memory.readByte (c' :: m') c.1 = unlistedByte := Memory.readByte_of_lt fun x hx => by
            rcases List.mem_cons.1 hx with rfl | hx
            · exact hk
            · exact lt_trans hk (hlt' x hx)
          rw [h2] at h1
          simp only [Memory.readByte, if_true] at h1
          exact absurd h1 hne
        · exact hk
        · have h1 := hr c'.1
          have h2 : Memory.readByte (c :: m) c'.1 = unlistedByte := Memory.readByte_of_lt fun x hx => by
            rcases List.mem_cons.1 hx with rfl | hx
            · exact hk
            · exact lt_trans hk (hlt x hx)
          rw [h2] at h1
          simp only [Memory.readByte, if_true] at h1
          exact absurd h1.symm hne'
      have hv : c.2 = c'.2 := by
        have := hr c.1
        simpa [Memory.readByte, hk] using this
      have htail : m = m' := by
        refine ih hm hm' fun a => ?_
        by_cases ha : c.1 = a
        · subst a
          rw [Memory.readByte_of_lt hlt, Memory.readByte_of_lt (hk ▸ hlt')]
        · have := hr a
          simpa [Memory.readByte, ha, hk ▸ ha] using this
      rw [htail, Prod.ext hk hv]

end Sys2Proof.Machine
end

