-- ==== Sys2Proof/Laws/Operands.lean ====
section
/-! SUPPORT. What the operand functions compute: the mask, the LUT address, the block index, the block size. -/

namespace Sys2Proof.Machine

/-- The defining property of the mask (42_bit_range_mask.md R74), for every `lo` and `hi`. -/
theorem setBitRange_getLsbD (lo hi : BitVec 5) {b : Nat} (hb : b < 32) :
    (setBitRange lo hi).getLsbD b = decide (lo.toNat ≤ b ∧ b ≤ hi.toNat) := by
  have h1 := hi.isLt
  have hones : ∀ i, (allOnes : Word).getLsbD i = decide (i < 32) := fun i => by
    rw [show (allOnes : Word) = BitVec.allOnes 32 from rfl, BitVec.getLsbD_allOnes]
  simp only [setBitRange, BitVec.getLsbD_and, BitVec.getLsbD_ushiftRight, BitVec.getLsbD_shiftLeft, hones]
  rw [Bool.eq_iff_iff]
  simp only [Bool.and_eq_true, Bool.not_eq_true', decide_eq_true_eq, decide_eq_false_iff_not]
  omega

/-- Bits of all ones. -/
theorem allOnes_getLsbD {b : Nat} (hb : b < 32) : (allOnes : Word).getLsbD b = true := by
  rw [show (allOnes : Word) = BitVec.allOnes 32 from rfl, BitVec.getLsbD_allOnes, decide_eq_true hb]

/-- The LUT word of a block. -/
@[simp] theorem lutIndex_toNat (k : Word) : (lutIndex k).toNat = k.toNat / 32 := by
  simp [lutIndex, Nat.shiftRight_eq_div_pow]

/-- The bit position of a block. -/
@[simp] theorem lutOffset_toNat (k : Word) : (lutOffset k).toNat = k.toNat % 32 := by
  simp [lutOffset]

/-- The block of an address at or above the base. -/
theorem blockOf_toNat {p : TypeParams} {a : Word} (h : p.base.toNat ≤ a.toNat) (shift : BitVec 5) :
    (blockOf p shift a).toNat = (a.toNat - p.base.toNat) / 2 ^ shift.toNat := by
  rw [blockOf, BitVec.toNat_ushiftRight, Nat.shiftRight_eq_div_pow, BitVec.toNat_sub_of_le (BitVec.le_def.2 h)]

/-- A LUT address does not wrap for an index that names a register (00_scope.md R6). -/
theorem lutAddr_toNat {p : TypeParams} {w : Word} (hp : p.lutEnd ≤ 2 ^ 32) (hw : w.toNat < p.nLutWords) :
    (lutAddr p w).toNat = p.lutBase.toNat + 4 * w.toNat := by
  unfold TypeParams.lutEnd at hp
  have h4 : (4#32 * w).toNat = 4 * w.toNat := by
    rw [BitVec.toNat_mul, show (4#32 : Word).toNat = 4 from rfl, Nat.mod_eq_of_lt (by omega)]
  rw [lutAddr, BitVec.toNat_add, h4, Nat.mod_eq_of_lt (by omega)]

/-- The block-size field is below 2^4 when the parameters are well-formed. -/
theorem blkszField_lt {p : TypeParams} (hp : p.blkszWidth ≤ 4) (c : Word) : blkszField p c < 16 :=
  lt_of_lt_of_le (Nat.mod_lt _ (Nat.two_pow_pos _)) (Nat.pow_le_pow_right (by omega) hp)

/-- The block size is two to the shift (40_blocksize_resolver.md R66). -/
theorem blocksizeOfField_toNat {f : Nat} (hf : f < 16) :
    (shiftOfField f).toNat = f + 5 ∧ (blocksizeOfField f).toNat = 2 ^ (f + 5) := by
  have h1 : f + 5 < 2 ^ 5 := by omega
  have h2 : 2 ^ (f + 5) < 2 ^ 32 := Nat.pow_lt_pow_right (by omega) (by omega)
  exact ⟨by simp only [shiftOfField, BitVec.toNat_ofNat, Nat.mod_eq_of_lt h1],
    by simp only [blocksizeOfField, BitVec.toNat_ofNat, Nat.mod_eq_of_lt h2]⟩

theorem Config.wf_iff {c : Config} : c.wf = true ↔ c.itcm.wf ∧ c.dtcm.wf ∧ c.disjoint := by
  simp only [Config.wf, decide_eq_true_eq]

/-- The Region invariant as comparisons of numbers (41_region_translator.md R70). -/
theorem inWindow_iff {p : TypeParams} {start stop : Word} :
    inWindow p start stop = true ↔
      p.base.toNat ≤ start.toNat ∧ start.toNat ≤ stop.toNat ∧ stop.toNat + 1 ≤ p.base.toNat + p.size := by
  simp only [inWindow, decide_eq_true_eq]

/-- The parameters of either type of a well-formed configuration are well-formed. -/
theorem Config.of_wf {c : Config} (h : c.wf) (t : MemType) : (c.of t).wf := by
  cases t
  · exact (Config.wf_iff.1 h).1
  · exact (Config.wf_iff.1 h).2.1

end Sys2Proof.Machine
end

