-- ==== Sys2Proof/Laws/State.lean ====
section
/-! SUPPORT. One lemma per field per named update of the state, each true by rfl, so that no proof unfolds an
update. -/

namespace Sys2Proof.Machine

variable (s : State)

/-! ### toPhase -/

@[simp] theorem State.toPhase_cfg (p : Phase) : (s.toPhase p).cfg = s.cfg := rfl
@[simp] theorem State.toPhase_regions (p : Phase) : (s.toPhase p).regions = s.regions := rfl
@[simp] theorem State.toPhase_mem (p : Phase) : (s.toPhase p).mem = s.mem := rfl
@[simp] theorem State.toPhase_phase (p : Phase) : (s.toPhase p).phase = p := rfl
@[simp] theorem State.toPhase_ri (p : Phase) : (s.toPhase p).ri = s.ri := rfl
@[simp] theorem State.toPhase_wi (p : Phase) : (s.toPhase p).wi = s.wi := rfl
@[simp] theorem State.toPhase_work (p : Phase) : (s.toPhase p).work = s.work := rfl
@[simp] theorem State.toPhase_abortCode (p : Phase) : (s.toPhase p).abortCode = s.abortCode := rfl
@[simp] theorem State.toPhase_abortRi (p : Phase) : (s.toPhase p).abortRi = s.abortRi := rfl
@[simp] theorem State.toPhase_trace (p : Phase) : (s.toPhase p).trace = s.trace := rfl
@[simp] theorem State.toPhase_inputs (p : Phase) : (s.toPhase p).inputs = s.inputs := rfl
@[simp] theorem State.toPhase_grain (p : Phase) : (s.toPhase p).grain = s.grain := rfl

/-! ### setWi -/

@[simp] theorem State.setWi_cfg (w : Word) : (s.setWi w).cfg = s.cfg := rfl
@[simp] theorem State.setWi_regions (w : Word) : (s.setWi w).regions = s.regions := rfl
@[simp] theorem State.setWi_mem (w : Word) : (s.setWi w).mem = s.mem := rfl
@[simp] theorem State.setWi_phase (w : Word) : (s.setWi w).phase = s.phase := rfl
@[simp] theorem State.setWi_ri (w : Word) : (s.setWi w).ri = s.ri := rfl
@[simp] theorem State.setWi_wi (w : Word) : (s.setWi w).wi = w := rfl
@[simp] theorem State.setWi_work (w : Word) : (s.setWi w).work = s.work := rfl
@[simp] theorem State.setWi_abortCode (w : Word) : (s.setWi w).abortCode = s.abortCode := rfl
@[simp] theorem State.setWi_abortRi (w : Word) : (s.setWi w).abortRi = s.abortRi := rfl
@[simp] theorem State.setWi_trace (w : Word) : (s.setWi w).trace = s.trace := rfl
@[simp] theorem State.setWi_inputs (w : Word) : (s.setWi w).inputs = s.inputs := rfl
@[simp] theorem State.setWi_grain (w : Word) : (s.setWi w).grain = s.grain := rfl

/-! ### setRi -/

@[simp] theorem State.setRi_cfg (n : Nat) : (s.setRi n).cfg = s.cfg := rfl
@[simp] theorem State.setRi_regions (n : Nat) : (s.setRi n).regions = s.regions := rfl
@[simp] theorem State.setRi_mem (n : Nat) : (s.setRi n).mem = s.mem := rfl
@[simp] theorem State.setRi_phase (n : Nat) : (s.setRi n).phase = s.phase := rfl
@[simp] theorem State.setRi_ri (n : Nat) : (s.setRi n).ri = n := rfl
@[simp] theorem State.setRi_wi (n : Nat) : (s.setRi n).wi = s.wi := rfl
@[simp] theorem State.setRi_work (n : Nat) : (s.setRi n).work = s.work := rfl
@[simp] theorem State.setRi_abortCode (n : Nat) : (s.setRi n).abortCode = s.abortCode := rfl
@[simp] theorem State.setRi_abortRi (n : Nat) : (s.setRi n).abortRi = s.abortRi := rfl
@[simp] theorem State.setRi_trace (n : Nat) : (s.setRi n).trace = s.trace := rfl
@[simp] theorem State.setRi_inputs (n : Nat) : (s.setRi n).inputs = s.inputs := rfl
@[simp] theorem State.setRi_grain (n : Nat) : (s.setRi n).grain = s.grain := rfl

/-! ### setWork -/

@[simp] theorem State.setWork_cfg (w : Work) : (s.setWork w).cfg = s.cfg := rfl
@[simp] theorem State.setWork_regions (w : Work) : (s.setWork w).regions = s.regions := rfl
@[simp] theorem State.setWork_mem (w : Work) : (s.setWork w).mem = s.mem := rfl
@[simp] theorem State.setWork_phase (w : Work) : (s.setWork w).phase = s.phase := rfl
@[simp] theorem State.setWork_ri (w : Work) : (s.setWork w).ri = s.ri := rfl
@[simp] theorem State.setWork_wi (w : Work) : (s.setWork w).wi = s.wi := rfl
@[simp] theorem State.setWork_work (w : Work) : (s.setWork w).work = w := rfl
@[simp] theorem State.setWork_abortCode (w : Work) : (s.setWork w).abortCode = s.abortCode := rfl
@[simp] theorem State.setWork_abortRi (w : Work) : (s.setWork w).abortRi = s.abortRi := rfl
@[simp] theorem State.setWork_trace (w : Work) : (s.setWork w).trace = s.trace := rfl
@[simp] theorem State.setWork_inputs (w : Work) : (s.setWork w).inputs = s.inputs := rfl
@[simp] theorem State.setWork_grain (w : Work) : (s.setWork w).grain = s.grain := rfl

/-! ### log -/

@[simp] theorem State.log_cfg (e : BusEvent) : (s.log e).cfg = s.cfg := rfl
@[simp] theorem State.log_regions (e : BusEvent) : (s.log e).regions = s.regions := rfl
@[simp] theorem State.log_mem (e : BusEvent) : (s.log e).mem = s.mem := rfl
@[simp] theorem State.log_phase (e : BusEvent) : (s.log e).phase = s.phase := rfl
@[simp] theorem State.log_ri (e : BusEvent) : (s.log e).ri = s.ri := rfl
@[simp] theorem State.log_wi (e : BusEvent) : (s.log e).wi = s.wi := rfl
@[simp] theorem State.log_work (e : BusEvent) : (s.log e).work = s.work := rfl
@[simp] theorem State.log_abortCode (e : BusEvent) : (s.log e).abortCode = s.abortCode := rfl
@[simp] theorem State.log_abortRi (e : BusEvent) : (s.log e).abortRi = s.abortRi := rfl
@[simp] theorem State.log_trace (e : BusEvent) : (s.log e).trace = s.trace ++ [e] := rfl
@[simp] theorem State.log_inputs (e : BusEvent) : (s.log e).inputs = s.inputs := rfl
@[simp] theorem State.log_grain (e : BusEvent) : (s.log e).grain = s.grain := rfl

/-! ### setMem -/

@[simp] theorem State.setMem_cfg (m : Memory) : (s.setMem m).cfg = s.cfg := rfl
@[simp] theorem State.setMem_regions (m : Memory) : (s.setMem m).regions = s.regions := rfl
@[simp] theorem State.setMem_mem (m : Memory) : (s.setMem m).mem = m := rfl
@[simp] theorem State.setMem_phase (m : Memory) : (s.setMem m).phase = s.phase := rfl
@[simp] theorem State.setMem_ri (m : Memory) : (s.setMem m).ri = s.ri := rfl
@[simp] theorem State.setMem_wi (m : Memory) : (s.setMem m).wi = s.wi := rfl
@[simp] theorem State.setMem_work (m : Memory) : (s.setMem m).work = s.work := rfl
@[simp] theorem State.setMem_abortCode (m : Memory) : (s.setMem m).abortCode = s.abortCode := rfl
@[simp] theorem State.setMem_abortRi (m : Memory) : (s.setMem m).abortRi = s.abortRi := rfl
@[simp] theorem State.setMem_trace (m : Memory) : (s.setMem m).trace = s.trace := rfl
@[simp] theorem State.setMem_inputs (m : Memory) : (s.setMem m).inputs = s.inputs := rfl
@[simp] theorem State.setMem_grain (m : Memory) : (s.setMem m).grain = s.grain := rfl

/-! ### tick -/

@[simp] theorem State.tick_cfg : (s.tick).cfg = s.cfg := rfl
@[simp] theorem State.tick_regions : (s.tick).regions = s.regions := rfl
@[simp] theorem State.tick_mem : (s.tick).mem = s.mem := rfl
@[simp] theorem State.tick_phase : (s.tick).phase = s.phase := rfl
@[simp] theorem State.tick_ri : (s.tick).ri = s.ri := rfl
@[simp] theorem State.tick_wi : (s.tick).wi = s.wi := rfl
@[simp] theorem State.tick_work : (s.tick).work = s.work := rfl
@[simp] theorem State.tick_abortCode : (s.tick).abortCode = s.abortCode := rfl
@[simp] theorem State.tick_abortRi : (s.tick).abortRi = s.abortRi := rfl
@[simp] theorem State.tick_trace : (s.tick).trace = s.trace := rfl
@[simp] theorem State.tick_inputs : (s.tick).inputs = s.inputs.tail := rfl
@[simp] theorem State.tick_grain : (s.tick).grain = s.grain := rfl

/-! ### loadRegion -/

@[simp] theorem State.loadRegion_cfg (r : Region) : (s.loadRegion r).cfg = s.cfg := rfl
@[simp] theorem State.loadRegion_regions (r : Region) : (s.loadRegion r).regions = s.regions := rfl
@[simp] theorem State.loadRegion_mem (r : Region) : (s.loadRegion r).mem = s.mem := rfl
@[simp] theorem State.loadRegion_phase (r : Region) : (s.loadRegion r).phase = .resolve := rfl
@[simp] theorem State.loadRegion_ri (r : Region) : (s.loadRegion r).ri = s.ri := rfl
@[simp] theorem State.loadRegion_wi (r : Region) : (s.loadRegion r).wi = s.wi := rfl
@[simp] theorem State.loadRegion_work (r : Region) :
    (s.loadRegion r).work =
      { s.work with curStart := r.start, curEnd := r.stop, curType := r.type } := rfl
@[simp] theorem State.loadRegion_abortCode (r : Region) : (s.loadRegion r).abortCode = s.abortCode := rfl
@[simp] theorem State.loadRegion_abortRi (r : Region) : (s.loadRegion r).abortRi = s.abortRi := rfl
@[simp] theorem State.loadRegion_trace (r : Region) : (s.loadRegion r).trace = s.trace := rfl
@[simp] theorem State.loadRegion_inputs (r : Region) : (s.loadRegion r).inputs = s.inputs := rfl
@[simp] theorem State.loadRegion_grain (r : Region) : (s.loadRegion r).grain = s.grain := rfl

/-! ### raiseAbort -/

@[simp] theorem State.raiseAbort_cfg (c : BitVec 2) : (s.raiseAbort c).cfg = s.cfg := rfl
@[simp] theorem State.raiseAbort_regions (c : BitVec 2) : (s.raiseAbort c).regions = s.regions := rfl
@[simp] theorem State.raiseAbort_mem (c : BitVec 2) : (s.raiseAbort c).mem = s.mem := rfl
@[simp] theorem State.raiseAbort_phase (c : BitVec 2) : (s.raiseAbort c).phase = .abort := rfl
@[simp] theorem State.raiseAbort_ri (c : BitVec 2) : (s.raiseAbort c).ri = s.ri := rfl
@[simp] theorem State.raiseAbort_wi (c : BitVec 2) : (s.raiseAbort c).wi = s.wi := rfl
@[simp] theorem State.raiseAbort_work (c : BitVec 2) : (s.raiseAbort c).work = s.work := rfl
@[simp] theorem State.raiseAbort_abortCode (c : BitVec 2) : (s.raiseAbort c).abortCode = c := rfl
@[simp] theorem State.raiseAbort_abortRi (c : BitVec 2) : (s.raiseAbort c).abortRi = s.ri := rfl
@[simp] theorem State.raiseAbort_trace (c : BitVec 2) : (s.raiseAbort c).trace = s.trace := rfl
@[simp] theorem State.raiseAbort_inputs (c : BitVec 2) : (s.raiseAbort c).inputs = s.inputs := rfl
@[simp] theorem State.raiseAbort_grain (c : BitVec 2) : (s.raiseAbort c).grain = s.grain := rfl

/-! ### applyReset -/

@[simp] theorem State.applyReset_cfg : (s.applyReset).cfg = s.cfg := rfl
@[simp] theorem State.applyReset_regions : (s.applyReset).regions = s.regions := rfl
@[simp] theorem State.applyReset_mem : (s.applyReset).mem = s.mem := rfl
@[simp] theorem State.applyReset_phase : (s.applyReset).phase = .idle := rfl
@[simp] theorem State.applyReset_ri : (s.applyReset).ri = 0 := rfl
@[simp] theorem State.applyReset_wi : (s.applyReset).wi = 0 := rfl
@[simp] theorem State.applyReset_work : (s.applyReset).work = Work.reset := rfl
@[simp] theorem State.applyReset_abortCode : (s.applyReset).abortCode = 0 := rfl
@[simp] theorem State.applyReset_abortRi : (s.applyReset).abortRi = 0 := rfl
@[simp] theorem State.applyReset_trace : (s.applyReset).trace = s.trace := rfl
@[simp] theorem State.applyReset_inputs : (s.applyReset).inputs = s.inputs := rfl
@[simp] theorem State.applyReset_grain : (s.applyReset).grain = s.grain := rfl

/-! ### setBlocks -/

@[simp] theorem State.setBlocks_cfg : (s.setBlocks).cfg = s.cfg := rfl
@[simp] theorem State.setBlocks_regions : (s.setBlocks).regions = s.regions := rfl
@[simp] theorem State.setBlocks_mem : (s.setBlocks).mem = s.mem := rfl
@[simp] theorem State.setBlocks_phase : (s.setBlocks).phase = .split := rfl
@[simp] theorem State.setBlocks_ri : (s.setBlocks).ri = s.ri := rfl
@[simp] theorem State.setBlocks_wi : (s.setBlocks).wi = s.wi := rfl
@[simp] theorem State.setBlocks_work :
    (s.setBlocks).work =
      { s.work with startBlock := blockOf s.params s.work.shift s.work.curStart, endBlock := blockOf s.params s.work.shift s.work.curEnd } := rfl
@[simp] theorem State.setBlocks_abortCode : (s.setBlocks).abortCode = s.abortCode := rfl
@[simp] theorem State.setBlocks_abortRi : (s.setBlocks).abortRi = s.abortRi := rfl
@[simp] theorem State.setBlocks_trace : (s.setBlocks).trace = s.trace := rfl
@[simp] theorem State.setBlocks_inputs : (s.setBlocks).inputs = s.inputs := rfl
@[simp] theorem State.setBlocks_grain : (s.setBlocks).grain = s.grain := rfl

/-! ### setMask -/

@[simp] theorem State.setMask_cfg (m : Word) : (s.setMask m).cfg = s.cfg := rfl
@[simp] theorem State.setMask_regions (m : Word) : (s.setMask m).regions = s.regions := rfl
@[simp] theorem State.setMask_mem (m : Word) : (s.setMask m).mem = s.mem := rfl
@[simp] theorem State.setMask_phase (m : Word) : (s.setMask m).phase = s.phase := rfl
@[simp] theorem State.setMask_ri (m : Word) : (s.setMask m).ri = s.ri := rfl
@[simp] theorem State.setMask_wi (m : Word) : (s.setMask m).wi = s.wi := rfl
@[simp] theorem State.setMask_work (m : Word) : (s.setMask m).work = { s.work with mask := m } := rfl
@[simp] theorem State.setMask_abortCode (m : Word) : (s.setMask m).abortCode = s.abortCode := rfl
@[simp] theorem State.setMask_abortRi (m : Word) : (s.setMask m).abortRi = s.abortRi := rfl
@[simp] theorem State.setMask_trace (m : Word) : (s.setMask m).trace = s.trace := rfl
@[simp] theorem State.setMask_inputs (m : Word) : (s.setMask m).inputs = s.inputs := rfl
@[simp] theorem State.setMask_grain (m : Word) : (s.setMask m).grain = s.grain := rfl

end Sys2Proof.Machine
end

