-- ==== Sys2Proof/Laws/Ops.lean ====
section
/-! SUPPORT. One lemma per shared operation that says everything it can do, for proofs to cite instead of unfolding it;
and the register space as LUT words. -/

namespace Sys2Proof.Machine

/-! ### Sequencing -/

@[simp] theorem andThen_next (s : State) (f : State → Result) : andThen (.next s) f = f s := rfl
@[simp] theorem andThen_refused (r : Refusal) (f : State → Result) : andThen (.refused r) f = .refused r := rfl

/-- A sequence answers a next state exactly when both parts do. -/
theorem andThen_eq_next {o : Result} {f : State → Result} {t : State} :
    andThen o f = .next t ↔ ∃ s, o = .next s ∧ f s = .next t := by
  cases o <;> simp [andThen]

/-- A sequence is refused when the first part is, or the second after it. -/
theorem andThen_eq_refused {o : Result} {f : State → Result} {r : Refusal} :
    andThen o f = .refused r ↔ o = .refused r ∨ ∃ s, o = .next s ∧ f s = .refused r := by
  cases o <;> simp [andThen]

/-! ### The bus -/

@[simp] theorem busRead_fst (a : Word) (s : State) : (busRead a s).1 = s.regAt a := rfl
@[simp] theorem busRead_snd (a : Word) (s : State) :
    (busRead a s).2 = s.log { kind := .rd, addr := a, data := s.regAt a } := rfl

/-- A CFG register reads as its constant (10_state.md R18). -/
theorem State.regAt_cfgAddr {s : State} (h : s.cfg.wf) (t : MemType) :
    s.regAt (s.cfg.of t).cfgAddr = (s.cfg.of t).cfgValue := by
  cases t
  · simp [State.regAt, Config.of]
  · simp [State.regAt, Config.of, Ne.symm (Config.wf_iff.1 h).2.2.1]

/-- Where a LUT word stands in the register space. -/
theorem lutAddr_bounds {c : Config} (h : c.wf) {t : MemType} {w : Word} (hw : w.toNat < (c.of t).nLutWords) :
    (lutAddr (c.of t) w).toNat = (c.of t).lutBase.toNat + 4 * w.toNat ∧
    (c.of t).lutBase.toNat + 4 * w.toNat + 4 ≤ (c.of t).lutEnd := by
  have := (Config.of_wf h t).2.2.2.2.2.1
  exact ⟨lutAddr_toNat this hw, by unfold TypeParams.lutEnd; omega⟩

/-- A LUT address is no CFG address (00_scope.md R6). -/
theorem lutAddr_ne_cfgAddr {c : Config} (h : c.wf) {t : MemType} {w : Word} (hw : w.toNat < (c.of t).nLutWords)
    (t' : MemType) : lutAddr (c.of t) w ≠ (c.of t').cfgAddr := by
  obtain ⟨ha, hb⟩ := lutAddr_bounds h hw
  obtain ⟨-, -, -, h1, h2, h3, h4, -⟩ := Config.wf_iff.1 h
  intro he
  have hin : (c.of t).inLut ((c.of t').cfgAddr).toNat := by rw [← he]; constructor <;> omega
  cases t <;> cases t' <;> simp only [Config.of] at * <;> contradiction

/-- A LUT register reads as the LUT word (20_memory.md R44). -/
theorem State.regAt_lutAddr {s : State} (h : s.cfg.wf) {t : MemType} {w : Word} (hw : w.toNat < (s.cfg.of t).nLutWords) :
    s.regAt (lutAddr (s.cfg.of t) w) = s.lutWord t w := by
  have h1 : _ ≠ s.cfg.itcm.cfgAddr := lutAddr_ne_cfgAddr h hw .itcm
  have h2 : _ ≠ s.cfg.dtcm.cfgAddr := lutAddr_ne_cfgAddr h hw .dtcm
  rw [State.regAt, if_neg h1, if_neg h2]; rfl

/-- Two different LUT words do not overlap (00_scope.md R6). -/
theorem lutAddr_apart {c : Config} (h : c.wf) {t t' : MemType} {w w' : Word} (hw : w.toNat < (c.of t).nLutWords)
    (hw' : w'.toNat < (c.of t').nLutWords) (hne : ¬ (t = t' ∧ w = w')) :
    (lutAddr (c.of t') w').toNat + 4 ≤ (lutAddr (c.of t) w).toNat ∨
    (lutAddr (c.of t) w).toNat + 4 ≤ (lutAddr (c.of t') w').toNat := by
  obtain ⟨ha, hb⟩ := lutAddr_bounds h hw
  obtain ⟨ha', hb'⟩ := lutAddr_bounds h hw'
  have hd := (Config.wf_iff.1 h).2.2.2.2.2.2.2
  by_cases ht : t = t'
  · subst ht
    have : w.toNat ≠ w'.toNat := fun hc => hne ⟨rfl, BitVec.eq_of_toNat_eq hc⟩
    omega
  · cases t <;> cases t' <;> simp only [Config.of, reduceCtorEq, not_true_eq_false, not_false_eq_true] at * <;> omega

/-- The state after a write of LUT word `(t, w)`: that word is the value, every other LUT word is kept. -/
theorem lutWord_busWrite {s : State} (h : s.cfg.wf) (hm : s.mem.wf) {t : MemType} {w : Word} (v : Word)
    (hw : w.toNat < (s.cfg.of t).nLutWords) {t' : MemType} {w' : Word} (hw' : w'.toNat < (s.cfg.of t').nLutWords) :
    (busWrite (lutAddr (s.cfg.of t) w) v s).lutWord t' w' = if t = t' ∧ w = w' then v else s.lutWord t' w' := by
  show ((s.mem.writeWord _ v).readWord _ : Word) = _
  split
  · rename_i he
    obtain ⟨rfl, rfl⟩ := he
    exact Memory.readWord_writeWord_self hm _ _
  · exact Memory.readWord_writeWord_ne (lutAddr_apart h hw hw' ‹_›) _

/-! ### The write primitives -/

/-- The state ORMERGE leaves (43_lut_programmer.md R80). -/
def State.afterOrMerge (s : State) (t : MemType) (w m : Word) : State :=
  { s with
    mem := s.mem.writeWord (lutAddr (s.cfg.of t) w).toNat (s.lutWord t w ||| m)
    work := { s.work with rdata := s.lutWord t w }
    trace := s.trace ++
      [{ kind := .rd, addr := lutAddr (s.cfg.of t) w, data := s.lutWord t w },
       { kind := .wr, addr := lutAddr (s.cfg.of t) w, data := s.lutWord t w ||| m }] }

/-- The state a plain write of a LUT word leaves (43_lut_programmer.md R81, R92). -/
def State.afterAssign (s : State) (t : MemType) (w v : Word) : State :=
  { s with
    mem := s.mem.writeWord (lutAddr (s.cfg.of t) w).toNat v
    trace := s.trace ++ [{ kind := .wr, addr := lutAddr (s.cfg.of t) w, data := v }] }

section

variable (s : State) (t : MemType) (w m : Word)

@[simp] theorem State.afterOrMerge_cfg : (s.afterOrMerge t w m).cfg = s.cfg := rfl
@[simp] theorem State.afterOrMerge_regions : (s.afterOrMerge t w m).regions = s.regions := rfl
@[simp] theorem State.afterOrMerge_mem :
    (s.afterOrMerge t w m).mem = s.mem.writeWord (lutAddr (s.cfg.of t) w).toNat (s.lutWord t w ||| m) := rfl
@[simp] theorem State.afterOrMerge_phase : (s.afterOrMerge t w m).phase = s.phase := rfl
@[simp] theorem State.afterOrMerge_ri : (s.afterOrMerge t w m).ri = s.ri := rfl
@[simp] theorem State.afterOrMerge_wi : (s.afterOrMerge t w m).wi = s.wi := rfl
@[simp] theorem State.afterOrMerge_work : (s.afterOrMerge t w m).work = { s.work with rdata := s.lutWord t w } := rfl
@[simp] theorem State.afterOrMerge_abortCode : (s.afterOrMerge t w m).abortCode = s.abortCode := rfl
@[simp] theorem State.afterOrMerge_abortRi : (s.afterOrMerge t w m).abortRi = s.abortRi := rfl
@[simp] theorem State.afterOrMerge_inputs : (s.afterOrMerge t w m).inputs = s.inputs := rfl
@[simp] theorem State.afterOrMerge_grain : (s.afterOrMerge t w m).grain = s.grain := rfl
@[simp] theorem State.afterAssign_cfg : (s.afterAssign t w m).cfg = s.cfg := rfl
@[simp] theorem State.afterAssign_regions : (s.afterAssign t w m).regions = s.regions := rfl
@[simp] theorem State.afterAssign_mem :
    (s.afterAssign t w m).mem = s.mem.writeWord (lutAddr (s.cfg.of t) w).toNat m := rfl
@[simp] theorem State.afterAssign_phase : (s.afterAssign t w m).phase = s.phase := rfl
@[simp] theorem State.afterAssign_ri : (s.afterAssign t w m).ri = s.ri := rfl
@[simp] theorem State.afterAssign_wi : (s.afterAssign t w m).wi = s.wi := rfl
@[simp] theorem State.afterAssign_work : (s.afterAssign t w m).work = s.work := rfl
@[simp] theorem State.afterAssign_abortCode : (s.afterAssign t w m).abortCode = s.abortCode := rfl
@[simp] theorem State.afterAssign_abortRi : (s.afterAssign t w m).abortRi = s.abortRi := rfl
@[simp] theorem State.afterAssign_inputs : (s.afterAssign t w m).inputs = s.inputs := rfl
@[simp] theorem State.afterAssign_grain : (s.afterAssign t w m).grain = s.grain := rfl

end

/-- The LUT words after an OR-merge: the merged one, and every other as it was. -/
theorem lutWord_afterOrMerge {s : State} (h : s.cfg.wf) (hm : s.mem.wf) {t : MemType} {w : Word} (m : Word)
    (hw : w.toNat < (s.cfg.of t).nLutWords) {t' : MemType} {w' : Word} (hw' : w'.toNat < (s.cfg.of t').nLutWords) :
    (s.afterOrMerge t w m).lutWord t' w' = if t = t' ∧ w = w' then s.lutWord t w ||| m else s.lutWord t' w' :=
  lutWord_busWrite h hm (s.lutWord t w ||| m) hw hw'

/-- The LUT words after a plain write: the written one, and every other as it was. -/
theorem lutWord_afterAssign {s : State} (h : s.cfg.wf) (hm : s.mem.wf) {t : MemType} {w : Word} (v : Word)
    (hw : w.toNat < (s.cfg.of t).nLutWords) {t' : MemType} {w' : Word} (hw' : w'.toNat < (s.cfg.of t').nLutWords) :
    (s.afterAssign t w v).lutWord t' w' = if t = t' ∧ w = w' then v else s.lutWord t' w' :=
  lutWord_busWrite h hm v hw hw'

/-- ORMERGE answers for every index that names a register. -/
theorem orMerge_of_lt {t : MemType} {w m : Word} {s : State} (h : s.cfg.wf) (hw : w.toNat < (s.cfg.of t).nLutWords) :
    orMerge t w m s = .next (s.afterOrMerge t w m) := by
  simp only [orMerge, hw, if_true, busRead, State.regAt_lutAddr h hw]
  simp [busWrite, State.setWork, State.log, State.setMem, State.afterOrMerge]

/-- Everything ORMERGE does when it answers (43_lut_programmer.md R80). -/
theorem orMerge_eq_next {t : MemType} {w m : Word} {s s' : State} (h : s.cfg.wf) :
    orMerge t w m s = .next s' ↔ w.toNat < (s.cfg.of t).nLutWords ∧ s' = s.afterOrMerge t w m := by
  by_cases hw : w.toNat < (s.cfg.of t).nLutWords
  · simp [orMerge_of_lt h hw, hw, @eq_comm _ s']
  · simp [orMerge, hw]

/-- ORMERGE is refused exactly for an index that names no register (20_memory.md R47). -/
theorem orMerge_eq_refused {t : MemType} {w m : Word} {s : State} {r : Refusal} :
    orMerge t w m s = .refused r ↔ (s.cfg.of t).nLutWords ≤ w.toNat ∧ r = .lutIndexOutOfRange := by
  unfold orMerge
  by_cases hw : w.toNat < (s.cfg.of t).nLutWords
  · simp [hw]
  · simp [hw, Nat.le_of_not_lt hw, eq_comm]

/-- A plain write answers for every index that names a register. -/
theorem assign_of_lt {t : MemType} {w v : Word} {s : State} (hw : w.toNat < (s.cfg.of t).nLutWords) :
    assign t w v s = .next (s.afterAssign t w v) := by
  simp only [assign, hw, if_true]; rfl

/-- Everything a plain write of a LUT word does when it answers (43_lut_programmer.md R81, R92). -/
theorem assign_eq_next {t : MemType} {w v : Word} {s s' : State} :
    assign t w v s = .next s' ↔ w.toNat < (s.cfg.of t).nLutWords ∧ s' = s.afterAssign t w v := by
  by_cases hw : w.toNat < (s.cfg.of t).nLutWords
  · simp [assign_of_lt hw, hw, @eq_comm _ s']
  · simp [assign, hw]

/-- A plain write is refused exactly for an index that names no register (20_memory.md R47). -/
theorem assign_eq_refused {t : MemType} {w v : Word} {s : State} {r : Refusal} :
    assign t w v s = .refused r ↔ (s.cfg.of t).nLutWords ≤ w.toNat ∧ r = .lutIndexOutOfRange := by
  unfold assign
  by_cases hw : w.toNat < (s.cfg.of t).nLutWords
  · simp [hw]
  · simp [hw, Nat.le_of_not_lt hw, eq_comm]

/-! ### The walk -/

/-- Everything taking up a region does when it answers (44_orchestrator.md R96 to R98). -/
theorem enterRegion_eq_next {n : Nat} {s t : State} :
    enterRegion n s = .next t ↔
      (s.regions.length ≤ n ∧ t = { s with ri := n, phase := .done }) ∨
      ∃ d r, s.regions[n]? = some d ∧ decodeRegion d = .ok r ∧ t = (s.setRi n).loadRegion r := by
  unfold enterRegion
  cases hd : s.regions[n]? with
  | none =>
    have hl : s.regions.length ≤ n := List.getElem?_eq_none_iff.1 hd
    simp only [hl, true_and, Host.Outcome.next.injEq, reduceCtorEq, false_and, exists_false, or_false]
    rw [eq_comm]; rfl
  | some d =>
    have hl : ¬ s.regions.length ≤ n := by
      intro hc; rw [List.getElem?_eq_none hc] at hd; simp at hd
    cases hr : decodeRegion d with
    | ok r => simp [hl, hr, eq_comm]
    | error e => simp [hl, hr]

/-- Taking up a region is refused exactly for a descriptor with reserved bits set (30_encoding.md R52). -/
theorem enterRegion_eq_refused {n : Nat} {s : State} {r : Refusal} :
    enterRegion n s = .refused r ↔
      r = .reservedBits ∧ ∃ d e, s.regions[n]? = some d ∧ decodeRegion d = .error e := by
  unfold enterRegion
  cases hd : s.regions[n]? with
  | none => simp
  | some d =>
    cases hr : decodeRegion d with
    | ok r' => simp [hr]
    | error e => simp [hr, eq_comm]

/-- The state where region `n` is taken up, in the words of `takenUp`. -/
theorem enterRegion_takenUp {n : Nat} {s t : State} (h : enterRegion n s = .next t) :
    takenUp s n t ∧ keepsPlatform s t ∧ keepsAbort s t ∧ t.mem = s.mem ∧ t.trace = s.trace ∧ t.wi = s.wi := by
  rcases enterRegion_eq_next.1 h with ⟨hl, rfl⟩ | ⟨d, r, hd, hr, rfl⟩
  · refine ⟨⟨rfl, ?_⟩, ⟨rfl, rfl, rfl, rfl⟩, ⟨rfl, rfl⟩, rfl, rfl, rfl⟩
    rw [List.getElem?_eq_none hl]; exact ⟨rfl, rfl⟩
  · refine ⟨⟨rfl, ?_⟩, ⟨rfl, rfl, rfl, rfl⟩, ⟨rfl, rfl⟩, rfl, rfl, rfl⟩
    rw [hd]; exact ⟨rfl, hr⟩

/-- Region `n` is taken up whenever it can be. -/
theorem enterRegion_of_canTakeUp {n : Nat} {s : State} (h : canTakeUp s n) : ∃ t, enterRegion n s = .next t := by
  unfold canTakeUp at h
  unfold enterRegion
  cases hd : s.regions[n]? with
  | none => exact ⟨_, rfl⟩
  | some d =>
    rw [hd] at h
    cases hr : decodeRegion d with
    | ok r => exact ⟨(s.setRi n).loadRegion r, by simp only [hr]⟩
    | error e => simp [hr, Except.toBool] at h

/-- A list that decodes can be taken up anywhere. -/
theorem canTakeUp_of_regionsDecode {s : State} (h : regionsDecode s.regions = true) (n : Nat) : canTakeUp s n := by
  unfold canTakeUp
  cases hd : s.regions[n]? with
  | none => trivial
  | some d => exact List.all_eq_true.1 h d (List.mem_of_getElem? hd)

/-! ### Decoding what a step fetches -/

/-- The bytes of a stored descriptor decode to the instruction of its Region. -/
@[simp] theorem decode_toBytes (d : Descriptor) : decode d.toBytes = (decodeRegion d).map Region.toInstr := by
  simp only [Descriptor.toBytes, bytesOfWord, List.cons_append, List.nil_append, decode, wordOfBytes_byteOfWord]

/-- A descriptor is rejected only for its reserved bits. -/
theorem decodeRegion_eq_error {d : Descriptor} {e : DecodeError} :
    decodeRegion d = .error e ↔ d.w2 >>> 1 ≠ 0#32 ∧ e = .reservedBits := by
  unfold decodeRegion
  split <;> simp_all [eq_comm]

/-- The Region of a descriptor without reserved bits. -/
theorem decodeRegion_eq_ok {d : Descriptor} {r : Region} :
    decodeRegion d = .ok r ↔ d.w2 >>> 1 = 0#32 ∧ r = ⟨d.w0, d.w1, memTypeOfCode (d.w2.getLsbD 0)⟩ := by
  unfold decodeRegion
  split <;> simp_all [eq_comm]

end Sys2Proof.Machine
end

