-- ==== Sys2Proof/Laws/Step.lean ====
section
/-! SUPPORT. What a step can do, said once; and runs as sequences of steps. -/

namespace Sys2Proof.Machine

/-- Everything a step does when it answers a next state: reset, RUN on a trigger, the fetched instruction of a busy
block, or nothing. -/
theorem step_eq_next {s t : State} :
    step s = .next t ↔
      s.cfg.wf = true ∧
      ((s.input = .reset ∧ t = s.tick.applyReset) ∨
       (s.input = .start ∧ execRun s.done s.tick = .next t) ∨
       (s.input = .quiet ∧ s.busy = false ∧ t = s.tick) ∨
       (s.input = .quiet ∧ s.busy = true ∧
         ∃ i, decode (fetchBytes s) = .ok i ∧ exec i s.tick = .next t)) := by
  unfold step nextAction
  cases hc : s.cfg.wf
  · simp
  · cases hi : s.input
    · cases hb : s.busy
      · simp only [Bool.false_eq_true, if_false, if_true, Host.Outcome.next.injEq]; simp [@eq_comm _ t]
      · cases hd : decode (fetchBytes s) <;> simp
    · simp [exec]
    · simp [@eq_comm _ t]

/-- Everything that refuses a step. -/
theorem step_eq_refused {s : State} {r : Refusal} :
    step s = .refused r ↔
      (s.cfg.wf = false ∧ r = .badParameters) ∨
      (s.cfg.wf = true ∧
        ((s.input = .start ∧ execRun s.done s.tick = .refused r) ∨
         (s.input = .quiet ∧ s.busy = true ∧ ∃ e, decode (fetchBytes s) = .error e ∧ r = refusalOf e) ∨
         (s.input = .quiet ∧ s.busy = true ∧
           ∃ i, decode (fetchBytes s) = .ok i ∧ exec i s.tick = .refused r))) := by
  unfold step nextAction
  cases hc : s.cfg.wf
  · simp [@eq_comm _ r]
  · cases hi : s.input
    · cases hb : s.busy
      · simp
      · cases hd : decode (fetchBytes s) <;> simp [@eq_comm _ r]
    · simp [exec]
    · simp

/-- A run of `m + n` steps is a run of `m` and then of `n`. -/
theorem runSteps_add (m n : Nat) (s : State) : runSteps (m + n) s = andThen (runSteps m s) (runSteps n) := by
  induction m generalizing s with
  | zero => rw [Nat.zero_add]; rfl
  | succ m ih =>
    rw [Nat.succ_add]
    show andThen (step s) (runSteps (m + n)) = andThen (andThen (step s) (runSteps m)) (runSteps n)
    cases step s <;> simp [andThen, ih]

/-- One more step of any core. -/
theorem host_run_succ (M : Host.Core) (n : Nat) (s s' : M.State) (h : M.step s = .next s') :
    M.run (n + 1) s = M.run n s' := by
  rw [Host.Core.run, h]

theorem host_run_refused (M : Host.Core) (n : Nat) (s : M.State) (r : M.Refusal) (h : M.step s = .refused r) :
    M.run (n + 1) s = .refused r := by
  rw [Host.Core.run, h]

/-- The host's run of the core is this run. -/
theorem core_run_eq (n : Nat) (s : State) : (Host.Core.run core n s : Result) = runSteps n s := by
  induction n generalizing s with
  | zero => rfl
  | succ n ih =>
    unfold runSteps
    cases h : step s with
    | next s' => exact (host_run_succ core n s s' h).trans (ih s')
    | refused r => exact host_run_refused core n s r h
    | fault f => cases f

end Sys2Proof.Machine
end

