-- ==== Sys2Proof/Laws/Meanings.lean ====
section
/-! SUPPORT. Inversion of the meanings: what each can do when it answers a next state, said once, so that proofs about
all of them need not unfold any. -/

namespace Sys2Proof.Machine

variable {s t : State}

/-- No failed check is: in the window, in order, aligned (60_exceptions.md R109). -/
theorem failedCheck_eq_none {p : TypeParams} {a b bs : Word} :
    failedCheck p a b bs = none ↔
      inWindow p a b = true ∧ (a - p.base) % bs = 0#32 ∧ (b + 1#32 - p.base) % bs = 0#32 := by
  unfold failedCheck
  rw [inWindow_iff]
  simp only [gt_iff_lt, BitVec.lt_def]
  split
  · simp; omega
  · split
    · simp; omega
    · split
      · rename_i h; simp; intro _ _ _ h1 h2; simp_all
      · rename_i h; simp only [not_or, not_not] at h; exact ⟨fun _ => ⟨by omega, h⟩, fun _ => rfl⟩

/-- TRANSLATE aborts with the code of a failed check, or computes the block range of an admitted region. -/
theorem execTranslate_eq_next :
    execTranslate s = .next t ↔
      (s.cfg.checkPreconditions = true ∧ ∃ code,
        failedCheck s.params s.work.curStart s.work.curEnd s.work.blocksize = some code ∧ t = s.raiseAbort code) ∨
      ((s.cfg.checkPreconditions = true →
          failedCheck s.params s.work.curStart s.work.curEnd s.work.blocksize = none) ∧
        inWindow s.params s.work.curStart s.work.curEnd = true ∧ t = s.setBlocks) := by
  unfold execTranslate
  cases hc : s.cfg.checkPreconditions
  · cases hw : inWindow s.params s.work.curStart s.work.curEnd <;> simp [@eq_comm _ t]
  · cases hf : failedCheck s.params s.work.curStart s.work.curEnd s.work.blocksize with
    | some code => simp [@eq_comm _ t]
    | none => simp [@eq_comm _ t, (failedCheck_eq_none.1 hf).1]

/-- TRANSLATE is refused exactly for an ill-formed region without the optional check. -/
theorem execTranslate_eq_refused {r : Refusal} :
    execTranslate s = .refused r ↔
      s.cfg.checkPreconditions = false ∧ inWindow s.params s.work.curStart s.work.curEnd = false ∧ r = .illFormedRegion := by
  unfold execTranslate
  cases hc : s.cfg.checkPreconditions
  · cases hw : inWindow s.params s.work.curStart s.work.curEnd <;> simp [@eq_comm _ r]
  · cases hf : failedCheck s.params s.work.curStart s.work.curEnd s.work.blocksize <;> simp

/-- The condition SPLIT refuses first is that the blocks are out of order. -/
theorem split_order_iff (a b : Word) :
    (lutIndex a > lutIndex b ∨ (lutIndex a = lutIndex b ∧ lutOffset a > lutOffset b)) ↔ b.toNat < a.toNat := by
  rw [gt_iff_lt, gt_iff_lt, BitVec.lt_def, BitVec.lt_def, lutIndex_toNat, lutIndex_toNat, lutOffset_toNat, lutOffset_toNat,
    ← BitVec.toNat_inj, lutIndex_toNat, lutIndex_toNat]
  omega

/-- The state SPLIT leaves. -/
def State.afterSplit (s : State) : State :=
  (s.setWork { s.work with
    startLut := lutIndex s.work.startBlock
    endLut := lutIndex s.work.endBlock
    startOffset := lutOffset s.work.startBlock
    endOffset := lutOffset s.work.endBlock }).toPhase
    (if lutIndex s.work.startBlock = lutIndex s.work.endBlock then .single else .first)

/-- SPLIT answers for blocks in order that fit the LUT. -/
theorem execSplit_eq_next :
    execSplit s = .next t ↔
      s.work.startBlock.toNat ≤ s.work.endBlock.toNat ∧ s.work.endBlock.toNat / 32 < s.params.nLutWords ∧
      t = s.afterSplit := by
  unfold execSplit
  simp only [split_order_iff, lutIndex_toNat, ge_iff_le]
  by_cases h1 : s.work.endBlock.toNat < s.work.startBlock.toNat
  · simp [h1, Nat.not_le.2 h1]
  · by_cases h2 : s.params.nLutWords ≤ s.work.endBlock.toNat / 32
    · simp [h1, h2, Nat.not_lt.2 h2]
    · simp only [h1, h2, if_false, Nat.le_of_not_lt h1, Nat.lt_of_not_le h2, true_and, Host.Outcome.next.injEq,
        @eq_comm _ t]
      rfl

theorem execSplit_eq_refused {r : Refusal} :
    execSplit s = .refused r ↔
      (r = .emptyCase ∧ s.work.endBlock.toNat < s.work.startBlock.toNat) ∨
      (r = .lutIndexOutOfRange ∧ s.work.startBlock.toNat ≤ s.work.endBlock.toNat ∧
        s.params.nLutWords ≤ s.work.endBlock.toNat / 32) := by
  unfold execSplit
  simp only [split_order_iff, lutIndex_toNat, ge_iff_le]
  by_cases h1 : s.work.endBlock.toNat < s.work.startBlock.toNat
  · simp [h1, Nat.not_le.2 h1, @eq_comm _ r]
  · by_cases h2 : s.params.nLutWords ≤ s.work.endBlock.toNat / 32
    · simp [h1, h2, Nat.le_of_not_lt h1, @eq_comm _ r]
    · simp [h1, h2]

/-- The state in which SINGLE takes up the next region. -/
def State.merged (s : State) (w m : Word) : State :=
  (s.setMask m).afterOrMerge s.work.curType w m

/-- SINGLE is an OR-merge of its range and the next region. -/
theorem execSingle_eq_next (h : s.cfg.wf) :
    execSingle s = .next t ↔
      s.work.startOffset ≤ s.work.endOffset ∧ s.work.startLut.toNat < s.params.nLutWords ∧
      nextRegion (s.merged s.work.startLut (setBitRange s.work.startOffset s.work.endOffset)) = .next t := by
  unfold execSingle
  by_cases hle : s.work.startOffset ≤ s.work.endOffset
  · simp only [hle, if_true, true_and]
    by_cases hw : s.work.startLut.toNat < s.params.nLutWords
    · simp only [hw, true_and]
      rw [orMerge_of_lt (s := s.setMask (setBitRange s.work.startOffset s.work.endOffset)) h hw]; rfl
    · simp only [hw, false_and, iff_false]
      rw [(orMerge_eq_refused (s := s.setMask (setBitRange s.work.startOffset s.work.endOffset))).2 ⟨Nat.le_of_not_lt hw, rfl⟩]; simp
  · simp [hle]

/-- LAST is an OR-merge of its range and the next region. -/
theorem execLast_eq_next (h : s.cfg.wf) :
    execLast s = .next t ↔
      s.work.endLut.toNat < s.params.nLutWords ∧
      nextRegion (s.merged s.work.endLut (setBitRange 0 s.work.endOffset)) = .next t := by
  unfold execLast
  by_cases hw : s.work.endLut.toNat < s.params.nLutWords
  · simp only [hw, true_and]
    rw [orMerge_of_lt (s := s.setMask (setBitRange 0 s.work.endOffset)) h hw]; rfl
  · simp only [hw, false_and, iff_false]
    rw [(orMerge_eq_refused (s := s.setMask (setBitRange 0 s.work.endOffset))).2 ⟨Nat.le_of_not_lt hw, rfl⟩]; simp

/-- The state FIRST moves on from: OR-merged under the required policy, assigned under the legacy one. -/
def State.firstWritten (s : State) : State :=
  match s.cfg.mergePolicy with
  | .uniformOr => s.merged s.work.startLut (setBitRange s.work.startOffset 31)
  | .legacyAssign =>
    (s.setMask (setBitRange s.work.startOffset 31)).afterAssign s.work.curType s.work.startLut
      (setBitRange s.work.startOffset 31)

/-- FIRST writes its word and moves on. -/
theorem execFirst_eq_next (h : s.cfg.wf) :
    execFirst s = .next t ↔ s.work.startLut.toNat < s.params.nLutWords ∧ t = afterFirst s.firstWritten := by
  unfold execFirst State.firstWritten
  by_cases hw : s.work.startLut.toNat < s.params.nLutWords
  · cases s.cfg.mergePolicy
    · simp only [hw, true_and]
      rw [orMerge_of_lt (s := s.setMask (setBitRange s.work.startOffset 31)) h hw, andThen_next, Host.Outcome.next.injEq, @eq_comm _ t]; rfl
    · simp only [hw, true_and]
      rw [assign_of_lt (s := s.setMask (setBitRange s.work.startOffset 31)) hw, andThen_next, Host.Outcome.next.injEq, @eq_comm _ t]
  · simp only [hw, false_and, iff_false]
    cases s.cfg.mergePolicy
    · simp only []; rw [(orMerge_eq_refused (s := s.setMask (setBitRange s.work.startOffset 31))).2 ⟨Nat.le_of_not_lt hw, rfl⟩]; simp
    · simp only []; rw [(assign_eq_refused (s := s.setMask (setBitRange s.work.startOffset 31))).2 ⟨Nat.le_of_not_lt hw, rfl⟩]; simp

/-- MID fills its word and moves on. -/
theorem execMid_eq_next :
    execMid s = .next t ↔
      s.wi.toNat < s.params.nLutWords ∧ t = afterMid (s.afterAssign s.work.curType s.wi allOnes) := by
  unfold execMid fill
  by_cases hw : s.wi.toNat < s.params.nLutWords
  · simp only [hw, true_and]
    rw [assign_of_lt hw, andThen_next, Host.Outcome.next.injEq, @eq_comm _ t]
  · simp only [hw, false_and, iff_false]
    rw [assign_eq_refused.2 ⟨Nat.le_of_not_lt hw, rfl⟩]; simp

/-- RUN takes up the first region in IDLE and DONE, and does nothing in ABORT. -/
theorem execRun_eq_next {b : Bool} :
    execRun b s = .next t ↔
      ((s.phase = .idle ∨ s.phase = .done) ∧ regionsDecode s.regions = true ∧ enterRegion 0 s = .next t) ∨
      (s.phase = .abort ∧ t = s) := by
  unfold execRun
  cases hp : s.phase <;> cases hd : regionsDecode s.regions <;> simp [@eq_comm _ t]

/-- The state RESOLVE leaves. -/
def State.afterResolve (s : State) : State :=
  ((s.log { kind := .rd, addr := s.params.cfgAddr, data := s.params.cfgValue }).setWork
    { s.work with shift := shiftOf s.params, blocksize := blocksizeOf s.params }).toPhase .translate

/-- RESOLVE always answers. -/
theorem execResolve_next (h : s.cfg.wf) : execResolve s = .next s.afterResolve := by
  have hr : s.regAt s.params.cfgAddr = s.params.cfgValue := State.regAt_cfgAddr h s.work.curType
  simp only [execResolve, busRead, hr, State.afterResolve, shiftOf, blocksizeOf]
  rfl

/-- A phase code decodes to the operation of its phase; nothing else is fetched with one phase a step. -/
theorem decode_phase_of_busy {i : Instr} (hb : s.busy = true) (h : decode [s.phase.code.setWidth 8] = .ok i) :
    (s.phase = .resolve ∧ i = .resolve) ∨ (s.phase = .translate ∧ i = .translate) ∨ (s.phase = .split ∧ i = .split) ∨
    (s.phase = .single ∧ i = .single) ∨ (s.phase = .first ∧ i = .first) ∨ (s.phase = .mid ∧ i = .mid) ∨
    (s.phase = .last ∧ i = .last) := by
  unfold State.busy at hb
  cases hp : s.phase <;> rw [hp] at h hb <;> simp [Phase.isBusy] at hb <;> (injection h with h; simp [← h])

/-- What a step fetches: the phase code, or with grain `region` at the start of a region its descriptor. -/
theorem fetchBytes_cases (s : State) :
    fetchBytes s = [s.phase.code.setWidth 8] ∨
    (s.grain = .region ∧ s.phase = .resolve ∧ ∃ d, s.regions[s.ri]? = some d ∧ fetchBytes s = d.toBytes) := by
  cases hg : s.grain
  · exact .inl (by simp [fetchBytes, hg])
  · cases hp : s.phase
    case resolve =>
      cases hd : s.regions[s.ri]? with
      | none => exact .inl (by simp [fetchBytes, hg, hp, hd])
      | some d => exact .inr ⟨rfl, rfl, d, rfl, by simp [fetchBytes, hg, hp, hd]⟩
    all_goals exact .inl (by simp [fetchBytes, hg, hp])

/-! ### One induction for everything the instructions do -/

/-- A relation between the states before and after that every operation keeps. -/
structure OpRel (P : State → State → Prop) : Prop where
  refl : ∀ a, P a a
  trans : ∀ a b c, P a b → P b c → P a c
  load : ∀ a r, P a (a.loadRegion r)
  enter : ∀ n a b, enterRegion n a = .next b → P a b
  resolve : ∀ a b, execResolve a = .next b → P a b
  translate : ∀ a b, execTranslate a = .next b → P a b
  split : ∀ a b, execSplit a = .next b → P a b
  single : ∀ a b, execSingle a = .next b → P a b
  first : ∀ a b, execFirst a = .next b → P a b
  mid : ∀ a b, execMid a = .next b → P a b
  last : ∀ a b, execLast a = .next b → P a b

variable {P : State → State → Prop}

theorem OpRel.mids (hP : OpRel P) (n : Nat) {s t : State} (h : midSteps n s = .next t) : P s t := by
  induction n generalizing s with
  | zero => rw [midSteps, Host.Outcome.next.injEq] at h; exact h ▸ hP.refl _
  | succ n ih =>
    obtain ⟨a, h1, h2⟩ := andThen_eq_next.1 h
    exact hP.trans _ _ _ (hP.mid _ _ h1) (ih h2)

theorem OpRel.program (hP : OpRel P) {s t : State} (h : program s = .next t) : P s t := by
  obtain ⟨a, h1, h2⟩ := andThen_eq_next.1 h
  refine hP.trans _ _ _ (hP.split _ _ h1) ?_
  split at h2
  · exact hP.single _ _ h2
  · obtain ⟨b, h3, h4⟩ := andThen_eq_next.1 h2
    obtain ⟨c, h5, h6⟩ := andThen_eq_next.1 h4
    exact hP.trans _ _ _ (hP.first _ _ h3) (hP.trans _ _ _ (hP.mids _ h5) (hP.last _ _ h6))

theorem OpRel.region (hP : OpRel P) {r : Region} {s t : State} (h : execRegion r s = .next t) : P s t := by
  obtain ⟨a, h1, h2⟩ := andThen_eq_next.1 h
  obtain ⟨b, h3, h4⟩ := andThen_eq_next.1 h2
  refine hP.trans _ _ _ (hP.load _ r) (hP.trans _ _ _ (hP.resolve _ _ h1) (hP.trans _ _ _ (hP.translate _ _ h3) ?_))
  split at h4
  · rw [Host.Outcome.next.injEq] at h4; exact h4 ▸ hP.refl _
  · exact hP.program h4

/-- What every operation keeps, every instruction keeps. -/
theorem OpRel.exec (hP : OpRel P) (i : Instr) {s t : State} (h : exec i s = .next t) : P s t := by
  cases i with
  | nsrItcm _ _ => exact hP.region h
  | nsrDtcm _ _ => exact hP.region h
  | run b =>
    rcases (execRun_eq_next (b := b)).1 h with ⟨-, -, h⟩ | ⟨-, rfl⟩
    · exact hP.enter _ _ _ h
    · exact hP.refl _
  | resolve => exact hP.resolve _ _ h
  | translate => exact hP.translate _ _ h
  | split => exact hP.split _ _ h
  | single => exact hP.single _ _ h
  | first => exact hP.first _ _ h
  | mid => exact hP.mid _ _ h
  | last => exact hP.last _ _ h

/-- What every operation keeps, every step keeps, but for the input list it takes from and for reset. -/
theorem OpRel.step (hP : OpRel P) {s t : State} (h : step s = .next t) :
    (s.input = .reset ∧ t = s.tick.applyReset) ∨ P s.tick t := by
  obtain ⟨-, ⟨hi, rfl⟩ | ⟨-, h⟩ | ⟨-, -, rfl⟩ | ⟨-, -, i, -, h⟩⟩ := step_eq_next.1 h
  · exact .inl ⟨hi, rfl⟩
  · exact .inr (hP.exec (.run s.done) h)
  · exact .inr (hP.refl _)
  · exact .inr (hP.exec i h)

end Sys2Proof.Machine
end

