-- ==== Sys2Proof/Laws/Runs.lean ====
section
/-! SUPPORT. Laws of runs: one induction for what every step keeps, replay and reads of joined traces, region lists taken
apart, and the premises of 70_reset_and_hazards.md R133 as relations that compose. -/

namespace Sys2Proof.Machine

/-- What is reflexive and transitive and holds of every step holds of every run. -/
theorem runSteps_induction {P : State → State → Prop} (hr : ∀ a, P a a) (ht : ∀ a b c, P a b → P b c → P a c)
    (hs : ∀ a b, step a = .next b → P a b) (n : Nat) {s t : State} (h : runSteps n s = .next t) : P s t := by
  induction n generalizing s with
  | zero => rw [runSteps, Host.Outcome.next.injEq] at h; exact h ▸ hr _
  | succ n ih =>
    obtain ⟨u, hu, hn⟩ := andThen_eq_next.1 h
    exact ht _ _ _ (hs _ _ hu) (ih hn)

/-- A run that answers has a next step at each of its earlier states. -/
theorem step_of_runSteps {k n : Nat} {s t u : State} (h : runSteps n s = .next t) (hk : k < n)
    (hu : runSteps k s = .next u) : ∃ v, step u = .next v := by
  obtain ⟨m, rfl⟩ := Nat.exists_eq_add_of_lt hk
  rw [Nat.add_assoc, runSteps_add, hu, andThen_next] at h
  obtain ⟨v, hv, -⟩ := andThen_eq_next.1 h
  exact ⟨v, hv⟩

theorem replay_append (m : Memory) (es fs : List BusEvent) : replay m (es ++ fs) = replay (replay m es) fs :=
  List.foldl_append

theorem readsTrue_append (c : Config) (m : Memory) (es fs : List BusEvent) :
    readsTrue c m (es ++ fs) ↔ readsTrue c m es ∧ readsTrue c (replay m es) fs := by
  induction es generalizing m with
  | nil => simp [readsTrue, replay]
  | cons e es ih =>
    rw [List.cons_append, readsTrue, readsTrue, ih, and_assoc]
    exact Iff.rfl

/-! ### Region lists -/

/-- A well-formed list none of whose regions the optional check aborts on is a list of regions the block programs. -/
theorem listAccepted_iff {c : Config} {ds : List Descriptor} :
    ListWellFormed c ds ∧ ListAligned c ds ↔ ∀ d ∈ ds, ∃ r, decodeRegion d = .ok r ∧ r.accepted c := by
  constructor
  · rintro ⟨hw, ha⟩ d hd
    obtain ⟨r, hr, h⟩ := hw d hd
    exact ⟨r, hr, h, fun hc => ha hc d hd r hr⟩
  · intro h
    refine ⟨fun d hd => ?_, fun hc d hd r hr => ?_⟩
    · obtain ⟨r, hr, h⟩ := h d hd
      exact ⟨r, hr, h.1⟩
    · obtain ⟨r', hr', h⟩ := h d hd
      obtain rfl : r' = r := Except.ok.inj (hr'.symm.trans hr)
      exact h.2 hc

theorem listWellFormed_append {c : Config} {as bs : List Descriptor} :
    ListWellFormed c (as ++ bs) ↔ ListWellFormed c as ∧ ListWellFormed c bs :=
  List.forall_mem_append

/-- A well-formed list spells Regions, so RUN does not refuse it for reserved bits. -/
theorem ListWellFormed.regionsDecode {c : Config} {ds : List Descriptor} (h : ListWellFormed c ds) :
    regionsDecode ds = true := by
  refine List.all_eq_true.2 fun d hd => ?_
  obtain ⟨r, hr, -⟩ := h d hd
  rw [hr]; rfl

@[simp] theorem listCovers_nil (c : Config) (ty : MemType) (w : Word) (b : Nat) : listCovers c [] ty w b = false := rfl

theorem listCovers_cons {c : Config} {d : Descriptor} {r : Region} (h : decodeRegion d = .ok r) (ds : List Descriptor)
    (ty : MemType) (w : Word) (b : Nat) :
    listCovers c (d :: ds) ty w b = (coversBit c r ty w b || listCovers c ds ty w b) := by
  simp [listCovers, regionOf, h, Except.toOption]

theorem listCovers_append (c : Config) (as bs : List Descriptor) (ty : MemType) (w : Word) (b : Nat) :
    listCovers c (as ++ bs) ty w b = (listCovers c as ty w b || listCovers c bs ty w b) :=
  List.any_append

@[simp] theorem listAccesses_nil (c : Config) : listAccesses c [] = [] := rfl

theorem listAccesses_cons {c : Config} {d : Descriptor} {r : Region} (h : decodeRegion d = .ok r) (ds : List Descriptor) :
    listAccesses c (d :: ds) = regionAccesses c r ++ listAccesses c ds := by
  simp [listAccesses, regionOf, h, Except.toOption]

@[simp] theorem accesses_append (es fs : List BusEvent) : accesses (es ++ fs) = accesses es ++ accesses fs :=
  List.map_append

/-! ### The premises of a run compose -/

theorem InOrderBus.refl (s : State) : InOrderBus s s := ⟨[], by simp, rfl, trivial⟩

/-- Two runs in order make one, if the first keeps the parameters. -/
theorem InOrderBus.trans {s t u : State} (hc : t.cfg = s.cfg) (h : InOrderBus s t) (h' : InOrderBus t u) :
    InOrderBus s u := by
  obtain ⟨es, ht, hm, hr⟩ := h
  obtain ⟨fs, ht', hm', hr'⟩ := h'
  refine ⟨es ++ fs, by rw [ht', ht, List.append_assoc], by rw [hm', hm, replay_append], ?_⟩
  rw [hc, hm] at hr'
  exact (readsTrue_append ..).2 ⟨hr, hr'⟩

theorem CfgConstant.refl (s : State) : CfgConstant s s := ⟨rfl, [], by simp, by simp⟩

theorem CfgConstant.trans {s t u : State} (h : CfgConstant s t) (h' : CfgConstant t u) : CfgConstant s u := by
  obtain ⟨hc, es, ht, he⟩ := h
  obtain ⟨hc', fs, ht', hf⟩ := h'
  refine ⟨hc'.trans hc, es ++ fs, by rw [ht', ht, List.append_assoc], ?_⟩
  rw [hc] at hf
  exact fun e hm => (List.mem_append.1 hm).elim (he e) (hf e)

/-- At power-on the LUT is `LUT_RESET` and the entry is clean (10_state.md R27). -/
theorem powerOn_entry (c : Config) (ds : List Descriptor) (h : Memory.wf c.lutReset) :
    EntryClean (State.powerOn c ds) [] ∧ InitialLut (State.powerOn c ds) c.lutReset :=
  ⟨⟨.inl rfl, rfl⟩, rfl, h⟩

end Sys2Proof.Machine
end

