-- ==== Sys2Proof/Certificates/Slice0/Obligations.lean ====
section
/-! DEFINITION. The statements for the provers, from the numbered rules of spec/. Listed in OBLIGATIONS.json. -/

open Sys2Proof Sys2Proof.Machine

/-! ### Decoding and fetching -/

/-- Words written out from the encodings of the spec decode to what they stand for: R62's example descriptor, an ITCM
descriptor, V56's descriptor with a reserved bit, and phase codes (30_encoding.md R50, R52, R59). -/
def Obligations.DecodeOfWrittenOutWords : Prop :=
  decode [0x00#8, 0x20#8, 0x00#8, 0x20#8, 0xFF#8, 0x6F#8, 0x00#8, 0x20#8, 0x01#8, 0x00#8, 0x00#8, 0x00#8] =
    .ok (.nsrDtcm 0x20002000#32 0x20006FFF#32) ∧
  decode [0x23#8, 0x01#8, 0x00#8, 0x00#8, 0x56#8, 0x04#8, 0x00#8, 0x00#8, 0x00#8, 0x00#8, 0x00#8, 0x00#8] =
    .ok (.nsrItcm 0x00000123#32 0x00000456#32) ∧
  decode [0x00#8, 0x20#8, 0x00#8, 0x20#8, 0xFF#8, 0x6F#8, 0x00#8, 0x20#8, 0x03#8, 0x00#8, 0x00#8, 0x00#8] =
    .error .reservedBits ∧
  decode [0b0000#8] = .ok (.run false) ∧ decode [0b1000#8] = .ok (.run true) ∧
  decode [0b0001#8] = .ok .resolve ∧ decode [0b0110#8] = .ok .mid ∧
  decode [0b1001#8] = .error .noOperation ∧ decode [0b1010#8] = .error .undefinedPhase

/-- Decode and encode agree: every instruction, with every operand at every value, decodes from its encoding
(30_encoding.md R50, R51, R59). -/
def Obligations.DecodeEncodeAgree : Prop :=
  ∀ i : Instr, decode (encode i) = .ok i

/-- The other direction: bytes that decode to an instruction are its encoding, so no two encodings share a meaning. -/
def Obligations.EncodeOfDecoded : Prop :=
  ∀ (bs : List Byte) (i : Instr), decode bs = .ok i → encode i = bs

/-- 30_encoding.md R52: a descriptor with any of bits 95:65 set spells no instruction; the decoder rejects it and the
region list that holds it is refused. That RUN is where the list is refused, in IDLE and in DONE, is the model's
choice (log entry 10). -/
def Obligations.ReservedBitsSpellNothing : Prop :=
  ∀ (d : Descriptor) (j : Nat), 1 ≤ j → j < 32 → d.w2.getLsbD j = true →
    decode d.toBytes = .error .reservedBits ∧
    ∀ (s : State) (b : Bool), d ∈ s.regions → (s.phase = .idle ∨ s.phase = .done) →
      exec (.run b) s = .refused .reservedBits

/-- A step runs the decoded instruction. Without an input a busy block executes what it fetches, with the input list moved
on; with a start trigger it executes RUN, the instruction of the phase code it is accepted in; what it fetches is the
phase code, or at the start of a region with grain `region` the descriptor of that region. Inputs and grain are the
model's choice (log entries 6, 7). -/
def Obligations.StepRunsDecodedInstruction : Prop :=
  ∀ s : State, s.cfg.wf →
    (∀ i, s.input = .quiet → s.busy = true → decode (fetchBytes s) = .ok i → step s = exec i s.tick) ∧
    (s.input = .start → step s = exec (.run s.done) s.tick) ∧
    ((s.phase = .idle ∨ s.phase = .done) → decode (fetchBytes s) = .ok (.run s.done)) ∧
    (s.grain = .phase ∨ s.phase ≠ .resolve → fetchBytes s = [s.phase.code.setWidth 8]) ∧
    (∀ d, s.grain = .region → s.phase = .resolve → s.regions[s.ri]? = some d → fetchBytes s = d.toBytes)

/-! ### RESOLVE -/

/-- R63: RESOLVE reads `CFG[t]` once and derives the block size from the field `CFG_VALUE[t][BLKSZ_LSB + BLKSZ_WIDTH - 1 :
BLKSZ_LSB]`; nothing else changes; any field value gives a power of two from 32 bytes to 2^20 bytes. -/
def Obligations.ResolveReadsBlockSize : Prop :=
  ∀ s : State, s.cfg.wf →
    let p := s.params
    let field := (p.cfgValue.extractLsb' p.blkszLsb p.blkszWidth).toNat
    exec .resolve s = .next { s with
      trace := s.trace ++ [{ kind := .rd, addr := p.cfgAddr, data := p.cfgValue }]
      work := { s.work with shift := BitVec.ofNat 5 (field + 5), blocksize := BitVec.ofNat 32 (2 ^ (field + 5)) }
      phase := .translate } ∧
    (BitVec.ofNat 5 (field + 5)).toNat = field + 5 ∧ (BitVec.ofNat 32 (2 ^ (field + 5))).toNat = 2 ^ (field + 5) ∧
    32 ≤ 2 ^ (field + 5) ∧ field < 2 ^ p.blkszWidth ∧ 2 ^ (field + 5) ≤ 2 ^ 20

/-- 40_blocksize_resolver.md R66, which the spec marks as derived: with the shift and block size RESOLVE gives, dividing
by the block size is shifting right, and the remainder is the low bits. -/
def Obligations.ShiftIsDivision : Prop :=
  ∀ (p : TypeParams) (x : Word), p.wf →
    x / blocksizeOf p = x >>> (shiftOf p).toNat ∧
    (x % blocksizeOf p).toNat = x.toNat % 2 ^ (shiftOf p).toNat ∧ blocksizeOf p ≠ 0#32

/-! ### TRANSLATE -/

/-- R67: TRANSLATE computes the inclusive block range by floor division; no transaction, nothing else changes. The
hypothesis on `blocksize` is what RESOLVE establishes (ResolveReadsBlockSize, StepKeepsInvariant). -/
def Obligations.TranslateComputesBlockRange : Prop :=
  ∀ s : State, s.work.blocksize.toNat = 2 ^ s.work.shift.toNat →
    inWindow s.params s.work.curStart s.work.curEnd →
    (s.cfg.checkPreconditions = true →
      (s.work.curStart - s.params.base) % s.work.blocksize = 0#32 ∧
      (s.work.curEnd + 1#32 - s.params.base) % s.work.blocksize = 0#32) →
    exec .translate s = .next { s with
      work := { s.work with
        startBlock := (s.work.curStart - s.params.base) / s.work.blocksize
        endBlock := (s.work.curEnd - s.params.base) / s.work.blocksize }
      phase := .split }

/-- 41_region_translator.md R72, a decision of the spec (D11, D17; log entry 11): without the option an ill-formed region
is refused by TRANSLATE, with no next state, and that is the only way TRANSLATE stops; with the option it aborts
instead. -/
def Obligations.TranslateRefusesIllFormed : Prop :=
  ∀ s : State,
    (s.cfg.checkPreconditions = false → ∀ r, exec .translate s = .refused r ↔
      r = .illFormedRegion ∧ ¬ inWindow s.params s.work.curStart s.work.curEnd) ∧
    (s.cfg.checkPreconditions = true → ¬ inWindow s.params s.work.curStart s.work.curEnd →
      ∃ t, exec .translate s = .next t ∧ t.phase = .abort)

/-- 60_exceptions.md R109, a decision of the spec (D24; log entry 22): the three conditions in their order, the first that
holds is reported by its code; the abort writes the code, the region index and the phase and nothing else (R110), with
`abort = 1`, `busy = 0`, `done = 0`. -/
def Obligations.AbortReportsFirstFailedCheck : Prop :=
  ∀ s : State, s.cfg.checkPreconditions = true →
    let order := s.work.curEnd.toNat < s.work.curStart.toNat
    let window := s.work.curStart.toNat < s.params.base.toNat ∨
      s.params.base.toNat + s.params.size < s.work.curEnd.toNat + 1
    let align := (s.work.curStart - s.params.base) % s.work.blocksize ≠ 0#32 ∨
      (s.work.curEnd + 1#32 - s.params.base) % s.work.blocksize ≠ 0#32
    let aborted (code : BitVec 2) : State := { s with abortCode := code, abortRi := s.ri, phase := .abort }
    (order → exec .translate s = .next (aborted 1#2)) ∧
    (¬ order → window → exec .translate s = .next (aborted 2#2)) ∧
    (¬ order → ¬ window → align → exec .translate s = .next (aborted 3#2)) ∧
    (¬ order → ¬ window → ¬ align → ∃ t, exec .translate s = .next t ∧ t.phase = .split) ∧
    (∀ code, (aborted code).abort = true ∧ (aborted code).busy = false ∧ (aborted code).done = false)

/-- 60_exceptions.md R111: from ABORT no input but reset moves the machine: any number of steps without reset leaves
everything but the input list as it was, no transaction is issued; a reset leaves ABORT for IDLE, with the LUT untouched
(70_reset_and_hazards.md R118). That a trigger given in ABORT is taken off the input list without effect is an inference
of the model (log entry 23), and that a reset keeps the trace is its choice (log entry 9). -/
def Obligations.AbortIsTerminal : Prop :=
  (∀ (n : Nat) (s : State), s.cfg.wf → s.phase = .abort → (∀ x ∈ s.inputs.take n, x ≠ .reset) →
    runSteps n s = .next { s with inputs := s.inputs.drop n }) ∧
  (∀ (s : State) (rest : List Input), s.cfg.wf → s.phase = .abort → s.inputs = .reset :: rest →
    ∃ t, step s = .next t ∧ t.phase = .idle ∧ t.mem = s.mem ∧ t.trace = s.trace)

/-- The abort registers are written only where TRANSLATE aborts and by reset (60_exceptions.md R110). -/
def Obligations.AbortRegistersWrittenOnlyByAbort : Prop :=
  ∀ s t : State, step s = .next t → ¬ keepsAbort s t →
    s.input = .reset ∨
    (t.phase = .abort ∧ t.abortRi = s.ri ∧ s.cfg.checkPreconditions = true ∧
      (s.phase = .translate ∨ (s.phase = .resolve ∧ s.grain = .region)))

/-- 41_region_translator.md R69, which the spec marks as derived: for a well-formed region the block range is in order,
and without the window premise it need not be (R69's own example). -/
def Obligations.BlockRangeInOrder : Prop :=
  (∀ (p : TypeParams) (shift : BitVec 5) (start stop : Word), inWindow p start stop →
    (blockOf p shift start).toNat ≤ (blockOf p shift stop).toNat) ∧
  (∀ p : TypeParams, p.base = 0x20000000#32 →
    blockOf p 5 0x1FFFFFFF#32 = 0x07FFFFFF#32 ∧ blockOf p 5 0x20000000#32 = 0#32)

/-- 41_region_translator.md R71: the blocks of a well-formed region cover every byte of it, and exceed it by `(start -
base) % blocksize` bytes below and `blocksize - 1 - ((end - base) % blocksize)` bytes above. -/
def Obligations.MisalignedRegionIsCovered : Prop :=
  ∀ (c : Config) (r : Region), c.wf → inWindow (c.of r.type) r.start r.stop →
    let base := (c.of r.type).base.toNat
    let size := (blocksizeOf (c.of r.type)).toNat
    let lo := base + (startBlockOf c r).toNat * size
    let hi := base + ((endBlockOf c r).toNat + 1) * size - 1
    lo ≤ r.start.toNat ∧ r.stop.toNat ≤ hi ∧
    r.start.toNat - lo = (r.start.toNat - base) % size ∧
    hi - r.stop.toNat = size - 1 - (r.stop.toNat - base) % size

/-! ### The mask -/

/-- R74: SET_BIT_RANGE is the run of ones from `lo` through `hi`, as bits and as the number `2^(hi+1) - 2^lo`. -/
def Obligations.MaskIsRunOfOnes : Prop :=
  ∀ lo hi : BitVec 5, lo ≤ hi →
    isBitRange (setBitRange lo hi) lo.toNat hi.toNat ∧
    (setBitRange lo hi).toNat = 2 ^ (hi.toNat + 1) - 2 ^ lo.toNat

/-- 42_bit_range_mask.md R75, which the spec marks as derived: the number of set bits, the two halves, and the split at
any position. -/
def Obligations.MaskPropertiesHold : Prop :=
  ∀ lo hi : BitVec 5, lo ≤ hi →
    ((List.range 32).filter fun b => (setBitRange lo hi).getLsbD b).length = hi.toNat - lo.toNat + 1 ∧
    (∀ b < 32, (setBitRange lo hi).getLsbD b = true ↔ lo.toNat ≤ b ∧ b ≤ hi.toNat) ∧
    setBitRange lo hi = setBitRange lo 31 &&& setBitRange 0 hi ∧
    ∀ m : BitVec 5, lo ≤ m → m < hi →
      setBitRange lo m ||| setBitRange (m + 1) hi = setBitRange lo hi ∧ setBitRange lo m &&& setBitRange (m + 1) hi = 0#32

/-! ### SPLIT -/

/-- R79, R82: SPLIT finds word and bit of the boundary blocks and chooses Case A exactly when the word indices agree; no
transaction, nothing else changes. With `start_lut > end_lut` it is refused, as EmptyCase where that is the only
condition that holds. The hypothesis on `N_LUT_WORDS` is R91(c)'s check, whose refusal is SplitRefusesUndefinedInputs. -/
def Obligations.SplitLocatesBoundaries : Prop :=
  (∀ s : State, s.work.startBlock.toNat ≤ s.work.endBlock.toNat → s.work.endBlock.toNat / 32 < s.params.nLutWords →
    exec .split s = .next { s with
      work := { s.work with
        startLut := BitVec.ofNat 32 (s.work.startBlock.toNat / 32)
        endLut := BitVec.ofNat 32 (s.work.endBlock.toNat / 32)
        startOffset := BitVec.ofNat 5 (s.work.startBlock.toNat % 32)
        endOffset := BitVec.ofNat 5 (s.work.endBlock.toNat % 32) }
      phase := if s.work.startBlock.toNat / 32 = s.work.endBlock.toNat / 32 then .single else .first }) ∧
  (∀ s : State, s.work.endBlock.toNat / 32 < s.work.startBlock.toNat / 32 →
    (∃ r, exec .split s = .refused r) ∧
    (s.work.endBlock.toNat / 32 < s.params.nLutWords → exec .split s = .refused .emptyCase))

/-- 43_lut_programmer.md R91, 20_memory.md R47: SPLIT refuses a range out of order and a range that does not fit the LUT,
before any transaction, and nothing else. That a range for which both hold is refused as EmptyCase is the model's choice
(log entry 27). -/
def Obligations.SplitRefusesUndefinedInputs : Prop :=
  ∀ (s : State) (r : Refusal), exec .split s = .refused r ↔
    (r = .emptyCase ∧ s.work.endBlock.toNat < s.work.startBlock.toNat) ∨
    (r = .lutIndexOutOfRange ∧ s.work.startBlock.toNat ≤ s.work.endBlock.toNat ∧
      s.params.nLutWords ≤ s.work.endBlock.toNat / 32)

/-! ### The write primitives and the programming phases -/

/-- 43_lut_programmer.md R80, a decision of the spec (D12; log entry 17): ORMERGE is exactly one read and one write of the
same address, adjacent; the word becomes `old | m`; only `rdata` changes beside it. -/
def Obligations.OrMergeReadsThenWrites : Prop :=
  ∀ (s : State) (t : MemType) (w m : Word), s.cfg.wf → s.mem.wf → w.toNat < (s.cfg.of t).nLutWords →
    ∃ s', orMerge t w m s = .next s' ∧
      let a := lutAddr (s.cfg.of t) w
      let old := s.lutWord t w
      s'.trace = s.trace ++ [{ kind := .rd, addr := a, data := old }, { kind := .wr, addr := a, data := old ||| m }] ∧
      s'.lutWord t w = old ||| m ∧ bytesKeptOutside s s' a ∧
      s' = { s with mem := s'.mem, trace := s'.trace, work := { s.work with rdata := old } }

/-- 43_lut_programmer.md R81, a decision of the spec (D13; log entry 17): FILL is exactly one write, no read; the word
becomes all ones; the registers it leaves are those of `ORMERGE(t, w, 0xFFFFFFFF)`. -/
def Obligations.FillWritesAllOnes : Prop :=
  ∀ (s : State) (t : MemType) (w : Word), s.cfg.wf → s.mem.wf → w.toNat < (s.cfg.of t).nLutWords →
    ∃ s', fill t w s = .next s' ∧
      let a := lutAddr (s.cfg.of t) w
      s'.trace = s.trace ++ [{ kind := .wr, addr := a, data := allOnes }] ∧
      s'.lutWord t w = allOnes ∧ bytesKeptOutside s s' a ∧
      s' = { s with mem := s'.mem, trace := s'.trace } ∧
      ∃ s'', orMerge t w allOnes s = .next s'' ∧ s''.mem = s'.mem

/-- 43_lut_programmer.md R83: SINGLE OR-merges bits `[start_offset, end_offset]` into word `start_lut` and takes up the
next region; every other bit of the word, every other word and everything else is kept. It is refused for an index
that names no register. That the working registers of the region keep their values when the next region is taken up
or the list ends is the model's choice (log entry 28). -/
def Obligations.SingleMergesItsRange : Prop :=
  ∀ s : State, s.cfg.wf → s.mem.wf → s.work.startOffset ≤ s.work.endOffset →
    (s.work.startLut.toNat < s.params.nLutWords → canTakeUp s (s.ri + 1) →
      ∃ t, exec .single s = .next t ∧
        let a := lutAddr s.params s.work.startLut
        let old := s.lutWord s.work.curType s.work.startLut
        isBitRange t.work.mask s.work.startOffset.toNat s.work.endOffset.toNat ∧
        t.lutWord s.work.curType s.work.startLut = old ||| t.work.mask ∧ bytesKeptOutside s t a ∧
        t.trace = s.trace ++
          [{ kind := .rd, addr := a, data := old }, { kind := .wr, addr := a, data := old ||| t.work.mask }] ∧
        t.work = { s.work with
          mask := t.work.mask, rdata := old
          curStart := t.work.curStart, curEnd := t.work.curEnd, curType := t.work.curType } ∧
        takenUp s (s.ri + 1) t ∧ t.wi = s.wi ∧ keepsPlatform s t ∧ keepsAbort s t) ∧
    (s.params.nLutWords ≤ s.work.startLut.toNat → exec .single s = .refused .lutIndexOutOfRange)

/-- R85: FIRST, under the required policy, OR-merges bits `[start_offset, 31]` into word `start_lut` and moves to MID at
`start_lut + 1`, or to LAST when no word lies between; lower bits, every other word and everything else are kept. -/
def Obligations.FirstMergesUpperBits : Prop :=
  ∀ s : State, s.cfg.wf → s.mem.wf → s.cfg.mergePolicy = .uniformOr →
    (s.work.startLut.toNat < s.params.nLutWords →
      ∃ t, exec .first s = .next t ∧
        let a := lutAddr s.params s.work.startLut
        let old := s.lutWord s.work.curType s.work.startLut
        isBitRange t.work.mask s.work.startOffset.toNat 31 ∧
        t.lutWord s.work.curType s.work.startLut = old ||| t.work.mask ∧ bytesKeptOutside s t a ∧
        t.trace = s.trace ++
          [{ kind := .rd, addr := a, data := old }, { kind := .wr, addr := a, data := old ||| t.work.mask }] ∧
        t.work = { s.work with mask := t.work.mask, rdata := old } ∧
        (if s.work.startLut + 1#32 < s.work.endLut then t.phase = .mid ∧ t.wi = s.work.startLut + 1#32
          else t.phase = .last ∧ t.wi = s.wi) ∧
        t.ri = s.ri ∧ keepsPlatform s t ∧ keepsAbort s t) ∧
    (s.params.nLutWords ≤ s.work.startLut.toNat → exec .first s = .refused .lutIndexOutOfRange)

/-- 43_lut_programmer.md R92: under `legacy_assign` FIRST writes the mask without a read, so that every bit of the word
below `start_offset` becomes 0; its moves and its frame are those of the required policy. -/
def Obligations.FirstAssignsUnderLegacy : Prop :=
  ∀ s : State, s.cfg.wf → s.mem.wf → s.cfg.mergePolicy = .legacyAssign →
    (s.work.startLut.toNat < s.params.nLutWords →
      ∃ t, exec .first s = .next t ∧
        let a := lutAddr s.params s.work.startLut
        isBitRange t.work.mask s.work.startOffset.toNat 31 ∧
        t.lutWord s.work.curType s.work.startLut = t.work.mask ∧
        (∀ b < s.work.startOffset.toNat, t.lutBit s.work.curType s.work.startLut b = false) ∧ bytesKeptOutside s t a ∧
        t.trace = s.trace ++ [{ kind := .wr, addr := a, data := t.work.mask }] ∧
        t.work = { s.work with mask := t.work.mask } ∧
        (if s.work.startLut + 1#32 < s.work.endLut then t.phase = .mid ∧ t.wi = s.work.startLut + 1#32
          else t.phase = .last ∧ t.wi = s.wi) ∧
        t.ri = s.ri ∧ keepsPlatform s t ∧ keepsAbort s t) ∧
    (s.params.nLutWords ≤ s.work.startLut.toNat → exec .first s = .refused .lutIndexOutOfRange)

/-- R86: MID writes all ones into word `wi` without a read and moves to the next word between, or to LAST; while it stays
in MID, `start_lut < wi < end_lut` stays true; every other word and everything else is kept. -/
def Obligations.MidFillsOneWord : Prop :=
  ∀ s : State, s.cfg.wf → s.mem.wf →
    (s.wi.toNat < s.params.nLutWords →
      ∃ t, exec .mid s = .next t ∧
        let a := lutAddr s.params s.wi
        t.lutWord s.work.curType s.wi = allOnes ∧ bytesKeptOutside s t a ∧
        t.trace = s.trace ++ [{ kind := .wr, addr := a, data := allOnes }] ∧ t.work = s.work ∧
        (if s.wi + 1#32 < s.work.endLut then t.phase = s.phase ∧ t.wi = s.wi + 1#32
          else t.phase = .last ∧ t.wi = s.wi) ∧
        (s.work.startLut < s.wi → s.wi < s.work.endLut → t.phase = .mid → s.phase = .mid →
          s.work.startLut < t.wi ∧ t.wi < s.work.endLut) ∧
        t.ri = s.ri ∧ keepsPlatform s t ∧ keepsAbort s t) ∧
    (s.params.nLutWords ≤ s.wi.toNat → exec .mid s = .refused .lutIndexOutOfRange)

/-- 43_lut_programmer.md R87: LAST OR-merges bits `[0, end_offset]` into word `end_lut` and takes up the next region;
upper bits, every other word and everything else are kept. That the working registers of the region keep their
values when the next region is taken up or the list ends is the model's choice (log entry 28). -/
def Obligations.LastMergesLowerBits : Prop :=
  ∀ s : State, s.cfg.wf → s.mem.wf →
    (s.work.endLut.toNat < s.params.nLutWords → canTakeUp s (s.ri + 1) →
      ∃ t, exec .last s = .next t ∧
        let a := lutAddr s.params s.work.endLut
        let old := s.lutWord s.work.curType s.work.endLut
        isBitRange t.work.mask 0 s.work.endOffset.toNat ∧
        t.lutWord s.work.curType s.work.endLut = old ||| t.work.mask ∧ bytesKeptOutside s t a ∧
        t.trace = s.trace ++
          [{ kind := .rd, addr := a, data := old }, { kind := .wr, addr := a, data := old ||| t.work.mask }] ∧
        t.work = { s.work with
          mask := t.work.mask, rdata := old
          curStart := t.work.curStart, curEnd := t.work.curEnd, curType := t.work.curType } ∧
        takenUp s (s.ri + 1) t ∧ t.wi = s.wi ∧ keepsPlatform s t ∧ keepsAbort s t) ∧
    (s.params.nLutWords ≤ s.work.endLut.toNat → exec .last s = .refused .lutIndexOutOfRange)

/-- The remaining stops of the programming phases: SINGLE refuses `start_offset > end_offset` (42_bit_range_mask.md R76),
and SINGLE and LAST refuse a next descriptor with reserved bits set (30_encoding.md R52). That SINGLE names EmptyCase also
where its word index names no register is the model's choice (log entry 27), and so is that the fetch of the next
descriptor refuses what RUN has already checked (log entry 10). -/
def Obligations.ProgrammingPhasesStop : Prop :=
  ∀ s : State,
    (s.work.endOffset < s.work.startOffset → exec .single s = .refused .emptyCase) ∧
    (¬ canTakeUp s (s.ri + 1) → s.work.startOffset ≤ s.work.endOffset → s.work.startLut.toNat < s.params.nLutWords →
      exec .single s = .refused .reservedBits) ∧
    (¬ canTakeUp s (s.ri + 1) → s.work.endLut.toNat < s.params.nLutWords → exec .last s = .refused .reservedBits)

/-! ### RUN, the walk, reset and the inputs -/

/-- 44_orchestrator.md R96, a decision of the spec (D22; log entry 7): in IDLE and in DONE the trigger sets `ri` to 0
and takes up the first region, or goes to DONE; nothing else changes; with a region to do, `busy` becomes 1 and
`done` 0. That the working registers but the fetched ones keep the values of an earlier run is the model's choice
(log entry 28). -/
def Obligations.RunTakesUpFirstRegion : Prop :=
  ∀ (s : State) (b : Bool), (s.phase = .idle ∨ s.phase = .done) → regionsDecode s.regions = true →
    (s.regions = [] → exec (.run b) s = .next { s with ri := 0, phase := .done }) ∧
    (∀ d rest, s.regions = d :: rest → ∃ r t, decodeRegion d = .ok r ∧ exec (.run b) s = .next t ∧
      t = { s with
        ri := 0, phase := .resolve
        work := { s.work with curStart := r.start, curEnd := r.stop, curType := r.type } } ∧
      t.busy = true ∧ t.done = false)

/-- 44_orchestrator.md R98, a decision of the spec (D26): with an empty region list the start trigger goes from IDLE or
DONE to DONE in one step; no transaction, the LUT unchanged. -/
def Obligations.EmptyListRunsToDone : Prop :=
  ∀ s : State, s.cfg.wf → s.regions = [] → (s.phase = .idle ∨ s.phase = .done) → s.input = .start →
    ∃ t, step s = .next t ∧ t.phase = .done ∧ t.trace = s.trace ∧ t.mem = s.mem

/-- 44_orchestrator.md R101, 60_exceptions.md R103: a trigger while a run is in progress has no move: RUN, and so the
step, is refused as Reentry whatever the phase (log entry 8). In ABORT a trigger is not accepted: the step changes
nothing but the input list (R111; log entry 23, an inference). That a trigger while busy is refused as Reentry also when
the list has reserved bits is the model's choice (log entry 27). -/
def Obligations.TriggerOutsideIdleAndDone : Prop :=
  (∀ (s : State) (b : Bool), s.busy = true → exec (.run b) s = .refused .reentry) ∧
  ∀ s : State, s.cfg.wf → s.input = .start →
    (s.busy = true → step s = .refused .reentry) ∧ (s.phase = .abort → step s = .next s.tick)

/-- 70_reset_and_hazards.md R122: without trigger and reset an idle, finished or aborted block does nothing. That the
machine then has a step at all, which changes the input list only, is the model's choice (log entry 7). -/
def Obligations.WaitsForTrigger : Prop :=
  ∀ s : State, s.cfg.wf → s.input = .quiet → s.busy = false → step s = .next s.tick

/-- 70_reset_and_hazards.md R118: reset, in any phase, puts the sequencer in IDLE with `ri` 0; LUT, CFG, the region table
and the trace are untouched. The zeros of the working registers, `wi` and the abort registers, to which the spec gives
no value, are the model's choice (log entries 3, 4), and so is the kept trace (log entry 9). -/
def Obligations.ResetReturnsToIdle : Prop :=
  ∀ s : State, s.cfg.wf → s.input = .reset →
    step s = .next { s.tick with
      phase := .idle, ri := 0, wi := 0, work := Work.reset, abortCode := 0, abortRi := 0 }

/-- What power-on leaves (10_state.md R27), for any parameters and region list: IDLE, `ri` 0, `busy`, `done` and `abort`
0, the LUT as `LUT_RESET`, CFG as `CFG_VALUE`; and State.reset is that with the model's own parameter values and the
empty region list, which are the model's choice (log entries 1, 2, 7). -/
def Obligations.PowerOnState : Prop :=
  (∀ (c : Config) (ds : List Descriptor),
    let s := State.powerOn c ds
    s.phase = .idle ∧ s.ri = 0 ∧ s.busy = false ∧ s.done = false ∧ s.abort = false ∧ s.mem = c.lutReset ∧ s.cfg = c ∧
    s.regions = ds ∧ s.trace = []) ∧
  State.reset = State.powerOn Config.default []

/-- 00_scope.md R6: a configuration that breaks a constraint is refused, and only then for that reason. That it is refused
at every step, and before every other condition, is the model's choice (log entries 14, 27). -/
def Obligations.BadParametersRefused : Prop :=
  ∀ s : State, step s = .refused .badParameters ↔ ¬ s.cfg.wf

/-- 10_state.md R24: `busy` and `done` are functions of the phase alone; at most one of `busy`, `done`, `abort` is 1. -/
def Obligations.StatusOutputs : Prop :=
  ∀ s : State,
    (s.busy = true ↔ s.phase ≠ .idle ∧ s.phase ≠ .done ∧ s.phase ≠ .abort) ∧ (s.done = true ↔ s.phase = .done) ∧
    (s.abort = true ↔ s.phase = .abort) ∧ ¬ (s.busy = true ∧ s.done = true) ∧ ¬ (s.busy = true ∧ s.abort = true)

/-- 10_state.md R22, R23: with one phase a step, every step of the machine is a move of the transition table, under the
input of that step; `wi` changes only where the table writes it, and in a reset. -/
def Obligations.PositionFollowsTable : Prop :=
  ∀ s t : State, s.grain = .phase → step s = .next t →
    tableMove s t (s.input) ∧
    (t.wi ≠ s.wi → s.input = .reset ∨ (t.phase = .mid ∧ (s.phase = .first ∨ s.phase = .mid)))

/-! ### The two instructions -/

/-- 43_lut_programmer.md R89, which the spec marks as derived: a region the block programs, of either type, is executed
to the end; every bit of its block range becomes 1, every other LUT bit of either type keeps its value, every byte
outside the LUT array of its type reads as before; the next region is taken up. That the fetched Region is kept in
DONE is the model's choice (log entry 28). -/
def Obligations.NsrSetsExactlyItsBlocks : Prop :=
  ∀ (s : State) (ty : MemType) (start stop : Word),
    let r : Region := { start := start, stop := stop, type := ty }
    s.cfg.wf → s.mem.wf → s.cfg.mergePolicy = .uniformOr → r.accepted s.cfg → canTakeUp s (s.ri + 1) →
    ∃ t, exec (nsr ty start stop) s = .next t ∧
      (∀ (ty' : MemType) (w : Word) (b : Nat), w.toNat < (s.cfg.of ty').nLutWords → b < 32 →
        t.lutBit ty' w b = (coversBit s.cfg r ty' w b || s.lutBit ty' w b)) ∧
      (∀ x, ¬ (s.cfg.of ty).inLut x → t.mem.readByte x = s.mem.readByte x) ∧
      takenUp (s.loadRegion r) (s.ri + 1) t ∧ keepsPlatform s t ∧ keepsAbort s t

/-- 43_lut_programmer.md R88, 44_orchestrator.md R95: the transactions of one instruction, with their data: the CFG read
of its type, then the LUT transactions of Case A or Case B; their number is 3, or `1 + 4 + (end_lut - start_lut - 1)`.
-/
def Obligations.NsrTransactions : Prop :=
  ∀ (s : State) (ty : MemType) (start stop : Word),
    let r : Region := { start := start, stop := stop, type := ty }
    let p := s.cfg.of ty
    let sl := (startBlockOf s.cfg r).toNat / 32
    let el := (endBlockOf s.cfg r).toNat / 32
    s.cfg.wf → s.mem.wf → s.cfg.mergePolicy = .uniformOr → r.accepted s.cfg → canTakeUp s (s.ri + 1) →
    ∃ t, exec (nsr ty start stop) s = .next t ∧
      t.trace = s.trace ++ { kind := .rd, addr := p.cfgAddr, data := p.cfgValue } :: programEvents s r ∧
      t.trace.length = s.trace.length + if sl = el then 3 else 5 + (el - sl - 1)

/-- 44_orchestrator.md R93, R94: what an instruction does with a region it does not program. Without the option: refused
as IllFormedRegion outside the window, as LutIndexOutOfRange where it does not fit the LUT. With the option a failed
check aborts after the CFG read, with no LUT transaction. -/
def Obligations.NsrStops : Prop :=
  ∀ (s : State) (ty : MemType) (start stop : Word),
    let r : Region := { start := start, stop := stop, type := ty }
    let p := s.cfg.of ty
    s.cfg.wf →
    (s.cfg.checkPreconditions = false → ¬ inWindow p start stop →
      exec (nsr ty start stop) s = .refused .illFormedRegion) ∧
    (inWindow p start stop → (s.cfg.checkPreconditions = true → r.aligned s.cfg) → ¬ r.fits s.cfg →
      exec (nsr ty start stop) s = .refused .lutIndexOutOfRange) ∧
    (s.cfg.checkPreconditions = true → ¬ (inWindow p start stop ∧ r.aligned s.cfg) →
      ∃ t, exec (nsr ty start stop) s = .next t ∧ t.phase = .abort ∧ t.abortRi = s.ri ∧ t.abortCode ≠ 0#2 ∧
        t.mem = s.mem ∧ t.trace = s.trace ++ [{ kind := .rd, addr := p.cfgAddr, data := p.cfgValue }] ∧
        t.ri = s.ri ∧ keepsPlatform s t)

/-- R95 and 92_eei_decisions.md D16: executing a region whole is walking it phase by phase. From the start of region `ri`,
with one phase a step and no input, as many steps as the walk has give exactly the outcome of the instruction: the
same next state for a region the block programs, and for an aborting one the same ABORT state. Either merge policy. -/
def Obligations.NsrIsThePhaseWalk : Prop :=
  ∀ s : State, s.cfg.wf → s.grain = .phase → s.inputs = [] → s.phase = .resolve →
    let r := s.curRegion
    (r.accepted s.cfg → canTakeUp s (s.ri + 1) →
      runSteps (walkSteps s.cfg r false) s = exec (nsr r.type r.start r.stop) s ∧
      ∃ t, exec (nsr r.type r.start r.stop) s = .next t) ∧
    (s.cfg.checkPreconditions = true → ¬ (inWindow (s.cfg.of r.type) r.start r.stop ∧ r.aligned s.cfg) →
      runSteps (walkSteps s.cfg r true) s = exec (nsr r.type r.start r.stop) s ∧
      ∃ t, exec (nsr r.type r.start r.stop) s = .next t ∧ t.phase = .abort)

/-- 43_lut_programmer.md R90(a): programming the same range again leaves the registers as the first time left them. -/
def Obligations.NsrIdempotent : Prop :=
  ∀ (s t u : State) (ty : MemType) (start stop : Word),
    s.cfg.wf → s.mem.wf → s.cfg.mergePolicy = .uniformOr →
    Region.accepted s.cfg { start := start, stop := stop, type := ty } →
    exec (nsr ty start stop) s = .next t → exec (nsr ty start stop) t = .next u → u.mem = t.mem

/-- 43_lut_programmer.md R90(b): two instructions, of the same or different types, sharing LUT words or not, leave the
same registers in either order. -/
def Obligations.NsrCommute : Prop :=
  ∀ (s t u t' u' : State) (ty ty' : MemType) (start stop start' stop' : Word),
    s.cfg.wf → s.mem.wf → s.cfg.mergePolicy = .uniformOr →
    Region.accepted s.cfg { start := start, stop := stop, type := ty } →
    Region.accepted s.cfg { start := start', stop := stop', type := ty' } →
    exec (nsr ty start stop) s = .next t → exec (nsr ty' start' stop') t = .next u →
    exec (nsr ty' start' stop') s = .next t' → exec (nsr ty start stop) t' = .next u' → u.mem = u'.mem

/-! ### The whole machine -/

/-- The invariant holds when reset is released, for every configuration that meets R6 with a canonical `LUT_RESET` of LUT
bytes and every region list; and it holds at State.reset, whose parameter values are the model's choice (log entry 1).
-/
def Obligations.PowerOnMeetsInvariant : Prop :=
  (∀ (c : Config) (ds : List Descriptor), c.wf → Memory.wf c.lutReset →
    (∀ x ∈ c.lutReset, c.itcm.inLut x.1 ∨ c.dtcm.inLut x.1) → (State.powerOn c ds).Inv) ∧
  State.reset.Inv

/-- Every step keeps the invariant: parameters legal, memory canonical and holding LUT bytes only, every transaction
aligned and to a register the block may touch, CFG constant, and in each phase the working registers and `ri` as that
phase needs them (10_state.md R18, R22, R23; 20_memory.md R30, R37; 43_lut_programmer.md R86). -/
def Obligations.StepKeepsInvariant : Prop :=
  ∀ s t : State, s.Inv → step s = .next t → t.Inv

/-- Where a run can stop (60_exceptions.md R102, R103): in a state that meets the invariant a step is refused only by
TRANSLATE for an ill-formed region, by SPLIT for a range that does not fit, by RUN in IDLE or DONE for reserved bits, or
for a trigger while busy; without a trigger SINGLE, FIRST, MID and LAST never stop, and no step faults. That reserved bits
are refused at RUN, where R103 says the decode of the region list, is the model's choice (log entry 10); so are the name
Reentry where the list has reserved bits too (log entry 27) and the descriptor executed whole in one step, which stops at
its start (log entry 6). -/
def Obligations.StopsOnlyWhereNamed : Prop :=
  ∀ s : State, s.Inv →
    (∀ r, step s = .refused r →
      (r = .illFormedRegion ∧ s.cfg.checkPreconditions = false ∧
        ¬ inWindow s.params s.work.curStart s.work.curEnd ∧
        (s.phase = .translate ∨ (s.phase = .resolve ∧ s.grain = .region))) ∨
      (r = .lutIndexOutOfRange ∧
        ((s.phase = .split ∧ s.params.nLutWords ≤ s.work.endBlock.toNat / 32) ∨
         (s.phase = .resolve ∧ s.grain = .region ∧ ¬ s.curRegion.fits s.cfg))) ∨
      (r = .reservedBits ∧ regionsDecode s.regions = false ∧ s.input = .start ∧ (s.phase = .idle ∨ s.phase = .done)) ∨
      (r = .reentry ∧ s.busy = true ∧ s.input = .start)) ∧
    ∀ f, step s ≠ .fault f

/-- 10_state.md R16, which the spec marks as derived: under `uniform_or` no step clears a LUT bit; under `legacy_assign` a
step can. -/
def Obligations.LutBitsNeverCleared : Prop :=
  (∀ (s t : State), s.cfg.mergePolicy = .uniformOr → s.mem.wf → step s = .next t →
    ∀ (ty : MemType) (w : Word) (b : Nat), w.toNat < (s.cfg.of ty).nLutWords → s.lutBit ty w b = true →
      t.lutBit ty w b = true) ∧
  (∃ (s t : State) (ty : MemType) (w : Word) (b : Nat), s.cfg.mergePolicy = .legacyAssign ∧ s.Inv ∧
    step s = .next t ∧ w.toNat < (s.cfg.of ty).nLutWords ∧ s.lutBit ty w b = true ∧ t.lutBit ty w b = false)

/-- 10_state.md R18, R25, 20_memory.md R45: no step changes the parameters (CFG among them) or the region table. That the
step size is kept, and that each step takes one input off the list, is the model's choice (log entries 6, 7). -/
def Obligations.ParametersAndProgramConstant : Prop :=
  ∀ s t : State, step s = .next t →
    t.cfg = s.cfg ∧ t.regions = s.regions ∧ t.grain = s.grain ∧ t.inputs = s.inputs.tail

/-- 20_memory.md R42, R44: a step only appends to the trace; the registers after it are the registers before with the
appended writes applied in order, none dropped, merged or reordered; every read in it returned the latest write to its
word, or the word's value before the step. -/
def Obligations.TraceReplaysToMemory : Prop :=
  ∀ s t : State, step s = .next t →
    ∃ es, t.trace = s.trace ++ es ∧ t.mem = replay s.mem es ∧ readsTrue s.cfg s.mem es

/-- 20_memory.md R30, 43_lut_programmer.md R88, 44_orchestrator.md R95: what a busy step puts on the bus: reads of the
current type's CFG register, and reads and writes of words of the current type's LUT array; never the other type's. -/
def Obligations.BusStaysWithCurrentType : Prop :=
  ∀ s t : State, s.Inv → step s = .next t →
    ∃ es, t.trace = s.trace ++ es ∧
      ∀ e ∈ es, s.busy = true ∧
        ((e.kind = .rd ∧ e.addr = s.params.cfgAddr ∧ e.data = s.params.cfgValue) ∨
         ∃ w : Word, w.toNat < s.params.nLutWords ∧ e.addr = lutAddr s.params w)

/-- 10_state.md R20, R21: working registers are transient: nothing a later step reads depends on a working register that
was not written in the current region. Two states that differ only in working registers the phase no longer reads (at
IDLE and DONE: all of them, so their reset values do not matter) step to outcomes of the same kind that differ only
so. -/
def Obligations.WorkingRegistersTransient : Prop :=
  ∀ s s' : State, s.observed = s'.observed → sameOutcome (step s) (step s')

/-- 44_orchestrator.md R99, which the spec marks as derived: a run over a well-formed list ends. From IDLE or DONE with
the trigger given, and with no region that the optional check would abort on, some number of steps reaches DONE with
`ri = N_REGIONS`; the LUT is the LUT before with exactly the bits of the listed regions' block ranges set; CFG and the
other parameters are unchanged; the trace has grown by one CFG read and the LUT accesses of each region in list order.
Either step size. RunAbortsAtMisalignedRegion is the other case. -/
def Obligations.RunReachesDone : Prop :=
  ∀ (s : State) (prior : List BusEvent) (lut : Memory), s.RunReady prior lut → ListAligned s.cfg s.regions →
    ∃ (n : Nat) (t : State), runSteps n s = .next t ∧ t.phase = .done ∧ t.done = true ∧ t.ri = s.regions.length ∧
      (∀ (ty : MemType) (w : Word) (b : Nat), w.toNat < (s.cfg.of ty).nLutWords → b < 32 →
        t.lutBit ty w b = (listCovers s.cfg s.regions ty w b || s.lutBit ty w b)) ∧
      t.cfg = s.cfg ∧ t.regions = s.regions ∧
      accesses t.trace = accesses prior ++ listAccesses s.cfg s.regions

/-- R100: re-invocation. After a run the trigger given again in DONE performs the whole walk again, every access included,
and leaves the registers exactly as the first run left them. -/
def Obligations.RerunLeavesLutUnchanged : Prop :=
  ∀ (s : State) (prior : List BusEvent) (lut : Memory), s.RunReady prior lut → ListAligned s.cfg s.regions →
    ∃ (n m : Nat) (t u : State), runSteps n s = .next t ∧ t.phase = .done ∧
      runSteps m { t with inputs := [.start] } = .next u ∧ u.phase = .done ∧ u.mem = t.mem ∧
      accesses u.trace = accesses t.trace ++ listAccesses s.cfg s.regions

/-- 60_exceptions.md R108 to R110, decisions of the spec (D24; log entry 22): with the option a run over a well-formed list
ends in ABORT at its first misaligned region `d`, after `before`: `ri` and `abort_ri` are its index, the code is 3
(ALIGN); the LUT holds exactly the bits set by the regions before it, which are not undone; the trace has grown by their
accesses and one CFG read. Either step size. -/
def Obligations.RunAbortsAtMisalignedRegion : Prop :=
  ∀ (s : State) (prior : List BusEvent) (lut : Memory) (before after : List Descriptor) (d : Descriptor) (r : Region),
    s.RunReady prior lut → s.cfg.checkPreconditions = true → s.regions = before ++ d :: after →
    ListAligned s.cfg before → decodeRegion d = .ok r → ¬ r.aligned s.cfg →
    ∃ (n : Nat) (t : State), runSteps n s = .next t ∧ t.phase = .abort ∧ t.done = false ∧ t.busy = false ∧
      t.ri = before.length ∧ t.abortRi = before.length ∧ t.abortCode = 3#2 ∧
      (∀ (ty : MemType) (w : Word) (b : Nat), w.toNat < (s.cfg.of ty).nLutWords → b < 32 →
        t.lutBit ty w b = (listCovers s.cfg before ty w b || s.lutBit ty w b)) ∧
      accesses t.trace = accesses prior ++ listAccesses s.cfg before ++ [(.rd, (s.cfg.of r.type).cfgAddr)]

/-- 70_reset_and_hazards.md R133, which the spec marks as derived: the premises CfgConstant, Exclusive and InOrderBus hold
of every run of the model, of any length, from any state; a run that breaks one is a run the model lacks (log entries
15, 18). -/
def Obligations.EveryRunMeetsPlatformPremises : Prop :=
  ∀ (n : Nat) (s t : State), runSteps n s = .next t → CfgConstant s t ∧ Exclusive n s t ∧ InOrderBus s t
end

