-- ==== Sys2Proof/Laws/PerInstr.lean ====
section
/-! SUPPORT. Statements made for every constructor of Instr: the length of an encoding, and that it decodes. -/

namespace Sys2Proof.Laws.EncodeShape

/-- A descriptor has 12 bytes, a phase code one, and its four upper bits are zero (30_encoding.md R50, R59, R61). -/
def Statement (i : Instr) : Prop :=
  match i with
  | .nsrItcm _ _ => (encode i).length = 12
  | .nsrDtcm _ _ => (encode i).length = 12
  | _ => ∃ code : Byte, encode i = [code] ∧ code.toNat < 9

theorem nsrItcm (start stop : Word) : Statement (.nsrItcm start stop) := rfl
theorem nsrDtcm (start stop : Word) : Statement (.nsrDtcm start stop) := rfl
theorem run (fromDone : Bool) : Statement (.run fromDone) := by
  cases fromDone <;> exact ⟨_, rfl, by decide⟩
theorem resolve : Statement .resolve := ⟨_, rfl, by decide⟩
theorem translate : Statement .translate := ⟨_, rfl, by decide⟩
theorem split : Statement .split := ⟨_, rfl, by decide⟩
theorem single : Statement .single := ⟨_, rfl, by decide⟩
theorem first : Statement .first := ⟨_, rfl, by decide⟩
theorem mid : Statement .mid := ⟨_, rfl, by decide⟩
theorem last : Statement .last := ⟨_, rfl, by decide⟩

end Sys2Proof.Laws.EncodeShape
end

