-- ==== Sys2Proof/Tests/Slice0.lean ====
section
/-! SUPPORT. The model's own tests. Expected values come from spec/: the encodings of 30_encoding.md, the vectors V1 to
V63 and programs P1 to P7 of 95_test_vectors.md, or a hand calculation named at the test. A `witness_` theorem shows
that the hypotheses of the obligation it names can be met, at boundary values of each clause. -/

namespace Sys2Proof.Tests

open Sys2Proof Sys2Proof.Machine

/-! ### Helpers -/

def nextOf? : Result → Option State
  | .next s => some s
  | .fault _ => none
  | .refused _ => none

def stopOf? : Result → Option Refusal
  | .next _ => none
  | .fault _ => none
  | .refused r => some r

theorem exists_next {o : Result} (h : (nextOf? o).isSome = true) : ∃ t, o = .next t := by
  cases o with
  | next s => exact ⟨s, rfl⟩
  | fault f => cases f
  | refused r => cases h

/-- Does the outcome hold a next state with `p`? -/
def nextWith (o : Result) (p : State → Bool) : Bool :=
  match nextOf? o with
  | some t => p t
  | none => false

theorem exists_next_with {o : Result} {p : State → Bool} (h : nextWith o p = true) : ∃ t, o = .next t ∧ p t = true := by
  cases o with
  | next s => exact ⟨s, rfl, h⟩
  | fault f => cases f
  | refused r => cases h

/-- The parameter set T0 (95_test_vectors.md) with the optional check. -/
def cfgCheck : Config := { Config.default with checkPreconditions := true }

/-- T0 with the documented variant of R92. -/
def cfgLegacy : Config := { Config.default with mergePolicy := .legacyAssign }

/-- T0 with given DTCM parameters. -/
def cfgDtcm (p : TypeParams) : Config := { Config.default with dtcm := p }

/-- T0 with given ITCM parameters. -/
def cfgItcm (p : TypeParams) : Config := { Config.default with itcm := p }

/-- A state in phase `p` with working registers `w`. -/
def st (c : Config) (ds : List Descriptor) (p : Phase) (w : Work) : State :=
  { State.powerOn c ds with phase := p, work := w }

/-- Working registers of a DTCM region. -/
def dtcmWork : Work := { Work.reset with curType := .dtcm }

/-- Working registers that hold an address pair of a DTCM region with 4096-byte blocks, as RESOLVE leaves them. -/
def addrWork (start stop : Word) : Work :=
  { dtcmWork with curStart := start, curEnd := stop, shift := 12, blocksize := 4096 }

/-- Working registers that hold a block range. -/
def blockWork (a b : Word) : Work := { dtcmWork with startBlock := a, endBlock := b }

/-- Working registers that hold a split range. -/
def lutWork (a b : Word) (c d : BitVec 5) : Work :=
  { dtcmWork with startLut := a, endLut := b, startOffset := c, endOffset := d }

/-- The state with a word put into DTCM LUT word `w`. -/
def putDtcm (w v : Word) (s : State) : State :=
  s.setMem (s.mem.writeWord (lutAddr s.cfg.dtcm w).toNat v)

/-- The descriptor of program P1 (95_test_vectors.md). -/
def p1 : Descriptor := { w0 := 0x20002000#32, w1 := 0x20006FFF#32, w2 := 0x00000001#32 }

/-- The descriptor of V56: reserved bit `W2[1]` set. -/
def v56 : Descriptor := { w0 := 0x20002000#32, w1 := 0x20006FFF#32, w2 := 0x00000003#32 }

def rd (a v : Word) : BusEvent := { kind := .rd, addr := a, data := v }
def wr (a v : Word) : BusEvent := { kind := .wr, addr := a, data := v }

/-! ### Well-formedness: one ill-formed term for each check -/

theorem test_wf_default : Config.default.wf = true ∧ cfgCheck.wf = true ∧ cfgLegacy.wf = true := by decide
theorem test_wf_width_zero : (cfgDtcm { Config.default.dtcm with blkszWidth := 0 }).wf = false := by decide
theorem test_wf_width_five : (cfgDtcm { Config.default.dtcm with blkszWidth := 5 }).wf = false := by decide
theorem test_wf_field_past_word : (cfgDtcm { Config.default.dtcm with blkszLsb := 30 }).wf = false := by decide
theorem test_wf_field_last_bits : (cfgDtcm { Config.default.dtcm with blkszLsb := 29 }).wf = true := by decide
theorem test_wf_cfg_misaligned : (cfgDtcm { Config.default.dtcm with cfgAddr := 0x40000106#32 }).wf = false := by decide
theorem test_wf_lut_misaligned : (cfgDtcm { Config.default.dtcm with lutBase := 0x40000112#32 }).wf = false := by decide
theorem test_wf_lut_past_space : (cfgDtcm { Config.default.dtcm with lutBase := 0xFFFFFFC4#32 }).wf = false := by decide
theorem test_wf_lut_at_space_end : (cfgDtcm { Config.default.dtcm with lutBase := 0xFFFFFFC0#32 }).wf = true := by decide
theorem test_wf_window_past_space : (cfgDtcm { Config.default.dtcm with size := 0xE0000001 }).wf = false := by decide
theorem test_wf_window_to_space_end : (cfgDtcm { Config.default.dtcm with size := 0xE0000000 }).wf = true := by decide
theorem test_wf_size_zero : (cfgDtcm { Config.default.dtcm with size := 0 }).wf = false := by decide
theorem test_wf_no_lut_words : (cfgDtcm { Config.default.dtcm with nLutWords := 0 }).wf = false := by decide
theorem test_wf_same_cfg : (cfgDtcm { Config.default.dtcm with cfgAddr := 0x40000004#32 }).wf = false := by decide
theorem test_wf_luts_overlap : (cfgDtcm { Config.default.dtcm with lutBase := 0x4000004C#32 }).wf = false := by decide
theorem test_wf_own_cfg_in_lut : (cfgDtcm { Config.default.dtcm with cfgAddr := 0x4000014C#32 }).wf = false := by decide
theorem test_wf_cfg_in_other_lut : (cfgDtcm { Config.default.dtcm with cfgAddr := 0x40000010#32 }).wf = false := by decide
theorem test_wf_itcm_own_cfg_in_lut : (cfgItcm { Config.default.itcm with cfgAddr := 0x4000004C#32 }).wf = false := by decide
theorem test_wf_itcm_cfg_in_other_lut : (cfgItcm { Config.default.itcm with cfgAddr := 0x40000110#32 }).wf = false := by decide
theorem test_wf_itcm_width_five : (cfgItcm { Config.default.itcm with blkszWidth := 5 }).wf = false := by decide

/-- V29: `start > end`. -/
theorem test_wf_order : ¬ (Instr.nsrDtcm 0x20006FFF#32 0x20002000#32).wf Config.default := by decide
/-- V30: `start` below the window. -/
theorem test_wf_below_window : ¬ (Instr.nsrDtcm 0x1FFFF000#32 0x20000FFF#32).wf Config.default := by decide
/-- V30a: `end` one byte past the window. -/
theorem test_wf_above_window : ¬ (Instr.nsrDtcm 0x20000000#32 0x20100000#32).wf Config.default := by decide
/-- V63: the range does not fit the LUT. -/
theorem test_wf_fits :
    ¬ (Instr.nsrDtcm 0x20000000#32 0x200FFFFF#32).wf (cfgDtcm { Config.default.dtcm with cfgValue := 0 }) := by decide
/-- V26, P6: the last byte of a window, and a whole window. -/
theorem test_wf_window_edge :
    (Instr.nsrDtcm 0x200FFFFF#32 0x200FFFFF#32).wf Config.default ∧ (Instr.nsrItcm 0x00000000#32 0x0003FFFF#32).wf Config.default ∧
    ¬ (Instr.nsrItcm 0x00000000#32 0x00040000#32).wf Config.default := by decide
/-- V59: a region that only the ALIGN check refuses, by its start; and one by its end. -/
theorem test_wf_aligned :
    ¬ Region.accepted cfgCheck { start := 0x20008010#32, stop := 0x20008FFF#32, type := .dtcm } ∧
    ¬ Region.accepted cfgCheck { start := 0x20008000#32, stop := 0x20008FFE#32, type := .dtcm } ∧
    Region.accepted cfgCheck { start := 0x20008000#32, stop := 0x20008FFF#32, type := .dtcm } ∧
    Region.accepted Config.default { start := 0x20008010#32, stop := 0x20008FFF#32, type := .dtcm } := by decide
/-- V56: the reserved bits of a descriptor. -/
theorem test_wf_reserved : regionsDecode [p1, v56] = false ∧ regionsDecode [p1, p1] = true := by decide

/-! ### Decoding: every constructor from a word written out from the spec -/

/-- 30_encoding.md R62: `NSR.DTCM 0x20002000, 0x20006FFF` is `0x20002000 0x20006FFF 0x00000001`. -/
theorem test_decode_nsr_dtcm :
    decodeTableWord 96 0x00000001_20006FFF_20002000 = some (.nsrDtcm 0x20002000#32 0x20006FFF#32) ∧
    decode [0x00#8, 0x20#8, 0x00#8, 0x20#8, 0xFF#8, 0x6F#8, 0x00#8, 0x20#8, 0x01#8, 0x00#8, 0x00#8, 0x00#8] =
      .ok (.nsrDtcm 0x20002000#32 0x20006FFF#32) := by decide
/-- P5: `NSR.ITCM 0x00000123, 0x00000456` is `0x00000123 0x00000456 0x00000000`. -/
theorem test_decode_nsr_itcm :
    decodeTableWord 96 0x00000000_00000456_00000123 = some (.nsrItcm 0x00000123#32 0x00000456#32) := by decide
theorem test_decode_run : decode [0b0000#8] = .ok (.run false) ∧ decodeTableWord 4 0b1000 = some (.run true) := by decide
theorem test_decode_resolve : decodeTableWord 4 0b0001 = some .resolve := by decide
theorem test_decode_translate : decodeTableWord 4 0b0010 = some .translate := by decide
theorem test_decode_split : decodeTableWord 4 0b0011 = some .split := by decide
theorem test_decode_single : decodeTableWord 4 0b0100 = some .single := by decide
theorem test_decode_first : decodeTableWord 4 0b0101 = some .first := by decide
theorem test_decode_mid : decodeTableWord 4 0b0110 = some .mid := by decide
theorem test_decode_last : decodeTableWord 4 0b0111 = some .last := by decide
/-- R52, R59, R60: what spells nothing. V56's bit 65, bit 95, the ABORT code, 1010, 1111, a wrong length. -/
theorem test_decode_rejects :
    decodeTableWord 96 0x00000003_20006FFF_20002000 = none ∧ decodeTableWord 96 (2 ^ 95) = none ∧
    decode [0b1001#8] = .error .noOperation ∧ decode [0b1010#8] = .error .undefinedPhase ∧
    decode [0b1111#8] = .error .undefinedPhase ∧ decode [] = .error .badLength := by decide
/-- R59: the code of a phase and the phase of a code. -/
theorem test_phase_codes :
    ∀ p ∈ [Phase.idle, .resolve, .translate, .split, .single, .first, .mid, .last, .done, .abort],
      phaseOfCode p.code = some p := by decide
/-- The host's probe: from reset, the placed word is what the next step runs. -/
theorem test_withFetchWord :
    nextWith (step (State.reset.withFetchWord 4 0b0001)) (fun t => t.phase == .translate) = true ∧
    nextWith (step (State.reset.withFetchWord 4 0b1000)) (fun t => t.phase == .done) = true ∧
    nextWith (step (State.reset.withFetchWord 96 0x00000001_20006FFF_20002000))
      (fun t => t.lutWord .dtcm 0 == 0x0000007C#32) = true := by decide

/-! ### The mask: V31 to V40c -/

theorem test_mask :
    setBitRange 0 0 = 0x00000001#32 ∧ setBitRange 31 31 = 0x80000000#32 ∧ setBitRange 0 31 = 0xFFFFFFFF#32 ∧
    setBitRange 2 6 = 0x0000007C#32 ∧ setBitRange 10 31 = 0xFFFFFC00#32 ∧ setBitRange 0 30 = 0x7FFFFFFF#32 ∧
    setBitRange 1 31 = 0xFFFFFFFE#32 ∧ setBitRange 15 16 = 0x00018000#32 ∧ setBitRange 8 15 = 0x0000FF00#32 := by decide

/-! ### One step of each instruction -/

/-- V20a: bits outside the field are ignored; field 7 gives shift 12 and 4096 bytes, with one read. -/
theorem test_resolve_outside_bits :
    nextWith (exec .resolve (st (cfgDtcm { Config.default.dtcm with cfgValue := 0xABCDEF07#32 }) [] .resolve dtcmWork))
      (fun t => t.work.shift == 12 && t.work.blocksize == 4096 && t.phase == .translate &&
        t.trace == [rd 0x40000104#32 0xABCDEF07#32]) = true := by decide
/-- V20c and V20d: the largest width, and another place of the field. -/
theorem test_resolve_field_place :
    nextWith (exec .resolve (st (cfgDtcm { Config.default.dtcm with cfgValue := 0x0F#32, blkszWidth := 4 }) [] .resolve dtcmWork))
      (fun t => t.work.shift == 20 && t.work.blocksize == 1048576) = true ∧
    nextWith (exec .resolve (st (cfgDtcm { Config.default.dtcm with cfgValue := 0x70#32, blkszLsb := 4 }) [] .resolve dtcmWork))
      (fun t => t.work.shift == 12 && t.work.blocksize == 4096) = true := by decide
/-- V27: misaligned, floor at both ends, blocks 1 to 4. -/
theorem test_translate_floor :
    nextWith (exec .translate (st Config.default [] .translate (addrWork 0x20001234#32 0x20004321#32)))
      (fun t => t.work.startBlock == 1 && t.work.endBlock == 4 && t.phase == .split && t.trace == []) = true := by decide
/-- V61: one byte past the window aborts with code 2; V59: misaligned aborts with code 3. -/
theorem test_translate_aborts :
    nextWith (exec .translate (st cfgCheck [] .translate (addrWork 0x20000000#32 0x20100000#32)))
      (fun t => t.phase == .abort && t.abortCode == 2) = true ∧
    nextWith (exec .translate (st cfgCheck [] .translate (addrWork 0x20008010#32 0x20008FFF#32)))
      (fun t => t.phase == .abort && t.abortCode == 3) = true := by decide
/-- V47: blocks 100 to 200 are words 3 to 6, bits 4 and 8; V45: 31 to 32. -/
theorem test_split_two_words :
    nextWith (exec .split (st Config.default [] .split (blockWork 100 200)))
      (fun t => t.work.startLut == 3 && t.work.endLut == 6 && t.work.startOffset == 4 && t.work.endOffset == 8 &&
        t.phase == .first) = true ∧
    nextWith (exec .split (st Config.default [] .split (blockWork 31 32)))
      (fun t => t.work.startLut == 0 && t.work.endLut == 1 && t.work.startOffset == 31 && t.work.endOffset == 0 &&
        t.phase == .first) = true := by decide
/-- V49: block 511 is the last that fits 16 words; V52: block 512 does not fit. -/
theorem test_split_last_block :
    nextWith (exec .split (st Config.default [] .split (blockWork 511 511)))
      (fun t => t.work.startLut == 15 && t.work.startOffset == 31 && t.phase == .single) = true ∧
    stopOf? (exec .split (st Config.default [] .split (blockWork 0 512))) = some .lutIndexOutOfRange := by decide
/-- V5: prior 0x80000001, bits 2 to 6, gives 0x8000007D. -/
theorem test_single_keeps_other_bits :
    nextWith (exec .single (putDtcm 0 0x80000001#32 (st Config.default [] .single (lutWork 0 0 2 6))))
      (fun t => t.lutWord .dtcm 0 == 0x8000007D#32 && t.phase == .done && t.ri == 1 &&
        t.trace == [rd 0x40000110#32 0x80000001#32, wr 0x40000110#32 0x8000007D#32]) = true := by decide
/-- V51: the second time the write is still issued. -/
theorem test_single_always_writes :
    nextWith (exec .single (putDtcm 0 0x7C#32 (st Config.default [] .single (lutWork 0 0 2 6))))
      (fun t => t.trace == [rd 0x40000110#32 0x7C#32, wr 0x40000110#32 0x7C#32]) = true := by decide
/-- P3: prior 5, bits 10 to 31, gives 0xFFFFFC05, then MID at word 1. -/
theorem test_first_merges :
    nextWith (exec .first (putDtcm 0 5 (st Config.default [] .first (lutWork 0 2 10 6))))
      (fun t => t.lutWord .dtcm 0 == 0xFFFFFC05#32 && t.phase == .mid && t.wi == 1) = true := by decide
/-- V43, legacy: FIRST writes 0xFFFFFF00 over 0x7C without a read; no word between, so LAST follows. -/
theorem test_first_legacy :
    nextWith (exec .first (putDtcm 0 0x7C#32 (st cfgLegacy [] .first (lutWork 0 1 8 8))))
      (fun t => t.lutWord .dtcm 0 == 0xFFFFFF00#32 && t.phase == .last &&
        t.trace == [wr 0x40000110#32 0xFFFFFF00#32]) = true := by decide
/-- P3: word 1 becomes all ones without a read, then LAST. -/
theorem test_mid_fills :
    nextWith (exec .mid ((putDtcm 1 0x12345678#32 (st Config.default [] .mid (lutWork 0 2 10 6))).setWi 1))
      (fun t => t.lutWord .dtcm 1 == 0xFFFFFFFF#32 && t.phase == .last &&
        t.trace == [wr 0x40000114#32 0xFFFFFFFF#32]) = true := by decide
/-- V47: after word 4 comes word 5. -/
theorem test_mid_goes_on :
    nextWith (exec .mid ((st Config.default [] .mid (lutWork 3 6 4 8)).setWi 4))
      (fun t => t.phase == .mid && t.wi == 5 && t.lutWord .dtcm 5 == 0) = true := by decide
/-- P3: prior 0x80000000, bits 0 to 6, gives 0x8000007F; word 3 is untouched. -/
theorem test_last_merges :
    nextWith (exec .last (putDtcm 3 0xDEADBEEF#32 (putDtcm 2 0x80000000#32 (st Config.default [] .last (lutWork 0 2 10 6)))))
      (fun t => t.lutWord .dtcm 2 == 0x8000007F#32 && t.lutWord .dtcm 3 == 0xDEADBEEF#32 && t.phase == .done &&
        t.ri == 1) = true := by decide
/-- V53: the empty list goes to DONE with no transaction; P1: the first step takes up region 0. -/
theorem test_run :
    nextWith (exec (.run false) (State.powerOn Config.default [])) (fun t => t.phase == .done && t.trace == []) = true ∧
    nextWith (exec (.run false) (State.powerOn Config.default [p1]))
      (fun t => t.phase == .resolve && t.ri == 0 && t.work.curStart == 0x20002000#32 && t.work.curEnd == 0x20006FFF#32 &&
        t.work.curType == .dtcm) = true := by decide
/-- V56: a list that holds reserved bits is refused; V55: a trigger in FIRST. -/
theorem test_run_refuses :
    stopOf? (exec (.run false) (State.powerOn Config.default [p1, v56])) = some .reservedBits ∧
    stopOf? (exec (.run false) (st Config.default [p1] .first (lutWork 0 1 8 8))) = some .reentry := by decide
/-- P1: the whole trace, and the word. -/
theorem test_nsr_dtcm :
    nextWith (exec (.nsrDtcm 0x20002000#32 0x20006FFF#32) (st Config.default [p1] .resolve Work.reset))
      (fun t => t.lutWord .dtcm 0 == 0x7C#32 && t.phase == .done && t.ri == 1 &&
        t.trace == [rd 0x40000104#32 7, rd 0x40000110#32 0, wr 0x40000110#32 0x7C#32]) = true := by decide
/-- P7: `start > end` is refused. -/
theorem test_nsr_dtcm_refused :
    stopOf? (exec (.nsrDtcm 0x20006FFF#32 0x20002000#32) (st Config.default [p1] .resolve Work.reset)) =
      some .illFormedRegion := by decide
/-- P5: a misaligned ITCM region with 32-byte blocks, blocks 9 to 34. -/
theorem test_nsr_itcm :
    nextWith (exec (.nsrItcm 0x00000123#32 0x00000456#32)
        (st (cfgItcm { Config.default.itcm with cfgValue := 0 }) [p1] .resolve Work.reset))
      (fun t => t.lutWord .itcm 0 == 0xFFFFFE00#32 && t.lutWord .itcm 1 == 7 && t.phase == .done &&
        t.trace == [rd 0x40000004#32 0, rd 0x40000010#32 0, wr 0x40000010#32 0xFFFFFE00#32, rd 0x40000014#32 0,
          wr 0x40000014#32 7]) = true := by decide
/-- P6: the whole ITCM window, six words between. -/
theorem test_nsr_itcm_window :
    nextWith (exec (.nsrItcm 0x00000000#32 0x0003FFFF#32) (st Config.default [p1] .resolve Work.reset))
      (fun t => t.lutWord .itcm 7 == 0xFFFFFFFF#32 && t.lutWord .itcm 8 == 0 && t.trace.length == 11) = true := by decide

/-! ### Witnesses: decoding and stepping -/

theorem witness_EncodeOfDecoded : decode [0b0110#8] = .ok .mid ∧
    decode (encodeRegion ⟨0xFFFFFFFF#32, 0#32, .dtcm⟩).toBytes = .ok (.nsrDtcm 0xFFFFFFFF#32 0#32) := by decide
/-- The lowest and the highest reserved bit, in IDLE and in DONE. -/
theorem witness_ReservedBitsSpellNothing :
    v56.w2.getLsbD 1 = true ∧ (0x80000000#32).getLsbD 31 = true ∧ v56 ∈ (State.powerOn Config.default [p1, v56]).regions ∧
    (State.powerOn Config.default [p1, v56]).phase = .idle ∧ (st Config.default [v56] .done Work.reset).phase = .done := by
  decide
/-- A busy state without input in both step sizes, and a start trigger. -/
theorem witness_StepRunsDecodedInstruction :
    let s := st Config.default [p1] .resolve (addrWork 0x20002000#32 0x20006FFF#32)
    let r : State := { s with grain := .region }
    s.cfg.wf = true ∧ s.input = .quiet ∧ s.busy = true ∧ decode (fetchBytes s) = .ok .resolve ∧
    decode (fetchBytes r) = .ok (.nsrDtcm 0x20002000#32 0x20006FFF#32) ∧ r.regions[r.ri]? = some p1 ∧
    ({ s with inputs := [.start] } : State).input = .start ∧
    (State.powerOn Config.default [p1]).phase = .idle ∧ (s.toPhase .done).phase = .done ∧ s.grain = .phase ∧
    (r.toPhase .mid).phase ≠ .resolve := by decide

/-! ### Witnesses: RESOLVE and TRANSLATE -/

/-- T0, the smallest field and the largest. -/
theorem witness_ResolveReadsBlockSize :
    (st Config.default [] .resolve dtcmWork).cfg.wf = true ∧
    (st (cfgDtcm { Config.default.dtcm with cfgValue := 0 }) [] .resolve dtcmWork).cfg.wf = true ∧
    (st (cfgDtcm { Config.default.dtcm with cfgValue := 0xF0000000#32, blkszLsb := 28, blkszWidth := 4 }) [] .resolve
      dtcmWork).cfg.wf = true := by decide
theorem witness_ShiftIsDivision : Config.default.itcm.wf ∧ Config.default.dtcm.wf := by decide
/-- A whole window, its last byte, and an aligned region under the option. -/
theorem witness_TranslateComputesBlockRange :
    let a := st Config.default [] .translate (addrWork 0x20000000#32 0x200FFFFF#32)
    let b := st Config.default [] .translate (addrWork 0x200FFFFF#32 0x200FFFFF#32)
    let c := st cfgCheck [] .translate (addrWork 0x20008000#32 0x20008FFF#32)
    a.work.blocksize.toNat = 2 ^ a.work.shift.toNat ∧ inWindow a.params a.work.curStart a.work.curEnd = true ∧
    inWindow b.params b.work.curStart b.work.curEnd = true ∧ inWindow c.params c.work.curStart c.work.curEnd = true ∧
    (c.work.curStart - c.params.base) % c.work.blocksize = 0#32 ∧
    (c.work.curEnd + 1#32 - c.params.base) % c.work.blocksize = 0#32 := by decide
/-- V30a without the option, and with it. -/
theorem witness_TranslateRefusesIllFormed :
    let a := st Config.default [] .translate (addrWork 0x20000000#32 0x20100000#32)
    let b := st cfgCheck [] .translate (addrWork 0x20000000#32 0x20100000#32)
    a.cfg.checkPreconditions = false ∧ inWindow a.params a.work.curStart a.work.curEnd = false ∧
    b.cfg.checkPreconditions = true ∧ inWindow b.params b.work.curStart b.work.curEnd = false := by decide
/-- V60, V30 and V61, V59 at both ends, and a region that passes: ORDER by one byte, WINDOW by one byte at each edge. -/
theorem witness_AbortReportsFirstFailedCheck :
    let p := cfgCheck.dtcm
    (0x20001FFF#32).toNat < (0x20002000#32).toNat ∧
    (0x1FFFFFFF#32).toNat < p.base.toNat ∧ p.base.toNat + p.size < (0x20100000#32).toNat + 1 ∧
    ¬ p.base.toNat + p.size < (0x200FFFFF#32).toNat + 1 ∧
    (0x20008010#32 - p.base) % 4096#32 ≠ 0#32 ∧ (0x20008FFE#32 + 1#32 - p.base) % 4096#32 ≠ 0#32 ∧
    (0x20008000#32 - p.base) % 4096#32 = 0#32 ∧ (0x20008FFF#32 + 1#32 - p.base) % 4096#32 = 0#32 := by decide
/-- A trigger in ABORT, and a reset in ABORT. -/
theorem witness_AbortIsTerminal :
    let s := st cfgCheck [p1] .abort Work.reset
    s.cfg.wf = true ∧ s.phase = .abort ∧ (∀ x ∈ [Input.start, .quiet, .start].take 3, x ≠ .reset) ∧
    ({ s with inputs := [.reset] } : State).inputs = .reset :: [] := by decide
/-- V60 in both step sizes writes the abort registers. -/
theorem witness_AbortRegistersWrittenOnlyByAbort :
    let s := st cfgCheck [⟨0x20006FFF#32, 0x20002000#32, 1#32⟩] .translate (addrWork 0x20006FFF#32 0x20002000#32)
    (∃ t, step s = .next t ∧ decide (¬ keepsAbort s t) = true) ∧
    (∃ t, step { s with phase := .resolve, grain := .region } = .next t ∧ decide (¬ keepsAbort s t) = true) :=
  ⟨exists_next_with (by decide), exists_next_with (by decide)⟩
theorem witness_BlockRangeInOrder :
    inWindow Config.default.dtcm 0x20000000#32 0x200FFFFF#32 = true ∧
    inWindow Config.default.dtcm 0x20000000#32 0x20000000#32 = true ∧ Config.default.dtcm.base = 0x20000000#32 := by decide
/-- V28. -/
theorem witness_MisalignedRegionIsCovered :
    (cfgItcm { Config.default.itcm with cfgValue := 0 }).wf = true ∧
    inWindow (cfgItcm { Config.default.itcm with cfgValue := 0 }).itcm 0x00000123#32 0x00000456#32 = true := by decide

/-! ### Witnesses: the mask and the programming phases -/

theorem witness_MaskIsRunOfOnes : (0 : BitVec 5) ≤ 0 ∧ (0 : BitVec 5) ≤ 31 ∧ (31 : BitVec 5) ≤ 31 := by decide
theorem witness_MaskPropertiesHold : (0 : BitVec 5) ≤ 31 ∧ (0 : BitVec 5) ≤ 30 ∧ (30 : BitVec 5) < 31 := by decide
/-- The largest range that fits (V48), one block, a word boundary (V46), and a range out of order by one word. -/
theorem witness_SplitLocatesBoundaries :
    let a := st Config.default [] .split (blockWork 0 511)
    let b := st Config.default [] .split (blockWork 511 511)
    let c := st Config.default [] .split (blockWork 63 64)
    let d := st Config.default [] .split (blockWork 64 63)
    let e := st Config.default [] .split (blockWork 600 512)
    (a.work.startBlock.toNat ≤ a.work.endBlock.toNat ∧ a.work.endBlock.toNat / 32 < a.params.nLutWords) ∧
    (b.work.startBlock.toNat ≤ b.work.endBlock.toNat ∧ b.work.endBlock.toNat / 32 < b.params.nLutWords) ∧
    (c.work.startBlock.toNat ≤ c.work.endBlock.toNat ∧ c.work.endBlock.toNat / 32 < c.params.nLutWords) ∧
    (d.work.endBlock.toNat / 32 < d.work.startBlock.toNat / 32 ∧ d.work.endBlock.toNat / 32 < d.params.nLutWords) ∧
    e.work.endBlock.toNat / 32 < e.work.startBlock.toNat / 32 := by decide
/-- A range out of order inside one word, V52, and a range for which both conditions hold (log entry 27). -/
theorem witness_SplitRefusesUndefinedInputs :
    stopOf? (exec .split (st Config.default [] .split (blockWork 3 2))) = some .emptyCase ∧
    stopOf? (exec .split (st Config.default [] .split (blockWork 0 512))) = some .lutIndexOutOfRange ∧
    stopOf? (exec .split (st Config.default [] .split (blockWork 600 512))) = some .emptyCase := by decide
/-- The first and the last LUT word of either type. -/
theorem witness_OrMergeReadsThenWrites :
    State.reset.cfg.wf = true ∧ State.reset.mem.wf ∧ (0#32).toNat < (State.reset.cfg.of .itcm).nLutWords ∧
    (15#32).toNat < (State.reset.cfg.of .dtcm).nLutWords := by decide
theorem witness_FillWritesAllOnes :
    State.reset.cfg.wf = true ∧ State.reset.mem.wf ∧ (15#32).toNat < (State.reset.cfg.of .itcm).nLutWords := by decide
/-- V49's word and bits with a region to follow, and an index one past the array. -/
theorem witness_SingleMergesItsRange :
    let s := st Config.default [p1, p1] .single (lutWork 15 15 31 31)
    let u := st Config.default [p1] .single (lutWork 16 16 0 31)
    s.cfg.wf = true ∧ s.mem.wf ∧ s.work.startOffset ≤ s.work.endOffset ∧ s.work.startLut.toNat < s.params.nLutWords ∧
    canTakeUp s (s.ri + 1) ∧ canTakeUp u (u.ri + 1) ∧ u.work.startOffset ≤ u.work.endOffset ∧
    u.params.nLutWords ≤ u.work.startLut.toNat :=
  ⟨by decide, by decide, by decide, by decide, rfl, trivial, by decide, by decide⟩
/-- With and without a word between (V47, V46), and an index one past the array. -/
theorem witness_FirstMergesUpperBits :
    let s := st Config.default [p1] .first (lutWork 3 6 4 8)
    let u := st Config.default [p1] .first (lutWork 14 15 31 0)
    s.cfg.wf = true ∧ s.mem.wf ∧ s.cfg.mergePolicy = .uniformOr ∧ s.work.startLut.toNat < s.params.nLutWords ∧
    s.work.startLut + 1#32 < s.work.endLut ∧ ¬ u.work.startLut + 1#32 < u.work.endLut ∧
    u.work.startLut.toNat < u.params.nLutWords ∧
    (st Config.default [p1] .first (lutWork 16 17 0 0)).params.nLutWords ≤ (lutWork 16 17 0 0).startLut.toNat := by decide
theorem witness_FirstAssignsUnderLegacy :
    let s := st cfgLegacy [p1] .first (lutWork 15 15 8 8)
    s.cfg.wf = true ∧ s.mem.wf ∧ s.cfg.mergePolicy = .legacyAssign ∧ s.work.startLut.toNat < s.params.nLutWords ∧
    (st cfgLegacy [p1] .first (lutWork 16 17 0 0)).params.nLutWords ≤ (lutWork 16 17 0 0).startLut.toNat := by decide
/-- The first word between, with more to come, the last one, and an index one past the array. -/
theorem witness_MidFillsOneWord :
    let s := (st Config.default [p1] .mid (lutWork 0 15 0 31)).setWi 1
    s.cfg.wf = true ∧ s.mem.wf ∧ s.wi.toNat < s.params.nLutWords ∧ s.work.startLut < s.wi ∧ s.wi < s.work.endLut ∧
    s.phase = .mid ∧ nextWith (exec .mid s) (fun t => t.phase == .mid) = true ∧
    (s.setWi 14).wi < s.work.endLut ∧ ¬ (s.setWi 14).wi + 1#32 < s.work.endLut ∧
    s.params.nLutWords ≤ (s.setWi 16).wi.toNat := by decide
/-- The last LUT word at the end of the list, and an index one past the array. -/
theorem witness_LastMergesLowerBits :
    let s := st Config.default [p1] .last (lutWork 14 15 31 31)
    let u := st Config.default [p1] .last (lutWork 14 16 31 0)
    s.cfg.wf = true ∧ s.mem.wf ∧ s.work.endLut.toNat < s.params.nLutWords ∧ canTakeUp s (s.ri + 1) ∧
    u.params.nLutWords ≤ u.work.endLut.toNat :=
  ⟨by decide, by decide, by decide, trivial, by decide⟩
/-- The first clause with a word that exists and with one that does not (log entry 27), and the other two. -/
theorem witness_ProgrammingPhasesStop :
    let s := st Config.default [p1, v56] .single (lutWork 15 15 3 3)
    let u := st Config.default [p1] .single (lutWork 16 16 3 2)
    (lutWork 0 0 3 2).endOffset < (lutWork 0 0 3 2).startOffset ∧
    u.work.endOffset < u.work.startOffset ∧ u.params.nLutWords ≤ u.work.startLut.toNat ∧ ¬ canTakeUp s (s.ri + 1) ∧
    s.work.startOffset ≤ s.work.endOffset ∧ s.work.startLut.toNat < s.params.nLutWords ∧
    s.work.endLut.toNat < s.params.nLutWords :=
  ⟨by decide, by decide, by decide, show ¬ (decodeRegion v56).toBool = true by decide, by decide, by decide, by decide⟩

/-! ### Witnesses: RUN, reset, inputs -/

theorem witness_RunTakesUpFirstRegion :
    let s := State.powerOn Config.default []
    let u := st Config.default [p1] .done Work.reset
    s.phase = .idle ∧ regionsDecode s.regions = true ∧ s.regions = [] ∧ u.phase = .done ∧
    regionsDecode u.regions = true ∧ u.regions = p1 :: [] := by decide
theorem witness_EmptyListRunsToDone :
    let s : State := { State.reset with inputs := [.start] }
    s.cfg.wf = true ∧ s.regions = [] ∧ s.phase = .idle ∧ (s.toPhase .done).phase = .done ∧ s.input = .start := by decide
theorem witness_TriggerOutsideIdleAndDone :
    let s : State := { st Config.default [p1] .first (lutWork 0 1 0 0) with inputs := [.start] }
    s.cfg.wf = true ∧ s.input = .start ∧ s.busy = true ∧ (s.toPhase .resolve).busy = true ∧ (s.toPhase .last).busy = true ∧
    (s.toPhase .abort).phase = .abort := by decide
theorem witness_WaitsForTrigger :
    State.reset.cfg.wf = true ∧ State.reset.input = .quiet ∧ State.reset.busy = false ∧
    (State.reset.toPhase .done).busy = false ∧ (State.reset.toPhase .abort).busy = false := by decide
theorem witness_ResetReturnsToIdle :
    let s : State := { st Config.default [p1] .mid (lutWork 0 5 0 0) with inputs := [.reset], wi := 3 }
    s.cfg.wf = true ∧ s.input = .reset := by decide
theorem witness_BadParametersRefused :
    stopOf? (step (st (cfgDtcm { Config.default.dtcm with nLutWords := 0 }) [] .idle Work.reset)) = some .badParameters := by
  decide
/-- A step of each kind of move that writes `wi`: FIRST to MID, MID to MID, and a reset. -/
theorem witness_PositionFollowsTable :
    let f := st Config.default [p1] .first (lutWork 3 6 4 8)
    let m := (st Config.default [p1] .mid (lutWork 3 6 4 8)).setWi 4
    f.grain = .phase ∧ (∃ t, step f = .next t ∧ decide (t.wi ≠ f.wi) = true) ∧
    (∃ t, step m = .next t ∧ decide (t.wi ≠ m.wi) = true) ∧
    ∃ t, step { m with inputs := [.reset] } = .next t ∧ decide (t.wi ≠ m.wi) = true :=
  ⟨rfl, exists_next_with (by decide), exists_next_with (by decide), exists_next_with (by decide)⟩

/-! ### Witnesses: the two instructions -/

/-- P1 for DTCM with nothing to follow, P6's whole window for ITCM with a region to follow. -/
theorem witness_NsrSetsExactlyItsBlocks :
    let s := st Config.default [p1] .resolve Work.reset
    let u := st cfgCheck [p1, p1] .resolve Work.reset
    s.cfg.wf = true ∧ s.mem.wf ∧ s.cfg.mergePolicy = .uniformOr ∧
    Region.accepted s.cfg { start := 0x20002000#32, stop := 0x20006FFF#32, type := .dtcm } ∧ canTakeUp s (s.ri + 1) ∧
    u.cfg.wf = true ∧ Region.accepted u.cfg { start := 0x00000000#32, stop := 0x0003FFFF#32, type := .itcm } ∧
    canTakeUp u (u.ri + 1) :=
  ⟨by decide, by decide, rfl, by decide, trivial, by decide, by decide, rfl⟩
/-- The same hypotheses; one word (P1) and several (P3). -/
theorem witness_NsrTransactions :
    let s := st Config.default [p1] .resolve Work.reset
    s.cfg.wf = true ∧ s.mem.wf ∧ s.cfg.mergePolicy = .uniformOr ∧ canTakeUp s (s.ri + 1) ∧
    Region.accepted s.cfg { start := 0x20002000#32, stop := 0x20006FFF#32, type := .dtcm } ∧
    Region.accepted s.cfg { start := 0x2000A000#32, stop := 0x20046FFF#32, type := .dtcm } :=
  ⟨by decide, by decide, rfl, trivial, by decide, by decide⟩
/-- V29; V63; V59. -/
theorem witness_NsrStops :
    let c := cfgDtcm { Config.default.dtcm with cfgValue := 0 }
    Config.default.wf = true ∧ c.wf = true ∧ cfgCheck.wf = true ∧
    inWindow Config.default.dtcm 0x20006FFF#32 0x20002000#32 = false ∧ inWindow c.dtcm 0x20000000#32 0x200FFFFF#32 = true ∧
    ¬ Region.fits c { start := 0x20000000#32, stop := 0x200FFFFF#32, type := .dtcm } ∧
    ¬ (inWindow cfgCheck.dtcm 0x20008010#32 0x20008FFF#32 = true ∧
      Region.aligned cfgCheck { start := 0x20008010#32, stop := 0x20008FFF#32, type := .dtcm }) := by decide
/-- P3's region, and V59's aborting one. -/
theorem witness_NsrIsThePhaseWalk :
    let s := st Config.default [p1] .resolve { dtcmWork with curStart := 0x2000A000#32, curEnd := 0x20046FFF#32 }
    let u := st cfgCheck [p1] .resolve { dtcmWork with curStart := 0x20008010#32, curEnd := 0x20008FFF#32 }
    s.cfg.wf = true ∧ s.grain = .phase ∧ s.inputs = [] ∧ s.phase = .resolve ∧ Region.accepted s.cfg s.curRegion ∧
    canTakeUp s (s.ri + 1) ∧ u.cfg.wf = true ∧ u.cfg.checkPreconditions = true ∧
    ¬ (inWindow (u.cfg.of u.curRegion.type) u.curRegion.start u.curRegion.stop = true ∧ Region.aligned u.cfg u.curRegion) :=
  ⟨by decide, rfl, rfl, rfl, by decide, trivial, by decide, rfl, by decide⟩
theorem witness_NsrIdempotent :
    let s := st Config.default [p1] .resolve Work.reset
    s.cfg.wf = true ∧ s.mem.wf ∧ s.cfg.mergePolicy = .uniformOr ∧
    Region.accepted s.cfg { start := 0x20002000#32, stop := 0x20006FFF#32, type := .dtcm } ∧
    ∃ t, exec (nsr .dtcm 0x20002000#32 0x20006FFF#32) s = .next t ∧
      (nextOf? (exec (nsr .dtcm 0x20002000#32 0x20006FFF#32) t)).isSome = true :=
  ⟨by decide, by decide, rfl, by decide, exists_next_with (by decide)⟩
/-- V43's two regions, which share a LUT word. -/
theorem witness_NsrCommute :
    let s := st Config.default [p1] .resolve Work.reset
    s.cfg.wf = true ∧ s.mem.wf ∧ s.cfg.mergePolicy = .uniformOr ∧
    Region.accepted s.cfg { start := 0x20002000#32, stop := 0x20006FFF#32, type := .dtcm } ∧
    Region.accepted s.cfg { start := 0x20008000#32, stop := 0x20028FFF#32, type := .dtcm } ∧
    (∃ t, exec (nsr .dtcm 0x20002000#32 0x20006FFF#32) s = .next t ∧
      (nextOf? (exec (nsr .dtcm 0x20008000#32 0x20028FFF#32) t)).isSome = true) ∧
    ∃ t, exec (nsr .dtcm 0x20008000#32 0x20028FFF#32) s = .next t ∧
      (nextOf? (exec (nsr .dtcm 0x20002000#32 0x20006FFF#32) t)).isSome = true :=
  ⟨by decide, by decide, rfl, by decide, by decide, exists_next_with (by decide), exists_next_with (by decide)⟩

/-! ### Witnesses: the whole machine -/

/-- A `LUT_RESET` that lists the last byte of the DTCM array. -/
theorem witness_PowerOnMeetsInvariant :
    let c : Config := { Config.default with lutReset := [(0x4000014F, 0x80#8)] }
    c.wf = true ∧ Memory.wf c.lutReset ∧ ∀ x ∈ c.lutReset, c.itcm.inLut x.1 ∨ c.dtcm.inLut x.1 := by decide

/-- A state that meets the invariant in the middle of P3: LAST, with word 3 set. -/
def lastOfP3 : State :=
  putDtcm 3 0xDEADBEEF#32
    (st Config.default [⟨0x2000A000#32, 0x20046FFF#32, 1#32⟩] .last
      { addrWork 0x2000A000#32 0x20046FFF#32 with startLut := 0, endLut := 2, startOffset := 10, endOffset := 6 })

theorem lastOfP3_inv : lastOfP3.Inv where
  params := by decide
  canonical := by decide
  inLut := by decide
  events := fun _ h => nomatch h
  position := ⟨⟨by decide, ⟨0x2000A000#32, 0x20046FFF#32, 1#32⟩, rfl, rfl⟩, by decide, by decide⟩

theorem witness_StepKeepsInvariant : lastOfP3.Inv ∧ ∃ t, step lastOfP3 = .next t :=
  ⟨lastOfP3_inv, exists_next (by decide)⟩

/-- The invariant of a state with nothing stored and nothing traced. -/
theorem inv_of_empty {s : State} (hc : s.cfg.wf = true) (hm : s.mem = []) (ht : s.trace = []) (hp : positionOk s) : s.Inv where
  params := hc
  canonical := hm ▸ show Memory.wf [] by decide
  inLut := fun _ h => nomatch (hm ▸ h)
  events := fun _ h => nomatch (ht ▸ h)
  position := hp

/-- The descriptors of V29 (`start > end`) and V63 (too large with 32-byte blocks). -/
def v29 : Descriptor := { w0 := 0x20006FFF#32, w1 := 0x20002000#32, w2 := 0x00000001#32 }
def v63 : Descriptor := { w0 := 0x20000000#32, w1 := 0x200FFFFF#32, w2 := 0x00000001#32 }

/-- T0 with 32-byte DTCM blocks, as V63 has it. -/
def cfgV63 : Config := cfgDtcm { Config.default.dtcm with cfgValue := 0 }

/-- Ill-formed at TRANSLATE and with the descriptor whole. -/
theorem witness_StopsOnlyWhereNamed_illFormed :
    let s := st Config.default [v29] .translate (addrWork 0x20006FFF#32 0x20002000#32)
    let u : State := { s with phase := .resolve, grain := .region }
    s.Inv ∧ stopOf? (step s) = some .illFormedRegion ∧ u.Inv ∧ stopOf? (step u) = some .illFormedRegion :=
  ⟨inv_of_empty (by decide) rfl rfl ⟨⟨by decide, v29, rfl, rfl⟩, by decide, by decide⟩, by decide,
   inv_of_empty (by decide) rfl rfl ⟨by decide, v29, rfl, rfl⟩, by decide⟩
/-- V63 at SPLIT, blocks 0 to 32767, and with the descriptor whole; and block 512, the first that does not fit. -/
theorem witness_StopsOnlyWhereNamed_doesNotFit :
    let s := st cfgV63 [v63] .split { addrWork 0x20000000#32 0x200FFFFF#32 with startBlock := 0, endBlock := 32767 }
    let u : State := { s with phase := .resolve, grain := .region }
    let v := s.setWork { s.work with endBlock := 512 }
    s.Inv ∧ stopOf? (step s) = some .lutIndexOutOfRange ∧ u.Inv ∧ stopOf? (step u) = some .lutIndexOutOfRange ∧
    v.Inv ∧ stopOf? (step v) = some .lutIndexOutOfRange :=
  ⟨inv_of_empty (by decide) rfl rfl ⟨⟨by decide, v63, rfl, rfl⟩, by decide⟩, by decide,
   inv_of_empty (by decide) rfl rfl ⟨by decide, v63, rfl, rfl⟩, by decide,
   inv_of_empty (by decide) rfl rfl ⟨⟨by decide, v63, rfl, rfl⟩, by decide⟩, by decide⟩
/-- V56's list at RUN, in IDLE and in DONE. -/
theorem witness_StopsOnlyWhereNamed_reservedBits :
    let s : State := { State.powerOn Config.default [v56] with inputs := [.start] }
    let u : State := { s with phase := .done, ri := 1 }
    s.Inv ∧ stopOf? (step s) = some .reservedBits ∧ u.Inv ∧ stopOf? (step u) = some .reservedBits :=
  ⟨inv_of_empty (by decide) rfl rfl rfl, by decide, inv_of_empty (by decide) rfl rfl rfl, by decide⟩
/-- A trigger while busy. -/
theorem witness_StopsOnlyWhereNamed_reentry :
    ({ lastOfP3 with inputs := [.start] } : State).Inv ∧
    stopOf? (step { lastOfP3 with inputs := [.start] }) = some .reentry :=
  ⟨⟨lastOfP3_inv.params, lastOfP3_inv.canonical, lastOfP3_inv.inLut, lastOfP3_inv.events, lastOfP3_inv.position⟩, by decide⟩
theorem witness_LutBitsNeverCleared :
    lastOfP3.cfg.mergePolicy = .uniformOr ∧ lastOfP3.mem.wf ∧ (∃ t, step lastOfP3 = .next t) ∧
    (3#32).toNat < (lastOfP3.cfg.of .dtcm).nLutWords ∧ lastOfP3.lutBit .dtcm 3 0 = true :=
  ⟨rfl, by decide, exists_next (by decide), by decide, by decide⟩
theorem witness_ParametersAndProgramConstant : ∃ t, step lastOfP3 = .next t := exists_next (by decide)
/-- A step with a read and a write. -/
theorem witness_TraceReplaysToMemory : ∃ t, step lastOfP3 = .next t ∧ (t.trace.length == 2) = true :=
  exists_next_with (by decide)
theorem witness_BusStaysWithCurrentType : lastOfP3.Inv ∧ ∃ t, step lastOfP3 = .next t ∧ (t.trace.length == 2) = true :=
  ⟨lastOfP3_inv, exists_next_with (by decide)⟩
/-- Two states that differ in registers LAST does not read. -/
theorem witness_WorkingRegistersTransient :
    let s' : State := { lastOfP3 with wi := 9, work := { lastOfP3.work with mask := 1, rdata := 2, startBlock := 3 } }
    lastOfP3 ≠ s' ∧ lastOfP3.observed = s'.observed := by decide

/-- P1 ready to run; from IDLE, and from DONE with a prior trace. -/
theorem p1_ready (p : Phase) (prior : List BusEvent) (h : p = .idle ∨ p = .done) :
    ({ st Config.default [p1] p Work.reset with inputs := [.start], trace := prior } : State).RunReady prior [] where
  paramsOk := show Config.default.wf = true by decide
  listWellFormed := by
    intro d hd
    obtain rfl := List.mem_singleton.mp hd
    exact ⟨⟨0x20002000#32, 0x20006FFF#32, .dtcm⟩, rfl, show Region.wf Config.default _ by decide⟩
  entryClean := ⟨h, rfl⟩
  initialLut := ⟨rfl, show Memory.wf [] by decide⟩
  policy := rfl
  trigger := rfl

/-- Without the option, and with it for a list of aligned regions. -/
theorem witness_RunReachesDone :
    (∃ s : State, s.RunReady [] [] ∧ ListAligned s.cfg s.regions) ∧ ListAligned cfgCheck [p1] := by
  refine ⟨⟨_, p1_ready .idle [] (.inl rfl), fun h => nomatch h⟩, fun _ d hd r hr => ?_⟩
  obtain rfl := List.mem_singleton.mp hd
  obtain rfl := Except.ok.inj hr
  decide
theorem witness_RerunLeavesLutUnchanged :
    ∃ s : State, s.phase = .done ∧ s.RunReady [rd 0x40000104#32 7] [] ∧ ListAligned s.cfg s.regions :=
  ⟨_, rfl, p1_ready .done [rd 0x40000104#32 7] (.inr rfl), fun h => nomatch h⟩

/-- V59's second descriptor, misaligned. -/
def v59 : Descriptor := { w0 := 0x20008010#32, w1 := 0x20008FFF#32, w2 := 0x00000001#32 }

/-- V59's list, its second region the misaligned one; it is well-formed all the same (41_region_translator.md R70). -/
theorem witness_RunAbortsAtMisalignedRegion :
    let s : State := { st cfgCheck [p1, v59] .idle Work.reset with inputs := [.start] }
    let r : Region := { start := 0x20008010#32, stop := 0x20008FFF#32, type := .dtcm }
    s.RunReady [] [] ∧ s.cfg.checkPreconditions = true ∧ s.regions = [p1] ++ v59 :: [] ∧ ListAligned s.cfg [p1] ∧
    decodeRegion v59 = .ok r ∧ ¬ r.aligned s.cfg := by
  intro s r
  refine ⟨⟨show cfgCheck.wf = true by decide, ?_, ⟨.inl rfl, rfl⟩, ⟨rfl, by decide⟩, rfl, rfl⟩, rfl, rfl, witness_RunReachesDone.2, rfl, by decide⟩
  intro d hd
  rcases List.mem_cons.mp hd with rfl | hd
  · exact ⟨⟨0x20002000#32, 0x20006FFF#32, .dtcm⟩, rfl, by decide⟩
  · obtain rfl := List.mem_singleton.mp hd
    exact ⟨r, rfl, by decide⟩
/-- A run of one step with a read and a write. -/
theorem witness_EveryRunMeetsPlatformPremises :
    ∃ t, runSteps 1 lastOfP3 = .next t ∧ (t.trace.length == 2) = true :=
  exists_next_with (by decide)

end Sys2Proof.Tests
end

section
/-! PROOFS. O33: which refusals the instructions' meanings can answer, and that `badParameters` is none of them. -/

namespace Sys2Proof.Machine

/-- The refusals that `exec` can answer (60_exceptions.md R103); the others are raised by `step` or by no one. -/
def Refusal.fromExec : Refusal → Bool
  | .reservedBits => true
  | .illFormedRegion => true
  | .emptyCase => true
  | .lutIndexOutOfRange => true
  | .reentry => true
  | .notModelled _ => false
  | .badParameters => false
  | .undefinedPhase => false

/-- An outcome whose refusal, if it is one, is one of `exec`'s. -/
def OnlyExecRefusals (o : Result) : Prop :=
  ∀ r, o = .refused r → r.fromExec = true

theorem OnlyExecRefusals.next (s : State) : OnlyExecRefusals (.next s) := fun _ h => nomatch h

theorem OnlyExecRefusals.refused {r : Refusal} (h : r.fromExec = true) : OnlyExecRefusals (.refused r) := by
  rintro _ ⟨⟩
  exact h

theorem OnlyExecRefusals.andThen {o : Result} {f : State → Result} (ho : OnlyExecRefusals o)
    (hf : ∀ s, OnlyExecRefusals (f s)) : OnlyExecRefusals (andThen o f) := by
  intro r h
  rcases andThen_eq_refused.1 h with h | ⟨s, -, h⟩
  · exact ho r h
  · exact hf s r h

/-! ### The shared operations -/

theorem orMerge_onlyExecRefusals (t : MemType) (w m : Word) (s : State) : OnlyExecRefusals (orMerge t w m s) := by
  intro r h
  obtain ⟨-, rfl⟩ := orMerge_eq_refused.1 h
  rfl

theorem assign_onlyExecRefusals (t : MemType) (w v : Word) (s : State) : OnlyExecRefusals (assign t w v s) := by
  intro r h
  obtain ⟨-, rfl⟩ := assign_eq_refused.1 h
  rfl

theorem enterRegion_onlyExecRefusals (n : Nat) (s : State) : OnlyExecRefusals (enterRegion n s) := by
  intro r h
  obtain ⟨rfl, -⟩ := enterRegion_eq_refused.1 h
  rfl

/-! ### The phases -/

theorem execTranslate_onlyExecRefusals (s : State) : OnlyExecRefusals (execTranslate s) := by
  intro r h
  obtain ⟨-, -, rfl⟩ := execTranslate_eq_refused.1 h
  rfl

theorem execSplit_onlyExecRefusals (s : State) : OnlyExecRefusals (execSplit s) := by
  intro r h
  rcases execSplit_eq_refused.1 h with ⟨rfl, -⟩ | ⟨rfl, -⟩ <;> rfl

theorem execSingle_onlyExecRefusals (s : State) : OnlyExecRefusals (execSingle s) := by
  unfold execSingle
  split
  · exact (orMerge_onlyExecRefusals _ _ _ _).andThen fun _ => enterRegion_onlyExecRefusals _ _
  · exact .refused rfl

theorem execFirst_onlyExecRefusals (s : State) : OnlyExecRefusals (execFirst s) := by
  refine OnlyExecRefusals.andThen ?_ fun _ => .next _
  split
  · exact orMerge_onlyExecRefusals _ _ _ _
  · exact assign_onlyExecRefusals _ _ _ _

theorem execMid_onlyExecRefusals (s : State) : OnlyExecRefusals (execMid s) :=
  (assign_onlyExecRefusals _ _ _ _).andThen fun _ => .next _

theorem execLast_onlyExecRefusals (s : State) : OnlyExecRefusals (execLast s) :=
  (orMerge_onlyExecRefusals _ _ _ _).andThen fun _ => enterRegion_onlyExecRefusals _ _

/-! ### The composites -/

theorem midSteps_onlyExecRefusals (n : Nat) (s : State) : OnlyExecRefusals (midSteps n s) := by
  induction n generalizing s with
  | zero => exact .next s
  | succ n ih => exact (execMid_onlyExecRefusals s).andThen ih

theorem program_onlyExecRefusals (s : State) : OnlyExecRefusals (program s) := by
  refine (execSplit_onlyExecRefusals s).andThen fun s1 => ?_
  split
  · exact execSingle_onlyExecRefusals s1
  · exact (execFirst_onlyExecRefusals s1).andThen fun s2 =>
      (midSteps_onlyExecRefusals s2.midCount s2).andThen execLast_onlyExecRefusals

theorem execRegion_onlyExecRefusals (r : Region) (s : State) : OnlyExecRefusals (execRegion r s) := by
  refine (OnlyExecRefusals.next _).andThen fun s1 => (execTranslate_onlyExecRefusals s1).andThen fun s2 => ?_
  split
  · exact .next s2
  · exact program_onlyExecRefusals s2

theorem execRun_onlyExecRefusals (b : Bool) (s : State) : OnlyExecRefusals (execRun b s) := by
  have start : OnlyExecRefusals (if regionsDecode s.regions then enterRegion 0 s else .refused .reservedBits) := by
    split
    · exact enterRegion_onlyExecRefusals 0 s
    · exact .refused rfl
  unfold execRun
  split
  · exact start
  · exact start
  · exact .next s
  · exact .refused rfl

/-- No meaning answers `notModelled`, `badParameters` or `undefinedPhase`. -/
theorem exec_onlyExecRefusals (i : Instr) (s : State) : OnlyExecRefusals (exec i s) := by
  cases i with
  | nsrItcm start stop => exact execRegion_onlyExecRefusals ⟨start, stop, .itcm⟩ s
  | nsrDtcm start stop => exact execRegion_onlyExecRefusals ⟨start, stop, .dtcm⟩ s
  | run b => exact execRun_onlyExecRefusals b s
  | resolve => exact .next _
  | translate => exact execTranslate_onlyExecRefusals s
  | split => exact execSplit_onlyExecRefusals s
  | single => exact execSingle_onlyExecRefusals s
  | first => exact execFirst_onlyExecRefusals s
  | mid => exact execMid_onlyExecRefusals s
  | last => exact execLast_onlyExecRefusals s

theorem exec_ne_badParameters (i : Instr) (s : State) : exec i s ≠ .refused .badParameters :=
  fun h => nomatch exec_onlyExecRefusals i s _ h

theorem refusalOf_ne_badParameters (e : DecodeError) : refusalOf e ≠ .badParameters := by
  cases e <;> simp [refusalOf]

/-- Settles O33: `step` raises the refusal before anything else, and neither a meaning nor a failed fetch answers it. -/
theorem badParametersRefused : Obligations.BadParametersRefused := by
  intro s
  rw [step_eq_refused, Bool.not_eq_true]
  constructor
  · rintro (⟨hc, -⟩ | ⟨-, ⟨-, h⟩ | ⟨-, -, e, -, he⟩ | ⟨-, -, i, -, h⟩⟩)
    · exact hc
    · exact absurd h (exec_ne_badParameters (.run s.done) s.tick)
    · exact absurd he.symm (refusalOf_ne_badParameters e)
    · exact absurd h (exec_ne_badParameters i s.tick)
  · exact fun hc => .inl ⟨hc, rfl⟩

end Sys2Proof.Machine
end

section
/-! PROOFS. The operation of each phase, and an instruction of a descriptor as a walk of such operations, which carries
what one phase keeps over to both step sizes (44_orchestrator.md R95, 92_eei_decisions.md D16). -/

namespace Sys2Proof.Machine

/-- The operation of the phase the sequencer stands in; IDLE, DONE and ABORT have none (30_encoding.md R59). -/
def phaseOp (s : State) : Result :=
  match s.phase with
  | .idle => .next s
  | .resolve => execResolve s
  | .translate => execTranslate s
  | .split => execSplit s
  | .single => execSingle s
  | .first => execFirst s
  | .mid => execMid s
  | .last => execLast s
  | .done => .next s
  | .abort => .next s

/-- `n` phase operations, one after the other. -/
def phaseRun : Nat → State → Result
  | 0, s => .next s
  | n + 1, s => andThen (phaseOp s) (phaseRun n)

section

variable {s : State}

theorem phaseOp_resolve (h : s.phase = .resolve) : phaseOp s = execResolve s := by rw [phaseOp, h]
theorem phaseOp_translate (h : s.phase = .translate) : phaseOp s = execTranslate s := by rw [phaseOp, h]
theorem phaseOp_split (h : s.phase = .split) : phaseOp s = execSplit s := by rw [phaseOp, h]
theorem phaseOp_single (h : s.phase = .single) : phaseOp s = execSingle s := by rw [phaseOp, h]
theorem phaseOp_first (h : s.phase = .first) : phaseOp s = execFirst s := by rw [phaseOp, h]
theorem phaseOp_mid (h : s.phase = .mid) : phaseOp s = execMid s := by rw [phaseOp, h]
theorem phaseOp_last (h : s.phase = .last) : phaseOp s = execLast s := by rw [phaseOp, h]

end

/-- What every operation keeps, the operation of a phase keeps. -/
theorem OpRel.phaseOp {P : State → State → Prop} (hP : OpRel P) {s t : State} (h : phaseOp s = .next t) : P s t := by
  unfold Machine.phaseOp at h
  split at h
  case h_1 | h_9 | h_10 => exact Host.Outcome.next.inj h ▸ hP.refl _
  case h_2 => exact hP.resolve _ _ h
  case h_3 => exact hP.translate _ _ h
  case h_4 => exact hP.split _ _ h
  case h_5 => exact hP.single _ _ h
  case h_6 => exact hP.first _ _ h
  case h_7 => exact hP.mid _ _ h
  case h_8 => exact hP.last _ _ h

/-! ### What a step executes -/

/-- A busy block executes the operation of its phase, or at the start of a region, with grain `region`, the instruction
of the region's descriptor. The first alternative speaks of every state of the phase, so of the one a step has ticked. -/
theorem exec_of_fetch {s : State} {i : Instr} (hb : s.busy = true) (h : decode (fetchBytes s) = .ok i) :
    (∀ u : State, u.phase = s.phase → exec i u = phaseOp u) ∨
    (s.grain = .region ∧ s.phase = .resolve ∧
      ∃ d r, s.regions[s.ri]? = some d ∧ decodeRegion d = .ok r ∧ ∀ u, exec i u = execRegion r u) := by
  rcases fetchBytes_cases s with hf | ⟨hg, hp, d, hd, hf⟩
  · left
    intro u hu
    rcases decode_phase_of_busy hb (hf ▸ h) with
      ⟨hp, rfl⟩ | ⟨hp, rfl⟩ | ⟨hp, rfl⟩ | ⟨hp, rfl⟩ | ⟨hp, rfl⟩ | ⟨hp, rfl⟩ | ⟨hp, rfl⟩
    · exact (phaseOp_resolve (hu.trans hp)).symm
    · exact (phaseOp_translate (hu.trans hp)).symm
    · exact (phaseOp_split (hu.trans hp)).symm
    · exact (phaseOp_single (hu.trans hp)).symm
    · exact (phaseOp_first (hu.trans hp)).symm
    · exact (phaseOp_mid (hu.trans hp)).symm
    · exact (phaseOp_last (hu.trans hp)).symm
  · right
    rw [hf, decode_toBytes] at h
    cases hr : decodeRegion d with
    | error e => rw [hr] at h; exact nomatch h
    | ok r =>
      rw [hr] at h
      obtain rfl : r.toInstr = i := Except.ok.inj h
      obtain ⟨start, stop, type⟩ := r
      refine ⟨hg, hp, d, ⟨start, stop, type⟩, hd, hr, fun u => ?_⟩
      cases type <;> rfl

/-! ### A region is a walk of phase operations -/

theorem andThen_congr {o : Result} {f g : State → Result} (h : ∀ t, o = .next t → f t = g t) :
    andThen o f = andThen o g := by
  cases o with
  | next t => exact h t rfl
  | fault r => rfl
  | refused r => rfl

theorem andThen_assoc (o : Result) (f g : State → Result) :
    andThen (andThen o f) g = andThen o fun s => andThen (f s) g := by
  cases o <;> rfl

/-- A single phase operation is a walk of one. -/
theorem phaseRun_one (s : State) : phaseRun 1 s = phaseOp s := by
  show andThen (phaseOp s) .next = phaseOp s
  cases phaseOp s <;> rfl

/-- `n` words between are left to fill, then LAST: in MID at the first of them, or in LAST with none left
(43_lut_programmer.md R84). -/
def wordsLeft (n : Nat) (s : State) : Prop :=
  (s.phase = .last ∧ n = 0) ∨ (s.phase = .mid ∧ 0 < n ∧ s.wi.toNat + n = s.work.endLut.toNat)

/-- The word after one below another does not wrap. -/
theorem toNat_add_one_of_lt {a b : Word} (h : a < b) : (a + 1).toNat = a.toNat + 1 := by
  have := b.isLt
  rw [BitVec.lt_def] at h
  rw [BitVec.toNat_add, show (1 : Word).toNat = 1 from rfl, Nat.mod_eq_of_lt (by omega)]

/-- After FIRST the words strictly between are left. -/
theorem wordsLeft_afterFirst {s : State} (h : s.work.startLut < s.work.endLut) :
    wordsLeft s.midCount (afterFirst s) := by
  have hn := toNat_add_one_of_lt h
  rw [BitVec.lt_def] at h
  unfold afterFirst State.midCount
  split
  · rename_i hlt
    rw [BitVec.lt_def] at hlt
    refine .inr ⟨rfl, by omega, ?_⟩
    simp only [State.toPhase_wi, State.setWi_wi, State.toPhase_work, State.setWi_work]
    omega
  · rename_i hlt
    rw [BitVec.lt_def] at hlt
    exact .inl ⟨rfl, by omega⟩

/-- Every MID leaves one word less. -/
theorem wordsLeft_afterMid {s : State} {n : Nat} (hp : s.phase = .mid) (h : s.wi.toNat + (n + 1) = s.work.endLut.toNat) :
    wordsLeft n (afterMid s) := by
  have hn := toNat_add_one_of_lt (a := s.wi) (b := s.work.endLut) (BitVec.lt_def.2 (by omega))
  unfold afterMid
  split
  · rename_i hlt
    rw [BitVec.lt_def] at hlt
    exact .inr ⟨hp, by omega, by simp only [State.setWi_wi, State.setWi_work]; omega⟩
  · rename_i hlt
    rw [BitVec.lt_def] at hlt
    exact .inl ⟨rfl, by omega⟩

/-- The MID steps of the words left, then LAST, are that many phase operations and one. -/
theorem midSteps_last_eq_phaseRun {n : Nat} {s : State} (h : wordsLeft n s) :
    andThen (midSteps n s) execLast = phaseRun (n + 1) s := by
  induction n generalizing s with
  | zero =>
    obtain ⟨hp, -⟩ | ⟨-, hn, -⟩ := h
    · rw [phaseRun_one, phaseOp_last hp, midSteps, andThen_next]
    · omega
  | succ n ih =>
    obtain ⟨-, hn⟩ | ⟨hp, -, hw⟩ := h
    · omega
    · rw [midSteps, andThen_assoc, phaseRun, phaseOp_mid hp]
      refine andThen_congr fun t ht => ih ?_
      obtain ⟨-, rfl⟩ := execMid_eq_next.1 ht
      exact wordsLeft_afterMid hp hw

/-- FIRST keeps the word range, under either merge policy. -/
theorem firstWritten_lut (s : State) :
    s.firstWritten.work.startLut = s.work.startLut ∧ s.firstWritten.work.endLut = s.work.endLut := by
  unfold State.firstWritten
  split <;> exact ⟨rfl, rfl⟩

theorem afterFirst_work (s : State) : (afterFirst s).work = s.work := by
  unfold afterFirst
  split <;> rfl

/-- Case B is FIRST, a MID for every word between, and LAST. -/
theorem caseB_eq_phaseRun {s : State} (hc : s.cfg.wf) (hp : s.phase = .first) (h : s.work.startLut < s.work.endLut) :
    caseB s = phaseRun (s.midCount + 2) s := by
  rw [caseB, phaseRun, phaseOp_first hp]
  refine andThen_congr fun t ht => ?_
  obtain ⟨-, rfl⟩ := (execFirst_eq_next hc).1 ht
  obtain ⟨hs, he⟩ := firstWritten_lut s
  have hcount : s.firstWritten.midCount = s.midCount := by rw [State.midCount, hs, he, State.midCount]
  have hafter : (afterFirst s.firstWritten).midCount = s.midCount := by
    rw [State.midCount, afterFirst_work, ← State.midCount, hcount]
  rw [hafter]
  exact midSteps_last_eq_phaseRun (hcount ▸ wordsLeft_afterFirst (by rw [hs, he]; exact h))

/-- SPLIT moves to SINGLE for one word and to FIRST for more (43_lut_programmer.md R82). -/
theorem afterSplit_phase {s : State} (h : s.work.startBlock.toNat ≤ s.work.endBlock.toNat) :
    (s.afterSplit.phase = .single ∧ s.afterSplit.work.startLut = s.afterSplit.work.endLut) ∨
    (s.afterSplit.phase = .first ∧ s.afterSplit.work.startLut < s.afterSplit.work.endLut) := by
  by_cases heq : lutIndex s.work.startBlock = lutIndex s.work.endBlock
  · exact .inl ⟨if_pos heq, heq⟩
  · refine .inr ⟨if_neg heq, ?_⟩
    show lutIndex _ < lutIndex _
    rw [← BitVec.toNat_inj, lutIndex_toNat, lutIndex_toNat] at heq
    rw [BitVec.lt_def, lutIndex_toNat, lutIndex_toNat]
    omega

/-- The number of phase operations of PROGRAM on a block range. -/
def programSteps (a b : Word) : Nat :=
  if lutIndex a = lutIndex b then 2 else (lutIndex b).toNat - (lutIndex a).toNat - 1 + 3

/-- PROGRAM is SPLIT, then the phases of Case A or Case B. -/
theorem program_eq_phaseRun {s : State} (hc : s.cfg.wf) (hp : s.phase = .split) :
    program s = phaseRun (programSteps s.work.startBlock s.work.endBlock) s := by
  obtain ⟨n, hn⟩ : ∃ n, programSteps s.work.startBlock s.work.endBlock = n + 1 := by
    unfold programSteps
    split <;> exact ⟨_, rfl⟩
  rw [hn, phaseRun, phaseOp_split hp, program]
  refine andThen_congr fun t ht => ?_
  obtain ⟨hle, -, rfl⟩ := execSplit_eq_next.1 ht
  rcases afterSplit_phase hle with ⟨hsingle, heq⟩ | ⟨hfirst, hlt⟩
  · obtain rfl : n = 1 := by
      have htwo : programSteps s.work.startBlock s.work.endBlock = 2 := if_pos heq
      omega
    rw [if_pos hsingle, phaseRun_one, phaseOp_single hsingle]
  · obtain rfl : n = s.afterSplit.midCount + 2 := by
      have hmany : programSteps s.work.startBlock s.work.endBlock = s.afterSplit.midCount + 3 :=
        if_neg (BitVec.ne_of_lt hlt)
      omega
    rw [if_neg (by rw [hfirst]; decide), caseB_eq_phaseRun (s := s.afterSplit) hc hfirst hlt]

/-- The number of phase operations of a region: two when TRANSLATE aborts, else two and those of PROGRAM. It depends on
the parameters and the region alone. -/
def regionSteps (c : Config) (r : Region) : Nat :=
  if c.checkPreconditions = true ∧
      (failedCheck (c.of r.type) r.start r.stop (blocksizeOf (c.of r.type))).isSome then 2
  else programSteps (startBlockOf c r) (endBlockOf c r) + 2

/-- A region executed whole is the walk of its phases, to the same state or the same stop. -/
theorem execRegion_eq_phaseRun {s : State} (hc : s.cfg.wf) (r : Region) :
    execRegion r s = phaseRun (regionSteps s.cfg r) (s.loadRegion r) := by
  obtain ⟨n, hn⟩ : ∃ n, regionSteps s.cfg r = n + 2 := by
    unfold regionSteps
    split <;> exact ⟨_, rfl⟩
  rw [hn, phaseRun, phaseOp_resolve (State.loadRegion_phase s r), execRegion,
    execResolve_next (s := s.loadRegion r) hc, andThen_next,
    andThen_next, phaseRun, phaseOp_translate (s := (s.loadRegion r).afterResolve) rfl]
  refine andThen_congr fun t ht => ?_
  rcases execTranslate_eq_next.1 ht with ⟨hcheck, code, hfail, rfl⟩ | ⟨hnone, -, rfl⟩
  · have hcond : s.cfg.checkPreconditions = true ∧
        (failedCheck (s.cfg.of r.type) r.start r.stop (blocksizeOf (s.cfg.of r.type))).isSome :=
      ⟨hcheck, Option.isSome_iff_exists.2 ⟨code, hfail⟩⟩
    rw [regionSteps, if_pos hcond] at hn
    obtain rfl : n = 0 := by omega
    rw [if_pos (State.raiseAbort_phase ..), phaseRun]
  · have hcond : ¬ (s.cfg.checkPreconditions = true ∧
        (failedCheck (s.cfg.of r.type) r.start r.stop (blocksizeOf (s.cfg.of r.type))).isSome) := by
      rintro ⟨hcheck, hsome⟩
      obtain ⟨code, hfail⟩ := Option.isSome_iff_exists.1 hsome
      exact nomatch (hnone hcheck).symm.trans hfail
    rw [regionSteps, if_neg hcond] at hn
    obtain rfl : programSteps (startBlockOf s.cfg r) (endBlockOf s.cfg r) = n := by omega
    rw [if_neg (by simp)]
    exact program_eq_phaseRun hc (State.setBlocks_phase _)

end Sys2Proof.Machine
end

section
/-! PROOFS. What the operations do to the register space and the trace, said once: a relation kept by the bus accesses
of the block is kept by every step. With it O46 and O45. -/

namespace Sys2Proof.Machine

/-- A relation between the states before and after that every bus access of this block keeps, and every update that
leaves parameters, program, register space and trace alone. -/
structure BusRel (Q : State → State → Prop) : Prop where
  frame : ∀ a b, keepsPlatform a b → b.mem = a.mem → b.trace = a.trace → Q a b
  trans : ∀ a b c, keepsPlatform a b → Q a b → Q b c → Q a c
  readCfg : ∀ a t, a.cfg.wf → Q a (a.log { kind := .rd, addr := (a.cfg.of t).cfgAddr, data := (a.cfg.of t).cfgValue })
  merge : ∀ a t w m, a.cfg.wf → w.toNat < (a.cfg.of t).nLutWords → Q a (a.afterOrMerge t w m)
  fill : ∀ a t w, a.cfg.wf → w.toNat < (a.cfg.of t).nLutWords → Q a (a.afterAssign t w allOnes)
  legacy : ∀ a t w v, a.cfg.wf → a.cfg.mergePolicy = .legacyAssign → w.toNat < (a.cfg.of t).nLutWords →
    Q a (a.afterAssign t w v)

theorem keepsPlatform_refl (s : State) : keepsPlatform s s := ⟨rfl, rfl, rfl, rfl⟩

theorem keepsPlatform_trans {s t u : State} : keepsPlatform s t → keepsPlatform t u → keepsPlatform s u := by
  rintro ⟨h1, h2, h3, h4⟩ ⟨h1', h2', h3', h4'⟩
  exact ⟨h1'.trans h1, h2'.trans h2, h3'.trans h3, h4'.trans h4⟩

/-- From legal parameters, the platform is kept and `Q` holds. -/
def keptWith (Q : State → State → Prop) (a b : State) : Prop :=
  a.cfg.wf → keepsPlatform a b ∧ Q a b

namespace BusRel

variable {Q : State → State → Prop}

theorem keptWith_frame (hQ : BusRel Q) {a b : State} (hp : keepsPlatform a b) (hm : b.mem = a.mem)
    (ht : b.trace = a.trace) : keptWith Q a b :=
  fun _ => ⟨hp, hQ.frame a b hp hm ht⟩

theorem keptWith_trans (hQ : BusRel Q) {a b c : State} (hab : keptWith Q a b) (hbc : keptWith Q b c) :
    keptWith Q a c := by
  intro hc
  obtain ⟨hp, hq⟩ := hab hc
  obtain ⟨hp', hq'⟩ := hbc (hp.1 ▸ hc)
  exact ⟨keepsPlatform_trans hp hp', hQ.trans a b c hp hq hq'⟩

theorem keptWith_enterRegion (hQ : BusRel Q) {n : Nat} {a b : State} (h : enterRegion n a = .next b) :
    keptWith Q a b := by
  obtain ⟨-, hp, -, hm, ht, -⟩ := enterRegion_takenUp h
  exact hQ.keptWith_frame hp hm ht

theorem keptWith_log (hQ : BusRel Q) (a : State) :
    keptWith Q a (a.log { kind := .rd, addr := a.params.cfgAddr, data := a.params.cfgValue }) :=
  fun hc => ⟨⟨rfl, rfl, rfl, rfl⟩, hQ.readCfg a a.work.curType hc⟩

theorem keptWith_afterAssign_allOnes (hQ : BusRel Q) {a : State} {w : Word} (hw : w.toNat < a.params.nLutWords) :
    keptWith Q a (a.afterAssign a.work.curType w allOnes) :=
  fun hc => ⟨⟨rfl, rfl, rfl, rfl⟩, hQ.fill a a.work.curType w hc hw⟩

theorem keptWith_setMask (hQ : BusRel Q) (a : State) (m : Word) : keptWith Q a (a.setMask m) :=
  hQ.keptWith_frame ⟨rfl, rfl, rfl, rfl⟩ rfl rfl

/-- Writing the mask register and merging it. -/
theorem keptWith_merged (hQ : BusRel Q) {a : State} {w m : Word} (hw : w.toNat < a.params.nLutWords) :
    keptWith Q a (a.merged w m) :=
  hQ.keptWith_trans (hQ.keptWith_setMask a m) fun hc => ⟨⟨rfl, rfl, rfl, rfl⟩, hQ.merge (a.setMask m) a.work.curType w m hc hw⟩

theorem keptWith_firstWritten (hQ : BusRel Q) {a : State} (hw : a.work.startLut.toNat < a.params.nLutWords) :
    keptWith Q a a.firstWritten := by
  unfold State.firstWritten
  split
  · exact hQ.keptWith_merged hw
  · rename_i hpol
    exact hQ.keptWith_trans (hQ.keptWith_setMask a (setBitRange a.work.startOffset 31))
      fun hc => ⟨⟨rfl, rfl, rfl, rfl⟩, hQ.legacy (a.setMask _) a.work.curType _ _ hc hpol hw⟩

theorem keptWith_afterFirst (hQ : BusRel Q) (a : State) : keptWith Q a (afterFirst a) := by
  unfold afterFirst
  split <;> exact hQ.keptWith_frame ⟨rfl, rfl, rfl, rfl⟩ rfl rfl

theorem keptWith_afterMid (hQ : BusRel Q) (a : State) : keptWith Q a (afterMid a) := by
  unfold afterMid
  split <;> exact hQ.keptWith_frame ⟨rfl, rfl, rfl, rfl⟩ rfl rfl

/-- What the bus accesses keep, every operation keeps, with the platform. -/
theorem opRel (hQ : BusRel Q) : OpRel (keptWith Q) where
  refl a := hQ.keptWith_frame (keepsPlatform_refl a) rfl rfl
  trans _ _ _ := hQ.keptWith_trans
  load _ _ := hQ.keptWith_frame ⟨rfl, rfl, rfl, rfl⟩ rfl rfl
  enter _ _ _ := hQ.keptWith_enterRegion
  resolve a b h hc := by
    rw [execResolve_next hc, Host.Outcome.next.injEq] at h
    subst h
    exact hQ.keptWith_trans (hQ.keptWith_log a) (hQ.keptWith_frame ⟨rfl, rfl, rfl, rfl⟩ rfl rfl) hc
  translate a b h := by
    rcases execTranslate_eq_next.1 h with ⟨-, code, -, rfl⟩ | ⟨-, -, rfl⟩
    · exact hQ.keptWith_frame ⟨rfl, rfl, rfl, rfl⟩ rfl rfl
    · exact hQ.keptWith_frame ⟨rfl, rfl, rfl, rfl⟩ rfl rfl
  split a b h := by
    obtain ⟨-, -, rfl⟩ := execSplit_eq_next.1 h
    exact hQ.keptWith_frame ⟨rfl, rfl, rfl, rfl⟩ rfl rfl
  single a b h hc := by
    obtain ⟨-, hw, hn⟩ := (execSingle_eq_next hc).1 h
    exact hQ.keptWith_trans (hQ.keptWith_merged hw) (hQ.keptWith_enterRegion hn) hc
  first a b h hc := by
    obtain ⟨hw, rfl⟩ := (execFirst_eq_next hc).1 h
    exact hQ.keptWith_trans (hQ.keptWith_firstWritten hw) (hQ.keptWith_afterFirst _) hc
  mid a b h := by
    obtain ⟨hw, rfl⟩ := execMid_eq_next.1 h
    exact hQ.keptWith_trans (hQ.keptWith_afterAssign_allOnes hw) (hQ.keptWith_afterMid _)
  last a b h hc := by
    obtain ⟨hw, hn⟩ := (execLast_eq_next hc).1 h
    exact hQ.keptWith_trans (hQ.keptWith_merged hw) (hQ.keptWith_enterRegion hn) hc

/-- What the bus accesses keep, every step keeps, reset included, with the platform but for the input taken. -/
theorem step (hQ : BusRel Q) {s t : State} (h : step s = .next t) : keepsPlatform s.tick t ∧ Q s.tick t := by
  obtain ⟨hc, -⟩ := step_eq_next.1 h
  rcases hQ.opRel.step h with ⟨-, rfl⟩ | hk
  · exact hQ.keptWith_frame ⟨rfl, rfl, rfl, rfl⟩ rfl rfl hc
  · exact hk hc

end BusRel

/-- The relation that says nothing more than that the platform is kept. -/
theorem busRel_true : BusRel fun _ _ => True := by
  constructor <;> intros <;> trivial

/-- A step keeps the platform, but for the input it takes off the list. -/
theorem step_keepsPlatform {s t : State} (h : step s = .next t) : keepsPlatform s.tick t :=
  (busRel_true.step h).1

/-- Settles O46: no bus access and no update reaches the parameters, the region table or the step size. -/
theorem parametersAndProgramConstant : Obligations.ParametersAndProgramConstant := by
  intro s t h
  obtain ⟨hcfg, hregions, hinputs, hgrain⟩ := step_keepsPlatform h
  exact ⟨hcfg, hregions, hgrain, hinputs⟩

/-! ### LUT bits under `uniform_or` -/

/-- Every LUT bit that is 1 in `a` is 1 in `b`. -/
def lutBitsKept (a b : State) : Prop :=
  ∀ (t : MemType) (w : Word) (i : Nat), w.toNat < (a.cfg.of t).nLutWords → a.lutBit t w i = true → b.lutBit t w i = true

/-- Under `uniform_or` a canonical register space stays canonical and no LUT bit of it is cleared. -/
def mergeKeepsBits (a b : State) : Prop :=
  a.cfg.mergePolicy = .uniformOr → a.mem.wf → b.mem.wf ∧ lutBitsKept a b

/-- An OR-merge clears no bit of its word and leaves the others (43_lut_programmer.md R80). -/
theorem lutBitsKept_afterOrMerge {s : State} (hc : s.cfg.wf) (hm : s.mem.wf) {t : MemType} {w : Word} (m : Word)
    (hw : w.toNat < (s.cfg.of t).nLutWords) : lutBitsKept s (s.afterOrMerge t w m) := by
  intro t' w' i hw' hi
  unfold State.lutBit at hi ⊢
  rw [lutWord_afterOrMerge hc hm m hw hw']
  split
  · rename_i heq
    obtain ⟨rfl, rfl⟩ := heq
    rw [BitVec.getLsbD_or, hi, Bool.true_or]
  · exact hi

/-- A word of all ones clears no bit (43_lut_programmer.md R81). -/
theorem lutBitsKept_afterAssign_allOnes {s : State} (hc : s.cfg.wf) (hm : s.mem.wf) {t : MemType} {w : Word}
    (hw : w.toNat < (s.cfg.of t).nLutWords) : lutBitsKept s (s.afterAssign t w allOnes) := by
  intro t' w' i hw' hi
  unfold State.lutBit at hi ⊢
  rw [lutWord_afterAssign hc hm allOnes hw hw']
  split
  · exact allOnes_getLsbD (BitVec.lt_of_getLsbD hi)
  · exact hi

theorem lutBitsKept_of_mem_eq {a b : State} (hcfg : b.cfg = a.cfg) (hm : b.mem = a.mem) : lutBitsKept a b := by
  intro t w i _ hi
  rwa [State.lutBit, State.lutWord, hcfg, hm]

theorem busRel_mergeKeepsBits : BusRel mergeKeepsBits where
  frame a b hp hm _ _ hwf := ⟨hm ▸ hwf, lutBitsKept_of_mem_eq hp.1 hm⟩
  trans a b c hp hab hbc hpol hwf := by
    obtain ⟨hcfg, -⟩ := hp
    obtain ⟨hwf', hkept⟩ := hab hpol hwf
    obtain ⟨hwf'', hkept'⟩ := hbc (hcfg ▸ hpol) hwf'
    exact ⟨hwf'', fun t w i hw hi => hkept' t w i (hcfg ▸ hw) (hkept t w i hw hi)⟩
  readCfg a t _ _ hwf := ⟨hwf, lutBitsKept_of_mem_eq rfl rfl⟩
  merge a t w m hc hw _ hwf := ⟨Memory.wf_writeWord hwf _ _, lutBitsKept_afterOrMerge hc hwf m hw⟩
  fill a t w hc hw _ hwf := ⟨Memory.wf_writeWord hwf _ _, lutBitsKept_afterAssign_allOnes hc hwf hw⟩
  legacy a t w v _ hpol _ hpol' := nomatch hpol.symm.trans hpol'

/-- A state at FIRST under `legacy_assign`, in ITCM blocks 8 to 40 of 1024 bytes, with the bit of block 0 set: the plain
assignment of the mask of bits 8 to 31 clears it (43_lut_programmer.md R92). -/
def legacyFirst : State where
  cfg := { Config.default with mergePolicy := .legacyAssign }
  regions := [⟨0x00002000#32, 0x0000A3FF#32, 0#32⟩]
  mem := [(0x40000010, 0x01#8)]
  phase := .first
  ri := 0
  wi := 0
  work :=
    { Work.reset with
      curStart := 0x00002000#32, curEnd := 0x0000A3FF#32, curType := .itcm, shift := 10, blocksize := 1024
      startBlock := 8, endBlock := 40, startLut := 0, endLut := 1, startOffset := 8, endOffset := 8 }
  abortCode := 0
  abortRi := 0
  trace := []
  inputs := []
  grain := .phase

theorem legacyFirst_inv : legacyFirst.Inv where
  params := by decide
  canonical := by decide
  inLut := by decide
  events := fun _ h => nomatch h
  position := ⟨⟨by decide, _, rfl, rfl⟩, by decide, by decide⟩

/-- The state that step leaves. -/
def legacyFirstAssigned : State :=
  afterFirst legacyFirst.firstWritten

theorem step_legacyFirst : step legacyFirst = .next legacyFirstAssigned := by
  have hfetch : decode (fetchBytes legacyFirst) = .ok .first := rfl
  have hfirst : execFirst legacyFirst.tick = .next legacyFirstAssigned :=
    (execFirst_eq_next legacyFirst_inv.params).2 ⟨by decide, rfl⟩
  exact step_eq_next.2 ⟨legacyFirst_inv.params, .inr (.inr (.inr ⟨rfl, rfl, _, hfetch, hfirst⟩))⟩

/-- Settles O45: the required policy only merges and fills; the legacy one assigns in FIRST, as `legacyFirst` shows. -/
theorem lutBitsNeverCleared : Obligations.LutBitsNeverCleared := by
  refine ⟨fun s t hpol hwf h ty w b hw hb => ?_,
    legacyFirst, legacyFirstAssigned, .itcm, 0, 0, rfl, legacyFirst_inv, step_legacyFirst, by decide, by decide, by decide⟩
  obtain ⟨-, hkept⟩ := busRel_mergeKeepsBits.step h
  obtain ⟨-, hbits⟩ := hkept hpol hwf
  exact hbits ty w b hw hb

end Sys2Proof.Machine
end

section
/-! PROOFS. The status outputs and what power-on leaves: O32, O34, O42; and the transition table of 10_state.md R23:
O35. -/

namespace Sys2Proof.Machine

/-! ### Status outputs -/

theorem Phase.isBusy_iff (p : Phase) : p.isBusy = true ↔ p ≠ .idle ∧ p ≠ .done ∧ p ≠ .abort := by
  cases p <;> decide

theorem State.busy_iff (s : State) : s.busy = true ↔ s.phase ≠ .idle ∧ s.phase ≠ .done ∧ s.phase ≠ .abort :=
  s.phase.isBusy_iff

theorem State.not_busy_iff (s : State) : s.busy = false ↔ s.phase = .idle ∨ s.phase = .done ∨ s.phase = .abort := by
  unfold State.busy
  cases s.phase <;> decide

theorem State.done_iff (s : State) : s.done = true ↔ s.phase = .done := beq_iff_eq

theorem State.abort_iff (s : State) : s.abort = true ↔ s.phase = .abort := beq_iff_eq

/-- Settles O34: each output is a function of the phase, and the phases of two of them are apart. -/
theorem statusOutputs : Obligations.StatusOutputs := by
  intro s
  refine ⟨s.busy_iff, s.done_iff, s.abort_iff, ?_, ?_⟩
  · rintro ⟨hb, hd⟩
    obtain ⟨-, hne, -⟩ := s.busy_iff.1 hb
    exact hne (s.done_iff.1 hd)
  · rintro ⟨hb, ha⟩
    obtain ⟨-, -, hne⟩ := s.busy_iff.1 hb
    exact hne (s.abort_iff.1 ha)

/-! ### Power-on -/

/-- Settles O32: every field of `State.powerOn` is the one the statement names. -/
theorem powerOnState : Obligations.PowerOnState :=
  ⟨fun _ _ => ⟨rfl, rfl, rfl, rfl, rfl, rfl, rfl, rfl, rfl⟩, rfl⟩

theorem powerOn_inv {c : Config} {ds : List Descriptor} (hc : c.wf) (hm : Memory.wf c.lutReset)
    (hl : ∀ x ∈ c.lutReset, c.itcm.inLut x.1 ∨ c.dtcm.inLut x.1) : (State.powerOn c ds).Inv where
  params := hc
  canonical := hm
  inLut := hl
  events _ h := nomatch h
  position := show (0 : Nat) = 0 from rfl

/-- Settles O42: IDLE asks of the position only `ri = 0`, and the parameters of `State.reset` meet R6. -/
theorem powerOnMeetsInvariant : Obligations.PowerOnMeetsInvariant :=
  ⟨fun _ _ => powerOn_inv, powerOn_inv (by decide) (by decide) fun _ h => nomatch h⟩

/-! ### The transition table -/

variable {s t : State}

/-- Taking up region `n` gives the position of the table's `next region`, and keeps `wi`. -/
theorem enterRegion_position {n : Nat} (h : enterRegion n s = .next t) :
    t.ri = n ∧ t.phase = (if n < s.regions.length then .resolve else .done) ∧ t.wi = s.wi := by
  rcases enterRegion_eq_next.1 h with ⟨hl, rfl⟩ | ⟨d, r, hd, -, rfl⟩
  · exact ⟨rfl, (if_neg (Nat.not_lt.2 hl)).symm, rfl⟩
  · obtain ⟨hl, -⟩ := List.getElem?_eq_some_iff.1 hd
    exact ⟨rfl, (if_pos hl).symm, rfl⟩

/-- FIRST moves to MID at the next word, or to LAST and keeps `wi`. -/
theorem afterFirst_position (s : State) :
    (afterFirst s).ri = s.ri ∧
    ((s.work.startLut + 1#32 < s.work.endLut ∧
        (afterFirst s).phase = .mid ∧ (afterFirst s).wi = s.work.startLut + 1#32) ∨
      (¬ s.work.startLut + 1#32 < s.work.endLut ∧ (afterFirst s).phase = .last ∧ (afterFirst s).wi = s.wi)) := by
  unfold afterFirst
  split
  · exact ⟨rfl, .inl ⟨‹_›, rfl, rfl⟩⟩
  · exact ⟨rfl, .inr ⟨‹_›, rfl, rfl⟩⟩

/-- MID stays at the next word, or moves to LAST and keeps `wi`. -/
theorem afterMid_position (s : State) :
    (afterMid s).ri = s.ri ∧
    ((s.wi + 1#32 < s.work.endLut ∧ (afterMid s).phase = s.phase ∧ (afterMid s).wi = s.wi + 1#32) ∨
      (¬ s.wi + 1#32 < s.work.endLut ∧ (afterMid s).phase = .last ∧ (afterMid s).wi = s.wi)) := by
  unfold afterMid
  split
  · exact ⟨rfl, .inl ⟨‹_›, rfl, rfl⟩⟩
  · exact ⟨rfl, .inr ⟨‹_›, rfl, rfl⟩⟩

theorem firstWritten_position (s : State) : s.firstWritten.ri = s.ri ∧ s.firstWritten.wi = s.wi := by
  unfold State.firstWritten
  split <;> exact ⟨rfl, rfl⟩

/-- A move of the position in which `wi` changes only on a move into MID. -/
def movesAs (s t : State) (i : Input) : Prop :=
  tableMove s t i ∧ (t.wi ≠ s.wi → t.phase = .mid ∧ (s.phase = .first ∨ s.phase = .mid))

/-- A move that keeps `wi`. -/
theorem movesAs_of_wi_eq {i : Input} (h : tableMove s t i) (hw : t.wi = s.wi) : movesAs s t i :=
  ⟨h, fun hne => absurd hw hne⟩

theorem execTranslate_movesAs (hp : s.phase = .translate) (h : execTranslate s = .next t) : movesAs s t .quiet := by
  rcases execTranslate_eq_next.1 h with ⟨hc, code, -, rfl⟩ | ⟨-, -, rfl⟩
  · exact movesAs_of_wi_eq (by simp [tableMove, hp, hc]) rfl
  · exact movesAs_of_wi_eq (by simp [tableMove, hp]) rfl

theorem execSplit_movesAs (hp : s.phase = .split) (h : execSplit s = .next t) : movesAs s t .quiet := by
  obtain ⟨hle, -, rfl⟩ := execSplit_eq_next.1 h
  refine movesAs_of_wi_eq ?_ rfl
  simp only [tableMove, hp]
  exact ⟨rfl, afterSplit_phase hle⟩

/-- The two operations that end a region merge a word and move to the next region. -/
theorem nextRegion_movesAs {w m : Word} (hp : s.phase = .single ∨ s.phase = .last)
    (h : nextRegion (s.merged w m) = .next t) : movesAs s t .quiet := by
  obtain ⟨hri, hph, hw⟩ := enterRegion_position h
  have hnext : tableNextRegion s t := ⟨hri, hph⟩
  refine movesAs_of_wi_eq ?_ hw
  rcases hp with hp | hp <;> simpa only [tableMove, hp] using hnext

theorem execFirst_movesAs (hc : s.cfg.wf) (hp : s.phase = .first) (h : execFirst s = .next t) : movesAs s t .quiet := by
  obtain ⟨-, rfl⟩ := (execFirst_eq_next hc).1 h
  obtain ⟨hs, he⟩ := firstWritten_lut s
  obtain ⟨hri, hwi⟩ := firstWritten_position s
  obtain ⟨hri', hmove⟩ := afterFirst_position s.firstWritten
  rw [hs, he] at hmove
  rcases hmove with ⟨hlt, hmid, hw⟩ | ⟨hlt, hlast, hw⟩
  · exact ⟨by simp [tableMove, hp, hri', hri, hlt, hmid, hw], fun _ => ⟨hmid, .inl hp⟩⟩
  · exact movesAs_of_wi_eq (by simp [tableMove, hp, hri', hri, hlt, hlast]) (hw.trans hwi)

theorem execMid_movesAs (hp : s.phase = .mid) (h : execMid s = .next t) : movesAs s t .quiet := by
  obtain ⟨-, rfl⟩ := execMid_eq_next.1 h
  obtain ⟨hri, hmove⟩ := afterMid_position (s.afterAssign s.work.curType s.wi allOnes)
  simp only [State.afterAssign_wi, State.afterAssign_work, State.afterAssign_phase, State.afterAssign_ri, hp] at hri hmove
  rcases hmove with ⟨hlt, hmid, hw⟩ | ⟨hlt, hlast, hw⟩
  · exact ⟨by simp [tableMove, hp, hri, hlt, hmid, hw], fun _ => ⟨hmid, .inr hp⟩⟩
  · exact movesAs_of_wi_eq (by simp [tableMove, hp, hri, hlt, hlast]) hw

/-- The operation of each busy phase moves as the table's line of that phase. -/
theorem phaseOp_movesAs (hc : s.cfg.wf) (h : phaseOp s = .next t) : movesAs s t .quiet := by
  cases hp : s.phase with
  | idle | done | abort =>
    rw [phaseOp, hp] at h
    obtain rfl := Host.Outcome.next.inj h
    exact movesAs_of_wi_eq (by simp [tableMove, hp]) rfl
  | resolve =>
    rw [phaseOp_resolve hp, execResolve_next hc] at h
    obtain rfl := Host.Outcome.next.inj h
    exact movesAs_of_wi_eq (by simp [tableMove, hp, State.afterResolve]) rfl
  | translate => exact execTranslate_movesAs hp (phaseOp_translate hp ▸ h)
  | split => exact execSplit_movesAs hp (phaseOp_split hp ▸ h)
  | single =>
    obtain ⟨-, -, hn⟩ := (execSingle_eq_next hc).1 (phaseOp_single hp ▸ h)
    exact nextRegion_movesAs (.inl hp) hn
  | first => exact execFirst_movesAs hc hp (phaseOp_first hp ▸ h)
  | mid => exact execMid_movesAs hp (phaseOp_mid hp ▸ h)
  | last =>
    obtain ⟨-, hn⟩ := (execLast_eq_next hc).1 (phaseOp_last hp ▸ h)
    exact nextRegion_movesAs (.inr hp) hn

/-- The trigger moves to the first region from IDLE and DONE, and keeps ABORT (44_orchestrator.md R96, R101). -/
theorem execRun_movesAs {b : Bool} (h : execRun b s = .next t) : movesAs s t .start := by
  rcases execRun_eq_next.1 h with ⟨hp, -, hn⟩ | ⟨hp, rfl⟩
  · obtain ⟨hri, hph, hw⟩ := enterRegion_position hn
    have hph' : t.phase = if s.regions.length = 0 then .done else .resolve := by
      rw [hph]
      by_cases hl : s.regions.length = 0
      · rw [if_neg (by omega), if_pos hl]
      · rw [if_pos (by omega), if_neg hl]
    refine movesAs_of_wi_eq ?_ hw
    rcases hp with hp | hp <;> simpa only [tableMove, hp] using ⟨hri, hph'⟩
  · exact movesAs_of_wi_eq (by simp [tableMove, hp]) rfl

/-- A block that is not busy stays without an input (70_reset_and_hazards.md R122). -/
theorem tick_movesAs (h : s.busy = false) : movesAs s s.tick .quiet := by
  refine movesAs_of_wi_eq ?_ rfl
  rcases s.not_busy_iff.1 h with hp | hp | hp <;> simp [tableMove, hp]

/-- Settles O35: by the input, and for a busy block by the operation of its phase. -/
theorem positionFollowsTable : Obligations.PositionFollowsTable := by
  intro s t hg h
  obtain ⟨hc, ⟨hi, rfl⟩ | ⟨hi, h⟩ | ⟨hi, hb, rfl⟩ | ⟨hi, hb, i, hf, h⟩⟩ := step_eq_next.1 h <;> rw [hi]
  · exact ⟨⟨rfl, rfl⟩, fun _ => .inl rfl⟩
  · have hm : movesAs s t .start := execRun_movesAs (s := s.tick) h
    exact hm.imp_right fun hw hne => .inr (hw hne)
  · exact (tick_movesAs hb).imp_right fun hw hne => .inr (hw hne)
  · rcases exec_of_fetch hb hf with hop | ⟨hg', -⟩
    · have hm : movesAs s t .quiet := phaseOp_movesAs (s := s.tick) hc ((hop s.tick rfl).symm.trans h)
      exact hm.imp_right fun hw hne => .inr (hw hne)
    · exact nomatch hg.symm.trans hg'

end Sys2Proof.Machine
end

section
/-! PROOFS. O43: every step keeps the invariant. What it says of the register space and the trace is a `BusRel`; what it
says of the position is kept by the operation of each phase, so by a walk of them, so by a region executed whole. -/

namespace Sys2Proof.Machine

variable {s t : State}

/-! ### The register space and the trace -/

/-- The part of the invariant that does not speak of the position: canonical memory of LUT bytes, legal transactions. -/
structure BusOk (s : State) : Prop where
  canonical : s.mem.wf
  inLut : ∀ c ∈ s.mem, s.cfg.itcm.inLut c.1 ∨ s.cfg.dtcm.inLut c.1
  events : ∀ e ∈ s.trace, eventOk s.cfg e

theorem State.inv_iff (s : State) : s.Inv ↔ s.cfg.wf ∧ BusOk s ∧ positionOk s :=
  ⟨fun ⟨hc, hm, hl, he, hp⟩ => ⟨hc, ⟨hm, hl, he⟩, hp⟩, fun ⟨hc, ⟨hm, hl, he⟩, hp⟩ => ⟨hc, hm, hl, he, hp⟩⟩

/-- A transaction on a LUT word that exists is one the block may issue (20_memory.md R30, R37). -/
theorem eventOk_lutAddr {c : Config} (hc : c.wf) (k : BusKind) {t : MemType} {w : Word} (v : Word)
    (hw : w.toNat < (c.of t).nLutWords) : eventOk c { kind := k, addr := lutAddr (c.of t) w, data := v } := by
  obtain ⟨-, -, -, -, halign, -⟩ := Config.of_wf hc t
  obtain ⟨ha, -⟩ := lutAddr_bounds hc hw
  refine ⟨?_, .inr ⟨t, w, hw, rfl⟩⟩
  show (lutAddr (c.of t) w).toNat % 4 = 0
  omega

/-- A read of CFG is one the block may issue (10_state.md R18). -/
theorem eventOk_cfgAddr {c : Config} (hc : c.wf) (t : MemType) :
    eventOk c { kind := .rd, addr := (c.of t).cfgAddr, data := (c.of t).cfgValue } := by
  obtain ⟨-, -, -, halign, -⟩ := Config.of_wf hc t
  exact ⟨halign, .inl ⟨rfl, t, rfl, rfl⟩⟩

/-- The bytes of a LUT word lie in a LUT array. -/
theorem inLut_of_mem_lutAddr {c : Config} (hc : c.wf) {t : MemType} {w : Word} (hw : w.toNat < (c.of t).nLutWords)
    {x : Nat} (hl : (lutAddr (c.of t) w).toNat ≤ x) (hu : x < (lutAddr (c.of t) w).toNat + 4) :
    c.itcm.inLut x ∨ c.dtcm.inLut x := by
  obtain ⟨ha, hb⟩ := lutAddr_bounds hc hw
  have hin : (c.of t).inLut x := ⟨by omega, by omega⟩
  cases t
  · exact .inl hin
  · exact .inr hin

/-- A write of a LUT word with legal transactions. -/
theorem BusOk.writeWord (h : BusOk s) (hc : s.cfg.wf) {ty : MemType} {w : Word} (hw : w.toNat < (s.cfg.of ty).nLutWords)
    {v : Word} {es : List BusEvent} (hes : ∀ e ∈ es, eventOk s.cfg e) (hcfg : t.cfg = s.cfg)
    (hmem : t.mem = s.mem.writeWord (lutAddr (s.cfg.of ty) w).toNat v) (htrace : t.trace = s.trace ++ es) : BusOk t where
  canonical := hmem ▸ Memory.wf_writeWord h.canonical _ _
  inLut x hx := by
    rw [hmem] at hx
    rw [hcfg]
    rcases Memory.mem_writeWord hx with ⟨hl, hu⟩ | hx
    · exact inLut_of_mem_lutAddr hc hw hl hu
    · exact h.inLut x hx
  events e he := by
    rw [htrace] at he
    rw [hcfg]
    exact (List.mem_append.1 he).elim (h.events e) (hes e)

theorem BusOk.afterAssign (h : BusOk s) (hc : s.cfg.wf) {ty : MemType} {w : Word}
    (hw : w.toNat < (s.cfg.of ty).nLutWords) (v : Word) : BusOk (s.afterAssign ty w v) := by
  refine h.writeWord hc hw ?_ rfl rfl rfl
  intro e he
  obtain rfl := List.mem_singleton.1 he
  exact eventOk_lutAddr hc .wr v hw

theorem BusOk.afterOrMerge (h : BusOk s) (hc : s.cfg.wf) {ty : MemType} {w : Word}
    (hw : w.toNat < (s.cfg.of ty).nLutWords) (m : Word) : BusOk (s.afterOrMerge ty w m) := by
  refine h.writeWord hc hw ?_ rfl rfl rfl
  intro e he
  rcases List.mem_cons.1 he with rfl | he
  · exact eventOk_lutAddr hc .rd _ hw
  · obtain rfl := List.mem_singleton.1 he
    exact eventOk_lutAddr hc .wr _ hw

/-- Every bus access of the block keeps canonical memory of LUT bytes and legal transactions. -/
theorem busRel_busOk : BusRel fun a b => a.cfg.wf → BusOk a → BusOk b where
  frame a b hp hm ht _ h := by
    obtain ⟨hcfg, -⟩ := hp
    exact ⟨hm ▸ h.canonical, hm ▸ hcfg ▸ h.inLut, ht ▸ hcfg ▸ h.events⟩
  trans a b c hp hab hbc hc h := hbc (hp.1 ▸ hc) (hab hc h)
  readCfg a ty hc _ h := by
    refine ⟨h.canonical, h.inLut, fun e he => ?_⟩
    rcases List.mem_append.1 he with he | he
    · exact h.events e he
    · obtain rfl := List.mem_singleton.1 he
      exact eventOk_cfgAddr hc ty
  merge a ty w m hc hw _ h := h.afterOrMerge hc hw m
  fill a ty w hc hw _ h := h.afterAssign hc hw allOnes
  legacy a ty w v hc _ hw _ h := h.afterAssign hc hw v

/-! ### The position, phase by phase -/

theorem positionOk_resolve (hp : s.phase = .resolve) : positionOk s ↔ onRegion s := by rw [positionOk, hp]

theorem positionOk_translate (hp : s.phase = .translate) :
    positionOk s ↔ onRegion s ∧ s.work.shift = shiftOf s.params ∧ s.work.blocksize = blocksizeOf s.params := by
  rw [positionOk, hp]

theorem positionOk_split (hp : s.phase = .split) :
    positionOk s ↔ onRegion s ∧ s.work.startBlock ≤ s.work.endBlock := by rw [positionOk, hp]

theorem positionOk_single (hp : s.phase = .single) :
    positionOk s ↔ onRegion s ∧ s.work.startLut = s.work.endLut ∧ s.work.startOffset ≤ s.work.endOffset ∧
      s.work.endLut.toNat < s.params.nLutWords := by rw [positionOk, hp]

theorem positionOk_first (hp : s.phase = .first) :
    positionOk s ↔ onRegion s ∧ s.work.startLut < s.work.endLut ∧ s.work.endLut.toNat < s.params.nLutWords := by
  rw [positionOk, hp]

theorem positionOk_mid (hp : s.phase = .mid) :
    positionOk s ↔ onRegion s ∧ s.work.startLut < s.wi ∧ s.wi < s.work.endLut ∧
      s.work.endLut.toNat < s.params.nLutWords := by rw [positionOk, hp]

theorem positionOk_last (hp : s.phase = .last) :
    positionOk s ↔ onRegion s ∧ s.work.startLut < s.work.endLut ∧ s.work.endLut.toNat < s.params.nLutWords := by
  rw [positionOk, hp]

theorem positionOk_abort (hp : s.phase = .abort) :
    positionOk s ↔ onRegion s ∧ s.cfg.checkPreconditions = true ∧ s.abortRi = s.ri ∧ s.abortCode ≠ 0#2 := by
  rw [positionOk, hp]

/-- Work on a descriptor of the list lies below its end. -/
theorem onRegion.ri_lt (h : onRegion s) : s.ri < s.regions.length := by
  obtain ⟨-, d, hd, -⟩ := h
  exact (List.getElem?_eq_some_iff.1 hd).1

/-- Taking up a region of a list that decodes, or passing its end by no more than the end. -/
theorem enterRegion_positionOk {n : Nat} (hr : regionsDecode s.regions = true) (hn : n ≤ s.regions.length)
    (h : enterRegion n s = .next t) : positionOk t := by
  rcases enterRegion_eq_next.1 h with ⟨hl, rfl⟩ | ⟨d, r, hd, hdec, rfl⟩
  · exact show n = s.regions.length from le_antisymm hn hl
  · exact (positionOk_resolve rfl).2 ⟨hr, d, hd, hdec⟩

theorem nextRegion_merged_positionOk {w m : Word} (hon : onRegion s) (h : nextRegion (s.merged w m) = .next t) :
    positionOk t :=
  enterRegion_positionOk (s := s.merged w m) hon.1 hon.ri_lt h

theorem execResolve_positionOk (hc : s.cfg.wf) (hon : onRegion s) (h : execResolve s = .next t) : positionOk t := by
  rw [execResolve_next hc] at h
  obtain rfl := Host.Outcome.next.inj h
  exact (positionOk_translate rfl).2 ⟨hon, rfl, rfl⟩

/-- An abort has a code other than 0 (60_exceptions.md R109). -/
theorem failedCheck_ne_zero {p : TypeParams} {a b bs : Word} {code : BitVec 2} (h : failedCheck p a b bs = some code) :
    code ≠ 0#2 := by
  unfold failedCheck at h
  split at h
  · obtain rfl := Option.some.inj h; decide
  · split at h
    · obtain rfl := Option.some.inj h; decide
    · split at h
      · obtain rfl := Option.some.inj h; decide
      · exact nomatch h

/-- The block range of a region in order is in order (41_region_translator.md R69). -/
theorem blockOf_le_of_inWindow {p : TypeParams} {a b : Word} (h : inWindow p a b = true) (shift : BitVec 5) :
    blockOf p shift a ≤ blockOf p shift b := by
  obtain ⟨hbase, hle, -⟩ := inWindow_iff.1 h
  rw [BitVec.le_def, blockOf_toNat hbase, blockOf_toNat (hbase.trans hle)]
  exact Nat.div_le_div_right (Nat.sub_le_sub_right hle _)

theorem execTranslate_positionOk (hon : onRegion s) (h : execTranslate s = .next t) : positionOk t := by
  rcases execTranslate_eq_next.1 h with ⟨hc, code, hf, rfl⟩ | ⟨-, hw, rfl⟩
  · exact (positionOk_abort rfl).2 ⟨hon, hc, rfl, failedCheck_ne_zero hf⟩
  · exact (positionOk_split rfl).2 ⟨hon, blockOf_le_of_inWindow hw _⟩

theorem execSplit_positionOk (hon : onRegion s) (h : execSplit s = .next t) : positionOk t := by
  obtain ⟨hle, hn, rfl⟩ := execSplit_eq_next.1 h
  have hend : s.afterSplit.work.endLut.toNat < s.afterSplit.params.nLutWords := by
    show (lutIndex s.work.endBlock).toNat < s.params.nLutWords
    rwa [lutIndex_toNat]
  rcases afterSplit_phase hle with ⟨hp, heq⟩ | ⟨hp, hlt⟩
  · have hoff : s.afterSplit.work.startOffset ≤ s.afterSplit.work.endOffset := by
      have heq' : lutIndex s.work.startBlock = lutIndex s.work.endBlock := heq
      rw [← BitVec.toNat_inj, lutIndex_toNat, lutIndex_toNat] at heq'
      show lutOffset s.work.startBlock ≤ lutOffset s.work.endBlock
      rw [BitVec.le_def, lutOffset_toNat, lutOffset_toNat]
      omega
    exact (positionOk_single hp).2 ⟨hon, heq, hoff, hend⟩
  · exact (positionOk_first hp).2 ⟨hon, hlt, hend⟩

/-- What the phases of Case B say, but for `wi`: a region of more than one LUT word, which exist. -/
def inCaseB (s : State) : Prop :=
  onRegion s ∧ s.work.startLut < s.work.endLut ∧ s.work.endLut.toNat < s.params.nLutWords

theorem inCaseB_firstWritten (h : inCaseB s) : inCaseB s.firstWritten := by
  unfold State.firstWritten
  split <;> exact h

theorem afterFirst_positionOk (h : inCaseB s) : positionOk (afterFirst s) := by
  obtain ⟨hon, hlt, hend⟩ := h
  have hnext := toNat_add_one_of_lt hlt
  unfold afterFirst
  split
  · refine (positionOk_mid rfl).2 ⟨hon, ?_, ‹_›, hend⟩
    show s.work.startLut < s.work.startLut + 1
    rw [BitVec.lt_def]
    omega
  · exact (positionOk_last rfl).2 ⟨hon, hlt, hend⟩

theorem execFirst_positionOk (hc : s.cfg.wf) (hin : inCaseB s) (h : execFirst s = .next t) : positionOk t := by
  obtain ⟨-, rfl⟩ := (execFirst_eq_next hc).1 h
  exact afterFirst_positionOk (inCaseB_firstWritten hin)

theorem execMid_positionOk (hp : s.phase = .mid) (hpos : positionOk s) (h : execMid s = .next t) : positionOk t := by
  obtain ⟨-, rfl⟩ := execMid_eq_next.1 h
  obtain ⟨hon, hlow, hlt, hend⟩ := (positionOk_mid hp).1 hpos
  have hnext := toNat_add_one_of_lt hlt
  unfold afterMid
  split
  · refine (positionOk_mid (s := (s.afterAssign s.work.curType s.wi allOnes).setWi (s.wi + 1)) hp).2
      ⟨hon, ?_, ‹_›, hend⟩
    show s.work.startLut < s.wi + 1
    rw [BitVec.lt_def] at hlow ⊢
    omega
  · exact (positionOk_last rfl).2 ⟨hon, BitVec.lt_trans hlow hlt, hend⟩

/-- The operation of a phase leaves the next phase what it needs. -/
theorem phaseOp_positionOk (hc : s.cfg.wf) (hpos : positionOk s) (h : phaseOp s = .next t) : positionOk t := by
  cases hp : s.phase with
  | idle | done | abort =>
    rw [phaseOp, hp] at h
    exact Host.Outcome.next.inj h ▸ hpos
  | resolve => exact execResolve_positionOk hc ((positionOk_resolve hp).1 hpos) (phaseOp_resolve hp ▸ h)
  | translate =>
    obtain ⟨hon, -⟩ := (positionOk_translate hp).1 hpos
    exact execTranslate_positionOk hon (phaseOp_translate hp ▸ h)
  | split =>
    obtain ⟨hon, -⟩ := (positionOk_split hp).1 hpos
    exact execSplit_positionOk hon (phaseOp_split hp ▸ h)
  | single =>
    obtain ⟨hon, -⟩ := (positionOk_single hp).1 hpos
    obtain ⟨-, -, hn⟩ := (execSingle_eq_next hc).1 (phaseOp_single hp ▸ h)
    exact nextRegion_merged_positionOk hon hn
  | first => exact execFirst_positionOk hc ((positionOk_first hp).1 hpos) (phaseOp_first hp ▸ h)
  | mid => exact execMid_positionOk hp hpos (phaseOp_mid hp ▸ h)
  | last =>
    obtain ⟨hon, -⟩ := (positionOk_last hp).1 hpos
    obtain ⟨-, hn⟩ := (execLast_eq_next hc).1 (phaseOp_last hp ▸ h)
    exact nextRegion_merged_positionOk hon hn

/-- So does a walk of phase operations. -/
theorem phaseRun_positionOk {n : Nat} (hc : s.cfg.wf) (hpos : positionOk s) (h : phaseRun n s = .next t) :
    positionOk t := by
  induction n generalizing s with
  | zero => exact Host.Outcome.next.inj h ▸ hpos
  | succ n ih =>
    obtain ⟨u, hu, hn⟩ := andThen_eq_next.1 h
    obtain ⟨⟨hcfg, -⟩, -⟩ := busRel_true.opRel.phaseOp hu hc
    exact ih (hcfg ▸ hc) (phaseOp_positionOk hc hpos hu) hn

/-! ### The step -/

theorem execRun_positionOk {b : Bool} (hpos : positionOk s) (h : execRun b s = .next t) : positionOk t := by
  rcases execRun_eq_next.1 h with ⟨-, hr, hn⟩ | ⟨-, rfl⟩
  · exact enterRegion_positionOk hr (Nat.zero_le _) hn
  · exact hpos

/-- A region executed whole, whose descriptor stands at `ri`: loading it again changes nothing the position needs. -/
theorem execRegion_positionOk {d : Descriptor} {r : Region} (hc : s.cfg.wf) (hon : onRegion s)
    (hd : s.regions[s.ri]? = some d) (hr : decodeRegion d = .ok r) (h : execRegion r s = .next t) : positionOk t := by
  rw [execRegion_eq_phaseRun hc] at h
  exact phaseRun_positionOk (s := s.loadRegion r) hc ((positionOk_resolve rfl).2 ⟨hon.1, d, hd, hr⟩) h

theorem step_positionOk (hpos : positionOk s) (h : step s = .next t) : positionOk t := by
  have htick : positionOk s.tick := hpos
  obtain ⟨hc, ⟨-, rfl⟩ | ⟨-, h⟩ | ⟨-, -, rfl⟩ | ⟨-, hb, i, hf, h⟩⟩ := step_eq_next.1 h
  · exact show (0 : Nat) = 0 from rfl
  · exact execRun_positionOk htick h
  · exact htick
  · rcases exec_of_fetch hb hf with hop | ⟨-, hp, d, r, hd, hr, hop⟩
    · exact phaseOp_positionOk (s := s.tick) hc htick ((hop s.tick rfl).symm.trans h)
    · exact execRegion_positionOk (s := s.tick) hc ((positionOk_resolve hp).1 hpos) hd hr ((hop s.tick).symm.trans h)

/-- Settles O43: parameters and bus by what every bus access keeps, the position phase by phase. -/
theorem stepKeepsInvariant : Obligations.StepKeepsInvariant := by
  intro s t hinv h
  obtain ⟨hc, hbus, hpos⟩ := s.inv_iff.1 hinv
  obtain ⟨⟨hcfg, -⟩, hkept⟩ := busRel_busOk.step h
  exact t.inv_iff.2 ⟨hcfg ▸ hc, hkept hc ⟨hbus.canonical, hbus.inLut, hbus.events⟩, step_positionOk hpos h⟩

end Sys2Proof.Machine
end

section
/-! PROOFS. O49: no step depends on a dead working register. Every operation gives the same outcome, up to dead registers,
on a state and on that state with its dead registers put to their reset values. -/

namespace Sys2Proof.Machine

/-! ### Outcomes without what no later step reads -/

/-- The outcome without what no later step reads of its state. -/
def observedOutcome : Result → Result
  | .next s => .next s.observed
  | .fault r => .fault r
  | .refused r => .refused r

theorem sameOutcome_iff (o o' : Result) : sameOutcome o o' ↔ observedOutcome o = observedOutcome o' := by
  cases o <;> cases o' <;> simp [sameOutcome, observedOutcome]

theorem liveWork_liveWork (p : Phase) (w : Work) : liveWork p (liveWork p w) = liveWork p w := by
  cases p <;> rfl

theorem State.observed_observed (s : State) : s.observed.observed = s.observed := by
  simp only [State.observed, liveWork_liveWork]
  split <;> rfl

/-- The operation does not depend on the dead registers of `s`. -/
def ignoresDead (f : State → Result) (s : State) : Prop :=
  observedOutcome (f s.observed) = observedOutcome (f s)

theorem ignoresDead_next (s : State) : ignoresDead .next s :=
  congrArg Host.Outcome.next s.observed_observed

/-- States that differ in dead registers only give outcomes that differ so. -/
theorem ignoresDead.congr {f : State → Result} {a b : State} (ha : ignoresDead f a) (hb : ignoresDead f b)
    (h : a.observed = b.observed) : observedOutcome (f a) = observedOutcome (f b) := by
  rw [← show observedOutcome (f a.observed) = _ from ha, h]
  exact hb

/-- An operation that ignores dead registers after outcomes that differ in them only. -/
theorem observedOutcome_andThen {o o' : Result} {f : State → Result} (ho : observedOutcome o = observedOutcome o')
    (hf : ∀ a, o = .next a ∨ o' = .next a → ignoresDead f a) :
    observedOutcome (andThen o f) = observedOutcome (andThen o' f) := by
  cases o with
  | next a =>
    cases o' with
    | next b => exact (hf a (.inl rfl)).congr (hf b (.inr rfl)) (Host.Outcome.next.inj ho)
    | fault r => exact nomatch ho
    | refused r => exact nomatch ho
  | fault r => cases r
  | refused r =>
    cases o' with
    | next b => exact nomatch ho
    | fault r' => cases r'
    | refused r' => exact ho

/-! ### The shared operations -/

/-- The mask register is dead in every phase: whatever it holds, its value after `setMask` is put away again. -/
theorem observed_setMask (s : State) (m : Word) : (s.observed.setMask m).observed = (s.setMask m).observed := by
  obtain ⟨cfg, regions, mem, phase, ri, wi, work, abortCode, abortRi, trace, inputs, grain⟩ := s
  cases phase <;> rfl

/-- ORMERGE reads and writes no working register but `rdata`, which is dead in every phase. -/
theorem orMerge_ignoresDead (t : MemType) (w m : Word) (s : State) : ignoresDead (orMerge t w m) s := by
  obtain ⟨cfg, regions, mem, phase, ri, wi, work, abortCode, abortRi, trace, inputs, grain⟩ := s
  unfold ignoresDead orMerge
  by_cases hw : w.toNat < (cfg.of t).nLutWords
  · simp only [State.observed, hw, if_true]
    cases phase <;> rfl
  · simp only [State.observed, hw, if_false]

theorem assign_ignoresDead (t : MemType) (w v : Word) (s : State) : ignoresDead (assign t w v) s := by
  obtain ⟨cfg, regions, mem, phase, ri, wi, work, abortCode, abortRi, trace, inputs, grain⟩ := s
  unfold ignoresDead assign
  by_cases hw : w.toNat < (cfg.of t).nLutWords
  · simp only [State.observed, hw, if_true]
    cases phase <;> rfl
  · simp only [State.observed, hw, if_false]

/-- The Region fetched is all that RESOLVE and later phases read, and DONE reads nothing. -/
theorem enterRegion_ignoresDead (n : Nat) (s : State) : ignoresDead (enterRegion n) s := by
  unfold ignoresDead enterRegion
  rw [show s.observed.regions = s.regions from rfl]
  cases s.regions[n]? with
  | none => rfl
  | some d =>
    cases hr : decodeRegion d with
    | ok r => simp only [hr]; rfl
    | error e => simp only [hr]

theorem nextRegion_ignoresDead (s : State) : ignoresDead nextRegion s :=
  enterRegion_ignoresDead (s.ri + 1) s

/-- ORMERGE after the mask register is written. -/
theorem orMerge_setMask_observed (t : MemType) (w m : Word) (s : State) :
    observedOutcome (orMerge t w m (s.observed.setMask m)) = observedOutcome (orMerge t w m (s.setMask m)) :=
  (orMerge_ignoresDead t w m _).congr (orMerge_ignoresDead t w m _) (observed_setMask s m)

theorem assign_setMask_observed (t : MemType) (w m : Word) (s : State) :
    observedOutcome (assign t w m (s.observed.setMask m)) = observedOutcome (assign t w m (s.setMask m)) :=
  (assign_ignoresDead t w m _).congr (assign_ignoresDead t w m _) (observed_setMask s m)

/-- The write primitives stay in their phase. -/
theorem orMerge_phase {t : MemType} {w m : Word} {s u : State} (h : orMerge t w m s = .next u) : u.phase = s.phase := by
  unfold orMerge at h
  split at h
  · exact Host.Outcome.next.inj h ▸ rfl
  · exact nomatch h

theorem assign_phase {t : MemType} {w v : Word} {s u : State} (h : assign t w v s = .next u) : u.phase = s.phase := by
  obtain ⟨-, rfl⟩ := assign_eq_next.1 h
  rfl

/-! ### The phases -/

variable {s : State}

theorem execResolve_ignoresDead (hp : s.phase = .resolve) : ignoresDead execResolve s := by
  obtain ⟨cfg, regions, mem, phase, ri, wi, work, abortCode, abortRi, trace, inputs, grain⟩ := s
  subst hp
  rfl

theorem execTranslate_ignoresDead (hp : s.phase = .translate) : ignoresDead execTranslate s := by
  obtain ⟨cfg, regions, mem, phase, ri, wi, work, abortCode, abortRi, trace, inputs, grain⟩ := s
  subst hp
  simp only [ignoresDead, execTranslate, State.observed, liveWork, State.params]
  by_cases hcheck : cfg.checkPreconditions = true
  · simp only [hcheck, if_true]
    cases failedCheck (cfg.of work.curType) work.curStart work.curEnd work.blocksize <;> rfl
  · simp only [hcheck, Bool.false_eq_true, if_false]
    by_cases hw : inWindow (cfg.of work.curType) work.curStart work.curEnd = true
    · simp only [hw, if_true]; rfl
    · simp only [hw, Bool.false_eq_true, if_false]

theorem execSplit_ignoresDead (hp : s.phase = .split) : ignoresDead execSplit s := by
  obtain ⟨cfg, regions, mem, phase, ri, wi, work, abortCode, abortRi, trace, inputs, grain⟩ := s
  subst hp
  simp only [ignoresDead, execSplit, State.observed, liveWork, State.params, split_order_iff]
  by_cases hlt : work.endBlock.toNat < work.startBlock.toNat
  · simp only [hlt, if_true]
  · by_cases hn : (lutIndex work.endBlock).toNat ≥ (cfg.of work.curType).nLutWords
    · simp only [hlt, hn, if_true, if_false]
    · simp only [hlt, hn, if_false]
      by_cases heq : lutIndex work.startBlock = lutIndex work.endBlock
      · simp only [heq, if_true]; rfl
      · simp only [heq, if_false]; rfl

/-- The working registers a phase reads are kept. -/
theorem observed_work (s : State) : s.observed.work = liveWork s.phase s.work := rfl

theorem execSingle_ignoresDead (hp : s.phase = .single) : ignoresDead execSingle s := by
  simp only [ignoresDead, execSingle, observed_work, hp, liveWork]
  split
  · exact observedOutcome_andThen (orMerge_setMask_observed _ _ _ s) fun a _ => nextRegion_ignoresDead a
  · rfl

theorem execLast_ignoresDead (hp : s.phase = .last) : ignoresDead execLast s := by
  simp only [ignoresDead, execLast, observed_work, hp, liveWork]
  exact observedOutcome_andThen (orMerge_setMask_observed _ _ _ s) fun a _ => nextRegion_ignoresDead a

theorem afterFirst_ignoresDead (hp : s.phase = .first) : ignoresDead (fun a => .next (afterFirst a)) s := by
  obtain ⟨cfg, regions, mem, phase, ri, wi, work, abortCode, abortRi, trace, inputs, grain⟩ := s
  subst hp
  simp only [ignoresDead, afterFirst, State.observed, liveWork]
  split <;> rfl

theorem execFirst_ignoresDead (hp : s.phase = .first) : ignoresDead execFirst s := by
  simp only [ignoresDead, execFirst, observed_work, hp, liveWork]
  rw [show s.observed.cfg = s.cfg from rfl]
  cases s.cfg.mergePolicy with
  | uniformOr =>
    exact observedOutcome_andThen (orMerge_setMask_observed _ _ _ s) fun a ha =>
      afterFirst_ignoresDead (ha.elim (fun h => (orMerge_phase h).trans hp) fun h => (orMerge_phase h).trans hp)
  | legacyAssign =>
    exact observedOutcome_andThen (assign_setMask_observed _ _ _ s) fun a ha =>
      afterFirst_ignoresDead (ha.elim (fun h => (assign_phase h).trans hp) fun h => (assign_phase h).trans hp)

theorem afterMid_ignoresDead (hp : s.phase = .mid) : ignoresDead (fun a => .next (afterMid a)) s := by
  obtain ⟨cfg, regions, mem, phase, ri, wi, work, abortCode, abortRi, trace, inputs, grain⟩ := s
  subst hp
  simp only [ignoresDead, afterMid, State.observed, liveWork, if_true]
  split <;> rfl

/-- MID is the one phase in which `wi` is read (10_state.md R22). -/
theorem execMid_ignoresDead (hp : s.phase = .mid) : ignoresDead execMid s := by
  have hwi : s.observed.wi = s.wi := by simp [State.observed, hp]
  simp only [ignoresDead, execMid, fill, observed_work, hwi, hp, liveWork]
  exact observedOutcome_andThen (assign_ignoresDead _ _ _ s) fun a ha =>
    afterMid_ignoresDead (ha.elim (fun h => (assign_phase h).trans hp) fun h => (assign_phase h).trans hp)

/-- The operation of a phase reads what is live in it and leaves the same live registers to the next. -/
theorem phaseOp_ignoresDead (s : State) : ignoresDead phaseOp s := by
  have hp' : s.observed.phase = s.phase := rfl
  unfold ignoresDead
  cases hp : s.phase with
  | idle | done | abort =>
    rw [phaseOp, hp', hp, phaseOp, hp]
    exact ignoresDead_next s
  | resolve => rw [phaseOp_resolve (hp'.trans hp), phaseOp_resolve hp]; exact execResolve_ignoresDead hp
  | translate => rw [phaseOp_translate (hp'.trans hp), phaseOp_translate hp]; exact execTranslate_ignoresDead hp
  | split => rw [phaseOp_split (hp'.trans hp), phaseOp_split hp]; exact execSplit_ignoresDead hp
  | single => rw [phaseOp_single (hp'.trans hp), phaseOp_single hp]; exact execSingle_ignoresDead hp
  | first => rw [phaseOp_first (hp'.trans hp), phaseOp_first hp]; exact execFirst_ignoresDead hp
  | mid => rw [phaseOp_mid (hp'.trans hp), phaseOp_mid hp]; exact execMid_ignoresDead hp
  | last => rw [phaseOp_last (hp'.trans hp), phaseOp_last hp]; exact execLast_ignoresDead hp

theorem phaseRun_ignoresDead (n : Nat) (s : State) : ignoresDead (phaseRun n) s := by
  induction n generalizing s with
  | zero => exact ignoresDead_next s
  | succ n ih => exact observedOutcome_andThen (phaseOp_ignoresDead s) fun a _ => ih a

/-! ### The step -/

/-- A region executed whole first loads the registers its phases start from, and takes as many phases whatever else the
registers hold. -/
theorem execRegion_ignoresDead (hc : s.cfg.wf) (r : Region) : ignoresDead (execRegion r) s := by
  show observedOutcome (execRegion r s.observed) = _
  rw [execRegion_eq_phaseRun (s := s.observed) hc, execRegion_eq_phaseRun hc]
  exact (phaseRun_ignoresDead _ _).congr (phaseRun_ignoresDead _ _) rfl

theorem execRun_ignoresDead (b : Bool) (s : State) : ignoresDead (execRun b) s := by
  have start : observedOutcome (if regionsDecode s.regions then enterRegion 0 s.observed else .refused .reservedBits) =
      observedOutcome (if regionsDecode s.regions then enterRegion 0 s else .refused .reservedBits) := by
    split
    · exact enterRegion_ignoresDead 0 s
    · rfl
  simp only [ignoresDead, execRun]
  rw [show s.observed.phase = s.phase from rfl, show s.observed.regions = s.regions from rfl]
  split
  · exact start
  · exact start
  · exact ignoresDead_next s
  · rfl

/-- The instruction a step executes is RUN, or what a busy block fetches. -/
theorem nextAction_eq_execute {i : Instr} (h : nextAction s = .execute i) :
    s.cfg.wf = true ∧ (i = .run s.done ∨ (s.busy = true ∧ decode (fetchBytes s) = .ok i)) := by
  unfold nextAction at h
  split at h
  · refine ⟨‹_›, ?_⟩
    split at h
    · exact nomatch h
    · exact .inl (Action.execute.inj h).symm
    · split at h
      · split at h
        · exact .inr ⟨‹_›, Action.execute.inj h ▸ ‹_›⟩
        · exact nomatch h
      · exact nomatch h
  · exact nomatch h

/-- The instruction a step executes ignores dead registers of the state it executes it in. -/
theorem exec_ignoresDead {i : Instr} (h : nextAction s = .execute i) : ignoresDead (exec i) s.tick := by
  obtain ⟨hc, rfl | ⟨hb, hf⟩⟩ := nextAction_eq_execute h
  · exact execRun_ignoresDead s.done s.tick
  · rcases exec_of_fetch hb hf with hop | ⟨-, -, -, r, -, -, hop⟩
    · unfold ignoresDead
      rw [hop s.tick rfl, hop s.tick.observed rfl]
      exact phaseOp_ignoresDead s.tick
    · unfold ignoresDead
      rw [hop s.tick, hop s.tick.observed]
      exact execRegion_ignoresDead (s := s.tick) hc r

/-- What a step does is chosen without working registers, and what is chosen ignores the dead ones. -/
theorem step_ignoresDead (s : State) : ignoresDead step s := by
  unfold ignoresDead step
  rw [show nextAction s.observed = nextAction s from rfl]
  cases h : nextAction s with
  | execute i => exact exec_ignoresDead h
  | wait => exact ignoresDead_next s.tick
  | reset => rfl
  | stop r => rfl

/-- Settles O49: the two steps give the outcome of the step from the state they agree on. -/
theorem workingRegistersTransient : Obligations.WorkingRegistersTransient := by
  intro s s' h
  exact (sameOutcome_iff _ _).2 ((step_ignoresDead s).congr (step_ignoresDead s') h)

end Sys2Proof.Machine
end

section
/-! PROOFS. The trace of a step: O47, that it accounts for the register space, is kept by every bus access; O48, that it
stays with the current type, is followed up to the operation that ends a region, which alone changes the type. -/

namespace Sys2Proof.Machine

variable {s t : State}

/-! ### The trace accounts for the register space -/

/-- A read that appends its event and returns the register is in order (20_memory.md R44). -/
theorem InOrderBus.logRead (s : State) (a : Word) :
    InOrderBus s (s.log { kind := .rd, addr := a, data := s.regAt a }) :=
  ⟨_, rfl, rfl, fun _ => rfl, trivial⟩

/-- A write that appends its event and stores its word is in order (20_memory.md R44). -/
theorem InOrderBus.afterAssign (s : State) (ty : MemType) (w v : Word) : InOrderBus s (s.afterAssign ty w v) :=
  ⟨_, rfl, rfl, nofun, trivial⟩

/-- An OR-merge is a read and then a write in order (43_lut_programmer.md R80). -/
theorem InOrderBus.afterOrMerge (hc : s.cfg.wf) {ty : MemType} {w : Word} (m : Word)
    (hw : w.toNat < (s.cfg.of ty).nLutWords) : InOrderBus s (s.afterOrMerge ty w m) :=
  ⟨_, rfl, rfl, fun _ => (State.regAt_lutAddr hc hw).symm, nofun, trivial⟩

theorem busRel_inOrderBus : BusRel InOrderBus where
  frame _ _ _ hm ht := ⟨[], by rw [ht, List.append_nil], hm, trivial⟩
  trans _ _ _ hp hab hbc := hab.trans hp.1 hbc
  readCfg a ty hc := State.regAt_cfgAddr hc ty ▸ InOrderBus.logRead a (a.cfg.of ty).cfgAddr
  merge _ _ _ m hc hw := InOrderBus.afterOrMerge hc m hw
  fill a ty w _ _ := InOrderBus.afterAssign a ty w allOnes
  legacy a ty w v _ _ _ := InOrderBus.afterAssign a ty w v

/-- Settles O47: each access of the block applies its event to the register space, and accesses in order compose. -/
theorem traceReplaysToMemory : Obligations.TraceReplaysToMemory :=
  fun _ _ h => (busRel_inOrderBus.step h).2

/-! ### The bus stays with the current type -/

/-- A read of the current type's CFG that returns its value, or an access to a word of the current type's LUT array. -/
def State.ownEvent (s : State) (e : BusEvent) : Prop :=
  (e.kind = .rd ∧ e.addr = s.params.cfgAddr ∧ e.data = s.params.cfgValue) ∨
  ∃ w : Word, w.toNat < s.params.nLutWords ∧ e.addr = lutAddr s.params w

/-- What `t` has issued since `s` are transactions of the type current in `s`. -/
def ownBus (s t : State) : Prop :=
  ∃ es, t.trace = s.trace ++ es ∧ ∀ e ∈ es, s.ownEvent e

theorem ownBus_of_trace_eq (h : t.trace = s.trace) : ownBus s t :=
  ⟨[], by rw [h, List.append_nil], nofun⟩

/-- Work on one region: own transactions, and the parameters and the current type are kept. -/
structure WithinRegion (s t : State) : Prop where
  cfg : t.cfg = s.cfg
  curType : t.work.curType = s.work.curType
  bus : ownBus s t

namespace WithinRegion

theorem params (h : WithinRegion s t) : t.params = s.params := by
  rw [State.params, h.cfg, h.curType, State.params]

/-- After work on a region, what follows on its type is own as well. -/
theorem ownBus_trans {u : State} (h : WithinRegion s t) (h' : ownBus t u) : ownBus s u := by
  obtain ⟨es, ht, hes⟩ := h.bus
  obtain ⟨fs, hu, hfs⟩ := h'
  refine ⟨es ++ fs, by rw [hu, ht, List.append_assoc], fun e he => ?_⟩
  rcases List.mem_append.1 he with he | he
  · exact hes e he
  · have hown := hfs e he
    rwa [State.ownEvent, h.params] at hown

theorem trans {u : State} (h : WithinRegion s t) (h' : WithinRegion t u) : WithinRegion s u :=
  ⟨h'.cfg.trans h.cfg, h'.curType.trans h.curType, h.ownBus_trans h'.bus⟩

theorem of_trace_eq (hc : t.cfg = s.cfg) (hty : t.work.curType = s.work.curType) (ht : t.trace = s.trace) :
    WithinRegion s t :=
  ⟨hc, hty, ownBus_of_trace_eq ht⟩

theorem refl (s : State) : WithinRegion s s := of_trace_eq rfl rfl rfl

theorem setMask (s : State) (m : Word) : WithinRegion s (s.setMask m) := of_trace_eq rfl rfl rfl

/-- A write of a word of the current type. -/
theorem afterAssign {w : Word} (v : Word) (hw : w.toNat < s.params.nLutWords) :
    WithinRegion s (s.afterAssign s.work.curType w v) := by
  refine ⟨rfl, rfl, _, rfl, fun e he => .inr ⟨w, hw, ?_⟩⟩
  obtain rfl := List.mem_singleton.1 he
  rfl

/-- An OR-merge into a word of the current type, its mask written first. -/
theorem merged {w : Word} (m : Word) (hw : w.toNat < s.params.nLutWords) : WithinRegion s (s.merged w m) := by
  refine ⟨rfl, rfl, _, rfl, fun e he => .inr ⟨w, hw, ?_⟩⟩
  rcases List.mem_pair.1 he with rfl | rfl <;> rfl

theorem of_execResolve (hc : s.cfg.wf) (h : execResolve s = .next t) : WithinRegion s t := by
  rw [execResolve_next hc] at h
  obtain rfl := Host.Outcome.next.inj h
  refine ⟨rfl, rfl, _, rfl, fun e he => .inl ?_⟩
  obtain rfl := List.mem_singleton.1 he
  exact ⟨rfl, rfl, rfl⟩

theorem of_execTranslate (h : execTranslate s = .next t) : WithinRegion s t := by
  rcases execTranslate_eq_next.1 h with ⟨-, code, -, rfl⟩ | ⟨-, -, rfl⟩
  · exact of_trace_eq rfl rfl rfl
  · exact of_trace_eq rfl rfl rfl

theorem of_execSplit (h : execSplit s = .next t) : WithinRegion s t := by
  obtain ⟨-, -, rfl⟩ := execSplit_eq_next.1 h
  exact of_trace_eq rfl rfl rfl

theorem firstWritten (hw : s.work.startLut.toNat < s.params.nLutWords) : WithinRegion s s.firstWritten := by
  unfold State.firstWritten
  split
  · exact merged _ hw
  · exact (setMask s _).trans (afterAssign (s := s.setMask (setBitRange s.work.startOffset 31)) _ hw)

theorem afterFirst (s : State) : WithinRegion s (afterFirst s) := by
  unfold Machine.afterFirst
  split <;> exact of_trace_eq rfl rfl rfl

theorem afterMid (s : State) : WithinRegion s (afterMid s) := by
  unfold Machine.afterMid
  split <;> exact of_trace_eq rfl rfl rfl

theorem of_execFirst (hc : s.cfg.wf) (h : execFirst s = .next t) : WithinRegion s t := by
  obtain ⟨hw, rfl⟩ := (execFirst_eq_next hc).1 h
  exact (firstWritten hw).trans (afterFirst _)

theorem of_execMid (h : execMid s = .next t) : WithinRegion s t := by
  obtain ⟨hw, rfl⟩ := execMid_eq_next.1 h
  exact (afterAssign allOnes hw).trans (afterMid _)

theorem of_midSteps {n : Nat} (h : midSteps n s = .next t) : WithinRegion s t := by
  induction n generalizing s with
  | zero => exact Host.Outcome.next.inj h ▸ refl s
  | succ n ih =>
    obtain ⟨u, hu, hn⟩ := andThen_eq_next.1 h
    exact (of_execMid hu).trans (ih hn)

/-- Taking up the next region changes the type but issues no transaction (20_memory.md R31). -/
theorem ownBus_nextRegion (h : WithinRegion s t) {u : State} (hn : nextRegion t = .next u) : ownBus s u := by
  obtain ⟨-, -, -, -, ht, -⟩ := enterRegion_takenUp hn
  exact h.ownBus_trans (ownBus_of_trace_eq ht)

end WithinRegion

theorem execSingle_ownBus (hc : s.cfg.wf) (h : execSingle s = .next t) : ownBus s t := by
  obtain ⟨-, hw, hn⟩ := (execSingle_eq_next hc).1 h
  exact (WithinRegion.merged _ hw).ownBus_nextRegion hn

theorem execLast_ownBus (hc : s.cfg.wf) (h : execLast s = .next t) : ownBus s t := by
  obtain ⟨hw, hn⟩ := (execLast_eq_next hc).1 h
  exact (WithinRegion.merged _ hw).ownBus_nextRegion hn

theorem phaseOp_ownBus (hc : s.cfg.wf) (h : phaseOp s = .next t) : ownBus s t := by
  cases hp : s.phase with
  | idle | done | abort =>
    rw [phaseOp, hp] at h
    exact ownBus_of_trace_eq (Host.Outcome.next.inj h ▸ rfl)
  | resolve => exact (WithinRegion.of_execResolve hc (phaseOp_resolve hp ▸ h)).bus
  | translate => exact (WithinRegion.of_execTranslate (phaseOp_translate hp ▸ h)).bus
  | split => exact (WithinRegion.of_execSplit (phaseOp_split hp ▸ h)).bus
  | single => exact execSingle_ownBus hc (phaseOp_single hp ▸ h)
  | first => exact (WithinRegion.of_execFirst hc (phaseOp_first hp ▸ h)).bus
  | mid => exact (WithinRegion.of_execMid (phaseOp_mid hp ▸ h)).bus
  | last => exact execLast_ownBus hc (phaseOp_last hp ▸ h)

/-- Case B: every operation but LAST stays within the region. -/
theorem caseB_ownBus (hc : s.cfg.wf) (h : caseB s = .next t) : ownBus s t := by
  obtain ⟨u, hfirst, h⟩ := andThen_eq_next.1 h
  obtain ⟨v, hmids, hlast⟩ := andThen_eq_next.1 h
  have hin : WithinRegion s v := (WithinRegion.of_execFirst hc hfirst).trans (WithinRegion.of_midSteps hmids)
  exact hin.ownBus_trans (execLast_ownBus (hin.cfg ▸ hc) hlast)

theorem program_ownBus (hc : s.cfg.wf) (h : program s = .next t) : ownBus s t := by
  obtain ⟨u, hsplit, h⟩ := andThen_eq_next.1 h
  have hin : WithinRegion s u := WithinRegion.of_execSplit hsplit
  refine hin.ownBus_trans ?_
  split at h
  · exact execSingle_ownBus (hin.cfg ▸ hc) h
  · exact caseB_ownBus (hin.cfg ▸ hc) h

/-- A region executed whole: its transactions are of its own type (44_orchestrator.md R95). -/
theorem execRegion_ownBus {r : Region} (hc : s.cfg.wf) (hty : r.type = s.work.curType)
    (h : execRegion r s = .next t) : ownBus s t := by
  obtain ⟨u, hresolve, h⟩ := andThen_eq_next.1 h
  obtain ⟨v, htranslate, h⟩ := andThen_eq_next.1 h
  have hload : WithinRegion s (s.loadRegion r) := .of_trace_eq rfl hty rfl
  have hin : WithinRegion s v :=
    hload.trans ((WithinRegion.of_execResolve (s := s.loadRegion r) hc hresolve).trans
      (WithinRegion.of_execTranslate htranslate))
  refine hin.ownBus_trans ?_
  split at h
  · exact ownBus_of_trace_eq (Host.Outcome.next.inj h ▸ rfl)
  · exact program_ownBus (hin.cfg ▸ hc) h

/-- The trigger issues no transaction (44_orchestrator.md R96). -/
theorem execRun_trace {b : Bool} (h : execRun b s = .next t) : t.trace = s.trace := by
  rcases execRun_eq_next.1 h with ⟨-, -, hn⟩ | ⟨-, rfl⟩
  · obtain ⟨-, -, -, -, ht, -⟩ := enterRegion_takenUp hn
    exact ht
  · rfl

/-- The descriptor at `ri` spells the region the registers hold. -/
theorem onRegion.type_eq {d : Descriptor} {r : Region} (hon : onRegion s) (hd : s.regions[s.ri]? = some d)
    (hr : decodeRegion d = .ok r) : r.type = s.work.curType := by
  obtain ⟨-, d', hd', hr'⟩ := hon
  obtain rfl : d = d' := Option.some.inj (hd.symm.trans hd')
  obtain rfl : r = s.curRegion := Except.ok.inj (hr.symm.trans hr')
  rfl

/-- A step of a busy block that is not triggered issues own transactions; any other step issues none. -/
theorem step_ownBus (hpos : positionOk s) (h : step s = .next t) :
    t.trace = s.trace ∨ (s.busy = true ∧ ownBus s t) := by
  obtain ⟨hc, ⟨-, rfl⟩ | ⟨-, h⟩ | ⟨-, -, rfl⟩ | ⟨-, hb, i, hf, h⟩⟩ := step_eq_next.1 h
  · exact .inl rfl
  · exact .inl (execRun_trace (s := s.tick) h)
  · exact .inl rfl
  · refine .inr ⟨hb, ?_⟩
    rcases exec_of_fetch hb hf with hop | ⟨-, hp, d, r, hd, hr, hop⟩
    · exact phaseOp_ownBus (s := s.tick) hc ((hop s.tick rfl).symm.trans h)
    · have hty : r.type = s.work.curType := ((positionOk_resolve hp).1 hpos).type_eq hd hr
      exact execRegion_ownBus (s := s.tick) hc hty ((hop s.tick).symm.trans h)

/-- Settles O48: only the operation that ends a region changes the type, and it does so after its accesses. -/
theorem busStaysWithCurrentType : Obligations.BusStaysWithCurrentType := by
  intro s t hinv h
  rcases step_ownBus hinv.position h with ht | ⟨hb, es, ht, hes⟩
  · exact ⟨[], by rw [ht, List.append_nil], nofun⟩
  · exact ⟨es, ht, fun e he => ⟨hb, hes e he⟩⟩

end Sys2Proof.Machine
end

section
/-! PROOFS. Decoder and encoder are inverse to each other: O2, O3; the spec's written-out words and the reserved bits:
O1, O4 (30_encoding.md R50 to R62). -/

namespace Sys2Proof.Machine

/-! ### Every instruction decodes from its encoding -/

theorem codeOfMemType_ushiftRight (t : MemType) : codeOfMemType t >>> 1 = 0#32 := by cases t <;> rfl

theorem memTypeOfCode_codeOfMemType (t : MemType) : memTypeOfCode ((codeOfMemType t).getLsbD 0) = t := by
  cases t <;> rfl

theorem decodeRegion_encodeRegion (r : Region) : decodeRegion (encodeRegion r) = .ok r :=
  decodeRegion_eq_ok.2 ⟨codeOfMemType_ushiftRight r.type, by rw [encodeRegion, memTypeOfCode_codeOfMemType]⟩

/-- The instruction a Region is has the Region's descriptor as its encoding (30_encoding.md R50). -/
theorem encode_toInstr (r : Region) : encode r.toInstr = (encodeRegion r).toBytes := by
  obtain ⟨start, stop, type⟩ := r
  cases type <;> rfl

theorem decode_encode_toInstr (r : Region) : decode (encode r.toInstr) = .ok r.toInstr := by
  rw [encode_toInstr, decode_toBytes, decodeRegion_encodeRegion]
  rfl

/-- Settles O2: a descriptor by its Region, whatever the operands; every other encoding is a single phase code. -/
theorem decodeEncodeAgree : Obligations.DecodeEncodeAgree := by
  intro i
  cases i with
  | nsrItcm start stop => exact decode_encode_toInstr ⟨start, stop, .itcm⟩
  | nsrDtcm start stop => exact decode_encode_toInstr ⟨start, stop, .dtcm⟩
  | run fromDone => cases fromDone <;> rfl
  | resolve | translate | split | single | first | mid | last => rfl

/-! ### Bytes that decode are an encoding -/

theorem extractLsb'_append_lowByte {v : Nat} (hi : BitVec v) (b : Byte) : (hi ++ b).extractLsb' 0 8 = b :=
  (BitVec.extractLsb'_append_eq_of_add_le le_rfl).trans BitVec.extractLsb'_eq_self

theorem extractLsb'_append_aboveByte {v : Nat} (hi : BitVec v) (b : Byte) (n : Nat) :
    (hi ++ b).extractLsb' (n + 8) 8 = hi.extractLsb' n 8 :=
  BitVec.extractLsb'_append_eq_of_le (Nat.le_add_left 8 n)

/-- A word put together from four bytes has these bytes: the converse of `wordOfBytes_byteOfWord`. -/
@[simp] theorem bytesOfWord_wordOfBytes (b0 b1 b2 b3 : Byte) :
    bytesOfWord (wordOfBytes b0 b1 b2 b3) = [b0, b1, b2, b3] := by
  have h0 : byteOfWord 0 (wordOfBytes b0 b1 b2 b3) = b0 := extractLsb'_append_lowByte (b3 ++ b2 ++ b1) b0
  have h1 : byteOfWord 1 (wordOfBytes b0 b1 b2 b3) = b1 :=
    (extractLsb'_append_aboveByte (b3 ++ b2 ++ b1) b0 0).trans (extractLsb'_append_lowByte (b3 ++ b2) b1)
  have h2 : byteOfWord 2 (wordOfBytes b0 b1 b2 b3) = b2 :=
    (extractLsb'_append_aboveByte (b3 ++ b2 ++ b1) b0 8).trans <|
      (extractLsb'_append_aboveByte (b3 ++ b2) b1 0).trans (extractLsb'_append_lowByte b3 b2)
  have h3 : byteOfWord 3 (wordOfBytes b0 b1 b2 b3) = b3 :=
    (extractLsb'_append_aboveByte (b3 ++ b2 ++ b1) b0 16).trans <|
      (extractLsb'_append_aboveByte (b3 ++ b2) b1 8).trans <|
        (extractLsb'_append_aboveByte b3 b2 0).trans BitVec.extractLsb'_eq_self
  rw [bytesOfWord, h0, h1, h2, h3]

/-- A type code without reserved bits is the code of the type it stands for (30_encoding.md R51). -/
theorem codeOfMemType_memTypeOfCode {w : Word} (h : w >>> 1 = 0#32) :
    codeOfMemType (memTypeOfCode (w.getLsbD 0)) = w := by
  obtain rfl | rfl : w = 0#32 ∨ w = 1#32 := by bv_omega
  · rfl
  · rfl

/-- A descriptor that spells a Region is that Region's descriptor. -/
theorem encodeRegion_of_decodeRegion {d : Descriptor} {r : Region} (h : decodeRegion d = .ok r) : encodeRegion r = d := by
  obtain ⟨hw, rfl⟩ := decodeRegion_eq_ok.1 h
  simp only [encodeRegion, codeOfMemType_memTypeOfCode hw]

/-- A phase code that names an operation is that operation's encoding (30_encoding.md R59). -/
theorem encode_of_decodePhaseCode {code : Byte} {i : Instr} (h : decodePhaseCode code = .ok i) : encode i = [code] := by
  unfold decodePhaseCode at h
  split at h
  case h_10 | h_11 => exact nomatch h
  all_goals
    obtain rfl := Except.ok.inj h
    exact congrArg ([·]) (BitVec.eq_of_toNat_eq (Eq.symm ‹_›))

theorem decode_toBytes_eq_ok {d : Descriptor} {i : Instr} :
    decode d.toBytes = .ok i ↔ ∃ r, decodeRegion d = .ok r ∧ i = r.toInstr := by
  rw [decode_toBytes]
  cases decodeRegion d with
  | ok r => simp [Except.map, eq_comm]
  | error e => simp [Except.map]

/-- Bytes spell an instruction in two ways only: a phase code, or the descriptor of a Region (30_encoding.md R61). -/
theorem decode_eq_ok {bs : List Byte} {i : Instr} :
    decode bs = .ok i ↔
      (∃ code, bs = [code] ∧ decodePhaseCode code = .ok i) ∨
      ∃ d r, bs = d.toBytes ∧ decodeRegion d = .ok r ∧ i = r.toInstr := by
  constructor
  · intro h
    unfold decode at h
    split at h
    case h_1 code => exact .inl ⟨code, rfl, h⟩
    case h_2 a0 a1 a2 a3 b0 b1 b2 b3 c0 c1 c2 c3 =>
      let d : Descriptor := ⟨wordOfBytes a0 a1 a2 a3, wordOfBytes b0 b1 b2 b3, wordOfBytes c0 c1 c2 c3⟩
      have hd : d.toBytes = [a0, a1, a2, a3, b0, b1, b2, b3, c0, c1, c2, c3] := by simp [d, Descriptor.toBytes]
      obtain ⟨r, hr, hi⟩ := decode_toBytes_eq_ok.1 ((decode_toBytes d).trans h)
      exact .inr ⟨d, r, hd.symm, hr, hi⟩
    case h_3 => exact nomatch h
  · rintro (⟨code, rfl, h⟩ | ⟨d, r, rfl, h⟩)
    · exact h
    · exact decode_toBytes_eq_ok.2 ⟨r, h⟩

/-- Settles O3: each of the two forms that decode has its bytes back from what it decodes to. -/
theorem encodeOfDecoded : Obligations.EncodeOfDecoded := by
  intro bs i h
  obtain ⟨code, rfl, hc⟩ | ⟨d, r, rfl, hr, rfl⟩ := decode_eq_ok.1 h
  · exact encode_of_decodePhaseCode hc
  · rw [encode_toInstr, encodeRegion_of_decodeRegion hr]

/-! ### Written-out words and reserved bits -/

/-- Settles O1: the decoder computes each of them. -/
theorem decodeOfWrittenOutWords : Obligations.DecodeOfWrittenOutWords := by
  unfold Obligations.DecodeOfWrittenOutWords
  decide

/-- A descriptor with a bit of `W2[31:1]` set spells no Region (30_encoding.md R52). -/
theorem decodeRegion_of_reservedBit {d : Descriptor} {j : Nat} (hj : 1 ≤ j) (h : d.w2.getLsbD j = true) :
    decodeRegion d = .error .reservedBits := by
  refine decodeRegion_eq_error.2 ⟨fun h0 => ?_, rfl⟩
  have hbit : (d.w2 >>> 1).getLsbD (j - 1) = true := by
    rw [BitVec.getLsbD_ushiftRight, Nat.add_sub_cancel' hj, h]
  rw [h0] at hbit
  simp at hbit

/-- A list with a descriptor that spells no Region does not decode. -/
theorem regionsDecode_eq_false {ds : List Descriptor} {d : Descriptor} {e : DecodeError} (hd : d ∈ ds)
    (he : decodeRegion d = .error e) : regionsDecode ds = false :=
  List.all_eq_false.2 ⟨d, hd, by simp [he, Except.toBool]⟩

/-- RUN refuses a list that does not decode where it would start the walk (log entry 10). -/
theorem execRun_of_not_regionsDecode {s : State} (hp : s.phase = .idle ∨ s.phase = .done)
    (h : regionsDecode s.regions = false) (b : Bool) : execRun b s = .refused .reservedBits := by
  rcases hp with hp | hp <;> simp [execRun, hp, h]

/-- Settles O4: the reserved bit makes the descriptor spell no Region, and RUN decodes the whole list first. -/
theorem reservedBitsSpellNothing : Obligations.ReservedBitsSpellNothing := by
  intro d j hj _ hbit
  have hd : decodeRegion d = .error .reservedBits := decodeRegion_of_reservedBit hj hbit
  refine ⟨by rw [decode_toBytes, hd]; rfl, fun s b hmem hp => ?_⟩
  exact execRun_of_not_regionsDecode hp (regionsDecode_eq_false hmem hd) b

end Sys2Proof.Machine
end

section
/-! PROOFS. O5: which bytes a step fetches, and that it executes what they decode to (44_orchestrator.md R95, R96). -/

namespace Sys2Proof.Machine

variable {s : State}

/-- A phase code is fetched everywhere but at the start of a region with grain `region`. -/
theorem fetchBytes_eq_code (h : s.grain = .phase ∨ s.phase ≠ .resolve) : fetchBytes s = [s.phase.code.setWidth 8] := by
  obtain hf | ⟨hg, hp, -⟩ := fetchBytes_cases s
  · exact hf
  · simp [hg, hp] at h

/-- At the start of a region with grain `region` its descriptor is fetched. -/
theorem fetchBytes_eq_toBytes {d : Descriptor} (hg : s.grain = .region) (hp : s.phase = .resolve)
    (hd : s.regions[s.ri]? = some d) : fetchBytes s = d.toBytes := by
  simp only [fetchBytes, hg, hp, hd]

/-- The phase codes of IDLE and DONE are those of RUN (30_encoding.md R58, R59). -/
theorem decode_fetchBytes_of_accepting (h : s.phase = .idle ∨ s.phase = .done) :
    decode (fetchBytes s) = .ok (.run s.done) := by
  have hne : s.phase ≠ .resolve := by rcases h with h | h <;> simp [h]
  rw [fetchBytes_eq_code (.inr hne), State.done]
  rcases h with h | h <;> rw [h] <;> rfl

theorem step_of_start (hc : s.cfg.wf) (hi : s.input = .start) : step s = exec (.run s.done) s.tick := by
  simp only [step, nextAction, hc, hi, if_true]

theorem step_of_fetch {i : Instr} (hc : s.cfg.wf) (hi : s.input = .quiet) (hb : s.busy = true)
    (hf : decode (fetchBytes s) = .ok i) : step s = exec i s.tick := by
  simp only [step, nextAction, hc, hi, hb, hf, if_true]

/-- Settles O5: the two cases of a step that execute, and the two cases of a fetch. -/
theorem stepRunsDecodedInstruction : Obligations.StepRunsDecodedInstruction := fun _ hc =>
  ⟨fun _ => step_of_fetch hc, step_of_start hc, decode_fetchBytes_of_accepting, fetchBytes_eq_code,
    fun _ => fetchBytes_eq_toBytes⟩

end Sys2Proof.Machine
end

section
/-! PROOFS. RESOLVE and what dividing by its block size is: O6, O7 (40_blocksize_resolver.md R63, R66). -/

namespace Sys2Proof.Machine

/-- The block-size field is a slice of the bits of `CFG[t]`. -/
theorem toNat_extractLsb'_blksz (p : TypeParams) (c : Word) :
    (c.extractLsb' p.blkszLsb p.blkszWidth).toNat = blkszField p c := by
  rw [BitVec.extractLsb'_toNat, blkszField, BitVec.toNat_ushiftRight]

/-- The block size RESOLVE gives is two to the shift it gives: neither is truncated. -/
theorem blocksizeOf_toNat {p : TypeParams} (hp : p.wf) : (blocksizeOf p).toNat = 2 ^ (shiftOf p).toNat := by
  obtain ⟨-, hwidth, -⟩ := hp
  obtain ⟨hshift, hsize⟩ := blocksizeOfField_toNat (blkszField_lt hwidth p.cfgValue)
  rw [blocksizeOf, shiftOf, hsize, hshift]

/-- Settles O6: RESOLVE answers the state `afterResolve`, and a field of at most four bits keeps both values in range. -/
theorem resolveReadsBlockSize : Obligations.ResolveReadsBlockSize := by
  intro s hc
  obtain ⟨-, hwidth, -⟩ := Config.of_wf hc s.work.curType
  have hfield : blkszField s.params s.params.cfgValue < 16 := blkszField_lt hwidth _
  simp only [toNat_extractLsb'_blksz]
  refine ⟨execResolve_next hc, (blocksizeOfField_toNat hfield).1, (blocksizeOfField_toNat hfield).2, ?_, ?_, ?_⟩
  · exact Nat.pow_le_pow_right (n := 2) (i := 5) Nat.two_pos (Nat.le_add_left 5 _)
  · exact Nat.mod_lt _ (Nat.two_pow_pos _)
  · exact Nat.pow_le_pow_right Nat.two_pos (by omega)

/-- Settles O7: as numbers, both are the quotient and the remainder by the same power of two. -/
theorem shiftIsDivision : Obligations.ShiftIsDivision := by
  intro p x hp
  have hsize : (blocksizeOf p).toNat = 2 ^ (shiftOf p).toNat := blocksizeOf_toNat hp
  refine ⟨BitVec.eq_of_toNat_eq ?_, ?_, fun h0 => ?_⟩
  · rw [BitVec.toNat_udiv, BitVec.toNat_ushiftRight, hsize, Nat.shiftRight_eq_div_pow]
  · rw [BitVec.toNat_umod, hsize]
  · rw [h0] at hsize
    exact (Nat.two_pow_pos _).ne hsize

end Sys2Proof.Machine
end

section
/-! PROOFS. What TRANSLATE answers, and the block range of a region in its window: O8, O9, O13, O14
(41_region_translator.md R67, R69, R71, R72). -/

namespace Sys2Proof.Machine

/-! ### What TRANSLATE answers -/

/-- The two forms of R67: shifting is dividing by the block size. -/
theorem blockOf_eq_div {p : TypeParams} {shift : BitVec 5} {size : Word} (h : size.toNat = 2 ^ shift.toNat) (a : Word) :
    blockOf p shift a = (a - p.base) / size :=
  BitVec.eq_of_toNat_eq <| by
    rw [blockOf, BitVec.toNat_ushiftRight, Nat.shiftRight_eq_div_pow, BitVec.toNat_udiv, h]

/-- Settles O8: no check fails, and the blocks TRANSLATE finds by shifting are the quotients. -/
theorem translateComputesBlockRange : Obligations.TranslateComputesBlockRange := by
  intro s hsize hwindow haligned
  rw [← blockOf_eq_div hsize, ← blockOf_eq_div hsize]
  exact execTranslate_eq_next.2 (.inr ⟨fun hcheck => failedCheck_eq_none.2 ⟨hwindow, haligned hcheck⟩, hwindow, rfl⟩)

/-- Outside its window, or out of order, a region fails a check (60_exceptions.md R109). -/
theorem exists_failedCheck_of_not_inWindow {p : TypeParams} {start stop : Word} (size : Word)
    (h : ¬ inWindow p start stop) : ∃ code, failedCheck p start stop size = some code :=
  Option.ne_none_iff_exists'.1 fun hnone => h (failedCheck_eq_none.1 hnone).1

/-- Settles O9: the one refusal of TRANSLATE is that of an ill-formed region without the option; with it a check fails. -/
theorem translateRefusesIllFormed : Obligations.TranslateRefusesIllFormed := by
  refine fun s => ⟨fun hcheck r => execTranslate_eq_refused.trans ?_, fun hcheck hwindow => ?_⟩
  · simp [hcheck, and_comm]
  · obtain ⟨code, hcode⟩ := exists_failedCheck_of_not_inWindow s.work.blocksize hwindow
    exact ⟨s.raiseAbort code, execTranslate_eq_next.2 (.inl ⟨hcheck, code, hcode, rfl⟩), rfl⟩

/-! ### The block range of a region in its window -/

/-- Settles O13: flooring keeps the order of the window; below the base the subtraction wraps and does not. -/
theorem blockRangeInOrder : Obligations.BlockRangeInOrder := by
  refine ⟨fun p shift start stop h => ?_, fun p hbase => ?_⟩
  · exact BitVec.le_def.1 (blockOf_le_of_inWindow h shift)
  · rw [blockOf, blockOf, hbase]
    decide

/-- An address from the base on, by its block and its offset in the block (41_region_translator.md R71). -/
theorem blockOf_mul_add_mod {p : TypeParams} (hp : p.wf) {a : Word} (ha : p.base.toNat ≤ a.toNat) :
    (blockOf p (shiftOf p) a).toNat * (blocksizeOf p).toNat + (a.toNat - p.base.toNat) % (blocksizeOf p).toNat =
      a.toNat - p.base.toNat := by
  rw [blockOf_toNat ha, blocksizeOf_toNat hp]
  exact Nat.div_add_mod' _ _

/-- Settles O14: each end lies at its offset in its block, and an offset is below the block size. -/
theorem misalignedRegionIsCovered : Obligations.MisalignedRegionIsCovered := by
  intro c r hc hwindow base size lo hi
  obtain ⟨hbase, horder, -⟩ := inWindow_iff.1 hwindow
  have hp : (c.of r.type).wf := Config.of_wf hc r.type
  have hsize : 0 < size := (Nat.two_pow_pos _).trans_eq (blocksizeOf_toNat hp).symm
  have hstart : (startBlockOf c r).toNat * size + (r.start.toNat - base) % size = r.start.toNat - base :=
    blockOf_mul_add_mod hp hbase
  have hstop : (endBlockOf c r).toNat * size + (r.stop.toNat - base) % size = r.stop.toNat - base :=
    blockOf_mul_add_mod hp (hbase.trans horder)
  have hoffset : (r.stop.toNat - base) % size < size := Nat.mod_lt _ hsize
  have hhi : hi = base + ((endBlockOf c r).toNat * size + size) - 1 := by rw [← Nat.succ_mul]
  omega

end Sys2Proof.Machine
end

section
/-! PROOFS. O15, O16: SET_BIT_RANGE as bits and as a number, and its properties (42_bit_range_mask.md R74, R75). -/

namespace Sys2Proof.Machine

/-! ### The mask as bits and as a number -/

/-- A bit of the mask is set within the range and nowhere else (42_bit_range_mask.md R75(b)). -/
theorem setBitRange_getLsbD_eq_true (lo hi : BitVec 5) {b : Nat} (hb : b < 32) :
    (setBitRange lo hi).getLsbD b = true ↔ lo.toNat ≤ b ∧ b ≤ hi.toNat := by
  rw [setBitRange_getLsbD lo hi hb, decide_eq_true_iff]

/-- The bits of the number `2^n - 2^m` are the run from `m` up to `n`. -/
theorem testBit_two_pow_sub_two_pow {m n : Nat} (h : m ≤ n) (b : Nat) :
    (2 ^ n - 2 ^ m).testBit b = decide (m ≤ b ∧ b < n) := by
  have hfactor : 2 ^ n - 2 ^ m = 2 ^ m * (2 ^ (n - m) - 1) := by
    rw [Nat.mul_sub_one, ← Nat.pow_add, Nat.add_sub_cancel' h]
  rw [hfactor, Nat.testBit_two_pow_mul, Nat.testBit_two_pow_sub_one, ← Bool.decide_and, decide_eq_decide]
  omega

/-- The mask as a number (42_bit_range_mask.md R74). -/
theorem setBitRange_toNat {lo hi : BitVec 5} (h : lo ≤ hi) :
    (setBitRange lo hi).toNat = 2 ^ (hi.toNat + 1) - 2 ^ lo.toNat := by
  have hle : lo.toNat ≤ hi.toNat := h
  refine Nat.eq_of_testBit_eq fun b => ?_
  rw [BitVec.testBit_toNat, testBit_two_pow_sub_two_pow (Nat.le_succ_of_le hle)]
  rcases Nat.lt_or_ge b 32 with hb | hb
  · rw [setBitRange_getLsbD lo hi hb, decide_eq_decide, Nat.lt_succ_iff]
  · have hout : ¬ (lo.toNat ≤ b ∧ b < hi.toNat + 1) := by omega
    rw [BitVec.getLsbD_of_ge _ b hb, decide_eq_false hout]

/-- Settles O15: bit by bit from the shifts, and as a number from the bits of a difference of powers of two. -/
theorem maskIsRunOfOnes : Obligations.MaskIsRunOfOnes :=
  fun lo hi h => ⟨fun _ hb => setBitRange_getLsbD lo hi hb, setBitRange_toNat h⟩

/-! ### Count, halves and split -/

/-- The positions of the ones are the interval of the range. -/
theorem filter_setBitRange (lo hi : BitVec 5) :
    (List.range 32).filter (fun b => (setBitRange lo hi).getLsbD b) = List.Ico lo.toNat (hi.toNat + 1) := by
  have hbits : ∀ b ∈ List.range 32,
      (setBitRange lo hi).getLsbD b = (decide (lo.toNat ≤ b) && decide (b < hi.toNat + 1)) := fun b hb => by
    rw [setBitRange_getLsbD lo hi (List.mem_range.1 hb), ← Bool.decide_and, decide_eq_decide, Nat.lt_succ_iff]
  rw [List.filter_congr hbits, ← List.filter_filter, ← List.Ico.zero_bot, List.Ico.filter_lt_of_ge hi.isLt,
    List.Ico.filter_le_of_le (Nat.zero_le _)]

/-- Every range is what its two halves share (42_bit_range_mask.md R75(c)). -/
theorem setBitRange_eq_and (lo hi : BitVec 5) : setBitRange lo hi = setBitRange lo 31 &&& setBitRange 0 hi := by
  refine BitVec.eq_of_getLsbD_eq fun b hb => ?_
  have hhigh : (31 : BitVec 5).toNat = 31 := rfl
  have hlow : (0 : BitVec 5).toNat = 0 := rfl
  rw [BitVec.getLsbD_and, Bool.eq_iff_iff, Bool.and_eq_true]
  simp only [setBitRange_getLsbD_eq_true _ _ hb, hhigh, hlow]
  omega

/-- A range is the union of its parts up to `m` and above `m` (42_bit_range_mask.md R75(d)). -/
theorem setBitRange_or_setBitRange {lo m hi : BitVec 5} (hlo : lo ≤ m) (hhi : m < hi) :
    setBitRange lo m ||| setBitRange (m + 1) hi = setBitRange lo hi := by
  have hsucc : (m + 1).toNat = m.toNat + 1 := by bv_omega
  refine BitVec.eq_of_getLsbD_eq fun b hb => ?_
  rw [BitVec.getLsbD_or, Bool.eq_iff_iff, Bool.or_eq_true]
  simp only [setBitRange_getLsbD_eq_true _ _ hb, hsucc]
  bv_omega

/-- Ranges one after the other have no bit in common (42_bit_range_mask.md R75(d)). -/
theorem setBitRange_and_setBitRange {lo m n hi : BitVec 5} (h : m < n) :
    setBitRange lo m &&& setBitRange n hi = 0#32 := by
  refine BitVec.eq_of_getLsbD_eq fun b hb => ?_
  have hmn : m.toNat < n.toNat := h
  rw [BitVec.getLsbD_and, BitVec.getLsbD_zero, Bool.and_eq_false_iff, ← Bool.not_eq_true, ← Bool.not_eq_true,
    setBitRange_getLsbD_eq_true _ _ hb, setBitRange_getLsbD_eq_true _ _ hb]
  omega

/-- Settles O16: the ones are counted by their interval; the other three clauses are read off bit by bit. -/
theorem maskPropertiesHold : Obligations.MaskPropertiesHold := by
  refine fun lo hi h => ⟨?_, fun b hb => setBitRange_getLsbD_eq_true lo hi hb, setBitRange_eq_and lo hi,
    fun m hlo hhi => ⟨setBitRange_or_setBitRange hlo hhi, setBitRange_and_setBitRange ?_⟩⟩
  · rw [filter_setBitRange, List.Ico.length, Nat.sub_add_comm (BitVec.le_def.1 h)]
  · bv_omega

end Sys2Proof.Machine
end

section
/-! PROOFS. O26: SINGLE refuses a range out of order, SINGLE and LAST a next descriptor with reserved bits
(42_bit_range_mask.md R76, 30_encoding.md R52). -/

namespace Sys2Proof.Machine

/-- A region that cannot be taken up is refused for its reserved bits (30_encoding.md R52). -/
theorem enterRegion_of_not_canTakeUp {n : Nat} {s : State} (h : ¬ canTakeUp s n) :
    enterRegion n s = .refused .reservedBits := by
  unfold canTakeUp at h
  cases hd : s.regions[n]? with
  | none => simp [hd] at h
  | some d =>
    cases hr : decodeRegion d with
    | ok r => simp [hd, hr, Except.toBool] at h
    | error e => exact enterRegion_eq_refused.2 ⟨rfl, d, e, hd, hr⟩

/-- An OR-merge that answers keeps the region list, so the advance after it is refused as it was before it; no
well-formedness of the parameters is needed, since the word read does not matter. -/
theorem orMerge_nextRegion_refused {t : MemType} {w m : Word} {s : State} (hw : w.toNat < (s.cfg.of t).nLutWords)
    (h : ¬ canTakeUp s (s.ri + 1)) : andThen (orMerge t w m s) nextRegion = .refused .reservedBits :=
  andThen_eq_refused.2 (.inr ⟨_, if_pos hw, enterRegion_of_not_canTakeUp h⟩)

/-- Settles O26: SINGLE looks at the order of its offsets first; both end in an OR-merge and the next region. -/
theorem programmingPhasesStop : Obligations.ProgrammingPhasesStop := by
  refine fun s => ⟨fun h => ?_, fun hnext hle hw => ?_, fun hnext hw => ?_⟩
  · exact if_neg (BitVec.not_le.2 h)
  · exact (if_pos hle).trans (orMerge_nextRegion_refused (s := s.setMask _) hw hnext)
  · exact orMerge_nextRegion_refused (s := s.setMask _) hw hnext

end Sys2Proof.Machine
end

section
/-! PROOFS. SPLIT and the two write primitives: O17 to O20 (43_lut_programmer.md R79 to R82, R91). -/

namespace Sys2Proof.Machine

/-! ### SPLIT -/

theorem lutIndex_eq_ofNat (k : Word) : lutIndex k = BitVec.ofNat 32 (k.toNat / 32) := by
  rw [← lutIndex_toNat, BitVec.ofNat_toNat, BitVec.setWidth_eq]

theorem lutOffset_eq_ofNat (k : Word) : lutOffset k = BitVec.ofNat 5 (k.toNat % 32) := by
  rw [← lutOffset_toNat, BitVec.ofNat_toNat, BitVec.setWidth_eq]

theorem lutIndex_inj (j k : Word) : lutIndex j = lutIndex k ↔ j.toNat / 32 = k.toNat / 32 := by
  rw [← BitVec.toNat_inj, lutIndex_toNat, lutIndex_toNat]

/-- SPLIT answers for a range in order that fits the LUT. -/
theorem execSplit_of_le {s : State} (hle : s.work.startBlock.toNat ≤ s.work.endBlock.toNat)
    (hfits : s.work.endBlock.toNat / 32 < s.params.nLutWords) : execSplit s = .next s.afterSplit :=
  execSplit_eq_next.2 ⟨hle, hfits, rfl⟩

/-- Settles O17: the state SPLIT leaves, with words and bits as quotients and remainders; blocks whose words are out of
order are out of order themselves, which is what SPLIT looks at first. -/
theorem splitLocatesBoundaries : Obligations.SplitLocatesBoundaries := by
  refine ⟨fun s hle hfits => ?_, fun s hlt => ?_⟩
  · simp only [← lutIndex_inj, ← lutIndex_eq_ofNat, ← lutOffset_eq_ofNat]
    exact execSplit_of_le hle hfits
  · have hempty : exec .split s = .refused .emptyCase := execSplit_eq_refused.2 (.inl ⟨rfl, by omega⟩)
    exact ⟨⟨_, hempty⟩, fun _ => hempty⟩

/-- Settles O18: what refuses SPLIT, as `execSplit_eq_refused` says it. -/
theorem splitRefusesUndefinedInputs : Obligations.SplitRefusesUndefinedInputs :=
  fun _ _ => execSplit_eq_refused

/-! ### ORMERGE and FILL -/

variable {s : State} {ty : MemType} {w : Word}

/-- The merged word holds the old bits and the mask. -/
theorem lutWord_afterOrMerge_self (hc : s.cfg.wf) (hm : s.mem.wf) (hw : w.toNat < (s.cfg.of ty).nLutWords) (m : Word) :
    (s.afterOrMerge ty w m).lutWord ty w = s.lutWord ty w ||| m := by
  rw [lutWord_afterOrMerge hc hm m hw hw, if_pos ⟨rfl, rfl⟩]

/-- The word a plain write stores reads back. -/
theorem lutWord_afterAssign_self (hc : s.cfg.wf) (hm : s.mem.wf) (hw : w.toNat < (s.cfg.of ty).nLutWords) (v : Word) :
    (s.afterAssign ty w v).lutWord ty w = v := by
  rw [lutWord_afterAssign hc hm v hw hw, if_pos ⟨rfl, rfl⟩]

/-- A plain write reaches the bytes of its word only. -/
theorem bytesKeptOutside_afterAssign (s : State) (ty : MemType) (w v : Word) :
    bytesKeptOutside s (s.afterAssign ty w v) (lutAddr (s.cfg.of ty) w) :=
  fun _ hx => Memory.readByte_writeWord_outside hx v

/-- So does an OR-merge, whose one write stores the merged word. -/
theorem bytesKeptOutside_afterOrMerge (s : State) (ty : MemType) (w m : Word) :
    bytesKeptOutside s (s.afterOrMerge ty w m) (lutAddr (s.cfg.of ty) w) :=
  bytesKeptOutside_afterAssign s ty w (s.lutWord ty w ||| m)

/-- Settles O19: ORMERGE answers the state `afterOrMerge`, which names every field it changes. -/
theorem orMergeReadsThenWrites : Obligations.OrMergeReadsThenWrites := fun s ty w m hc hm hw =>
  ⟨s.afterOrMerge ty w m, orMerge_of_lt hc hw, rfl, lutWord_afterOrMerge_self hc hm hw m,
    bytesKeptOutside_afterOrMerge s ty w m, rfl⟩

/-- Merging all ones stores what filling stores (43_lut_programmer.md R81). -/
theorem afterOrMerge_allOnes_mem (s : State) (ty : MemType) (w : Word) :
    (s.afterOrMerge ty w allOnes).mem = (s.afterAssign ty w allOnes).mem := by
  have hor : s.lutWord ty w ||| allOnes = allOnes := BitVec.or_allOnes
  rw [State.afterOrMerge_mem, State.afterAssign_mem, hor]

/-- Settles O20: FILL answers the state `afterAssign`, whose memory is that of the merge of all ones. -/
theorem fillWritesAllOnes : Obligations.FillWritesAllOnes := fun s ty w hc hm hw =>
  ⟨s.afterAssign ty w allOnes, assign_of_lt hw, rfl, lutWord_afterAssign_self hc hm hw allOnes,
    bytesKeptOutside_afterAssign s ty w allOnes, rfl,
    s.afterOrMerge ty w allOnes, orMerge_of_lt hc hw, afterOrMerge_allOnes_mem s ty w⟩

end Sys2Proof.Machine
end

section
/-! PROOFS. The programming phases: O21 to O25 (43_lut_programmer.md R83 to R87, R92). -/

namespace Sys2Proof.Machine

variable {s t u : State}

/-! ### Moves that leave register space and trace alone -/

/-- From `s` to `t` the platform, the abort registers, the register space and the trace are kept. -/
structure SameBus (s t : State) : Prop where
  platform : keepsPlatform s t
  abort : keepsAbort s t
  mem : t.mem = s.mem
  trace : t.trace = s.trace

theorem sameBus_afterFirst (s : State) : SameBus s (afterFirst s) := by
  unfold afterFirst
  split <;> exact ⟨⟨rfl, rfl, rfl, rfl⟩, ⟨rfl, rfl⟩, rfl, rfl⟩

theorem sameBus_afterMid (s : State) : SameBus s (afterMid s) := by
  unfold afterMid
  split <;> exact ⟨⟨rfl, rfl, rfl, rfl⟩, ⟨rfl, rfl⟩, rfl, rfl⟩

theorem afterMid_work (s : State) : (afterMid s).work = s.work := by
  unfold afterMid
  split <;> rfl

theorem sameBus_enterRegion {n : Nat} (h : enterRegion n s = .next t) : SameBus s t := by
  obtain ⟨-, hplatform, habort, hmem, htrace, -⟩ := enterRegion_takenUp h
  exact ⟨hplatform, habort, hmem, htrace⟩

/-- Moves on the same bus keep the LUT words. -/
theorem SameBus.lutWord (h : SameBus s t) (ty : MemType) (w : Word) : t.lutWord ty w = s.lutWord ty w := by
  rw [State.lutWord, State.lutWord, h.mem, h.platform.1]

theorem SameBus.bytesKeptOutside {a : Word} (h : SameBus t u) (hk : bytesKeptOutside s t a) : bytesKeptOutside s u a :=
  fun x hx => h.mem ▸ hk x hx

/-- Taking up a region writes the Region it fetches and no other working register. -/
theorem enterRegion_work {n : Nat} (h : enterRegion n s = .next t) :
    t.work = { s.work with curStart := t.work.curStart, curEnd := t.work.curEnd, curType := t.work.curType } := by
  rcases enterRegion_eq_next.1 h with ⟨-, rfl⟩ | ⟨d, r, -, -, rfl⟩ <;> rfl

/-! ### SINGLE and LAST: an OR-merge and the next region -/

/-- An OR-merge, its mask written first, followed by anything. -/
theorem andThen_orMerge_setMask {w m : Word} (hc : s.cfg.wf) (hw : w.toNat < s.params.nLutWords) (f : State → Result) :
    andThen (orMerge s.work.curType w m (s.setMask m)) f = f (s.merged w m) := by
  rw [orMerge_of_lt (s := s.setMask m) hc hw, andThen_next, State.merged]

theorem andThen_orMerge_of_ge {w m : Word} (hw : s.params.nLutWords ≤ w.toNat) (f : State → Result) :
    andThen (orMerge s.work.curType w m (s.setMask m)) f = .refused .lutIndexOutOfRange :=
  andThen_eq_refused.2 (.inl (orMerge_eq_refused.2 ⟨hw, rfl⟩))

theorem execSingle_of_lt (hc : s.cfg.wf) (hle : s.work.startOffset ≤ s.work.endOffset)
    (hw : s.work.startLut.toNat < s.params.nLutWords) :
    execSingle s = nextRegion (s.merged s.work.startLut (setBitRange s.work.startOffset s.work.endOffset)) :=
  (if_pos hle).trans (andThen_orMerge_setMask hc hw nextRegion)

theorem execLast_of_lt (hc : s.cfg.wf) (hw : s.work.endLut.toNat < s.params.nLutWords) :
    execLast s = nextRegion (s.merged s.work.endLut (setBitRange 0 s.work.endOffset)) :=
  andThen_orMerge_setMask hc hw nextRegion

/-- The working registers an OR-merge writes. -/
theorem merged_work (s : State) (w m : Word) :
    (s.merged w m).work = { s.work with mask := m, rdata := s.lutWord s.work.curType w } := rfl

/-- SET_BIT_RANGE is a run of ones, as the claims about the phases say it (42_bit_range_mask.md R74). -/
theorem isBitRange_setBitRange (lo hi : BitVec 5) : isBitRange (setBitRange lo hi) lo.toNat hi.toNat :=
  fun _ hb => setBitRange_getLsbD lo hi hb

/-- What an OR-merge of a run of ones and the next region leave, where the next region can be taken up
(43_lut_programmer.md R83, R87). -/
theorem nextRegion_merged {w : Word} (lo hi : BitVec 5) (hc : s.cfg.wf) (hm : s.mem.wf)
    (hw : w.toNat < s.params.nLutWords) (hnext : canTakeUp s (s.ri + 1)) :
    ∃ t, nextRegion (s.merged w (setBitRange lo hi)) = .next t ∧ isBitRange t.work.mask lo.toNat hi.toNat ∧
      t.lutWord s.work.curType w = s.lutWord s.work.curType w ||| t.work.mask ∧
      bytesKeptOutside s t (lutAddr s.params w) ∧
      t.trace = s.trace ++
        [{ kind := .rd, addr := lutAddr s.params w, data := s.lutWord s.work.curType w },
         { kind := .wr, addr := lutAddr s.params w, data := s.lutWord s.work.curType w ||| t.work.mask }] ∧
      t.work = { s.work with
        mask := t.work.mask, rdata := s.lutWord s.work.curType w
        curStart := t.work.curStart, curEnd := t.work.curEnd, curType := t.work.curType } ∧
      takenUp s (s.ri + 1) t ∧ t.wi = s.wi ∧ keepsPlatform s t ∧ keepsAbort s t := by
  obtain ⟨t, ht⟩ := enterRegion_of_canTakeUp (s := s.merged w (setBitRange lo hi)) hnext
  obtain ⟨htaken, hplatform, habort, -, htrace, hwi⟩ := enterRegion_takenUp ht
  have hbus : SameBus (s.merged w (setBitRange lo hi)) t := sameBus_enterRegion ht
  have hwork := enterRegion_work ht
  rw [merged_work] at hwork
  have hmask : t.work.mask = setBitRange lo hi := by rw [hwork]
  refine ⟨t, ht, ?_⟩
  rw [hmask]
  refine ⟨isBitRange_setBitRange lo hi, ?_, ?_, htrace, hwork, htaken, hwi, hplatform, habort⟩
  · rw [hbus.lutWord]
    exact lutWord_afterOrMerge_self (s := s.setMask _) hc hm hw _
  · exact hbus.bytesKeptOutside (bytesKeptOutside_afterOrMerge (s.setMask _) s.work.curType w _)

/-- Settles O21: SINGLE is the OR-merge of its range and the next region. -/
theorem singleMergesItsRange : Obligations.SingleMergesItsRange := by
  refine fun s hc hm hle => ⟨fun hw hnext => ?_, fun hw => ?_⟩
  · obtain ⟨t, ht, hleaves⟩ := nextRegion_merged s.work.startOffset s.work.endOffset hc hm hw hnext
    exact ⟨t, (execSingle_of_lt hc hle hw).trans ht, hleaves⟩
  · exact (if_pos hle).trans (andThen_orMerge_of_ge hw nextRegion)

/-- Settles O25: LAST is the OR-merge of the lower bits of its word and the next region. -/
theorem lastMergesLowerBits : Obligations.LastMergesLowerBits := by
  refine fun s hc hm => ⟨fun hw hnext => ?_, fun hw => andThen_orMerge_of_ge hw nextRegion⟩
  obtain ⟨t, ht, hleaves⟩ := nextRegion_merged 0 s.work.endOffset hc hm hw hnext
  exact ⟨t, (execLast_of_lt hc hw).trans ht, hleaves⟩

/-! ### FIRST and MID: a write and the move to the next word -/

/-- Under either policy FIRST is refused for an index that names no register (20_memory.md R47). -/
theorem execFirst_of_ge (hw : s.params.nLutWords ≤ s.work.startLut.toNat) :
    execFirst s = .refused .lutIndexOutOfRange := by
  refine andThen_eq_refused.2 (.inl ?_)
  split
  · exact orMerge_eq_refused.2 ⟨hw, rfl⟩
  · exact assign_eq_refused.2 ⟨hw, rfl⟩

/-- Under the required policy FIRST moves on from an OR-merge (43_lut_programmer.md R85). -/
theorem execFirst_of_uniformOr (hc : s.cfg.wf) (hpol : s.cfg.mergePolicy = .uniformOr)
    (hw : s.work.startLut.toNat < s.params.nLutWords) :
    execFirst s = .next (afterFirst (s.merged s.work.startLut (setBitRange s.work.startOffset 31))) :=
  (execFirst_eq_next hc).2 ⟨hw, by rw [State.firstWritten, hpol]⟩

/-- Under the legacy policy FIRST moves on from a plain write of the mask (43_lut_programmer.md R92). -/
theorem execFirst_of_legacyAssign (hc : s.cfg.wf) (hpol : s.cfg.mergePolicy = .legacyAssign)
    (hw : s.work.startLut.toNat < s.params.nLutWords) :
    execFirst s = .next (afterFirst ((s.setMask (setBitRange s.work.startOffset 31)).afterAssign s.work.curType
      s.work.startLut (setBitRange s.work.startOffset 31))) :=
  (execFirst_eq_next hc).2 ⟨hw, by rw [State.firstWritten, hpol]⟩

/-- The move of FIRST from a state `t` with the word range and `wi` of `s`: to MID at the next word where one lies
between, else to LAST (43_lut_programmer.md R85). -/
theorem afterFirst_move (hs : t.work.startLut = s.work.startLut) (he : t.work.endLut = s.work.endLut)
    (hwi : t.wi = s.wi) :
    if s.work.startLut + 1#32 < s.work.endLut then
      (afterFirst t).phase = .mid ∧ (afterFirst t).wi = s.work.startLut + 1#32
    else (afterFirst t).phase = .last ∧ (afterFirst t).wi = s.wi := by
  rw [← hs, ← he, ← hwi]
  obtain ⟨-, ⟨hlt, hmove⟩ | ⟨hlt, hmove⟩⟩ := afterFirst_position t
  · rwa [if_pos hlt]
  · rwa [if_neg hlt]

/-- The move of MID from a state `t` with the word range and position of `s`: the next word where one is left, else LAST
(43_lut_programmer.md R86). -/
theorem afterMid_move (he : t.work.endLut = s.work.endLut) (hwi : t.wi = s.wi) (hp : t.phase = s.phase) :
    if s.wi + 1#32 < s.work.endLut then (afterMid t).phase = s.phase ∧ (afterMid t).wi = s.wi + 1#32
    else (afterMid t).phase = .last ∧ (afterMid t).wi = s.wi := by
  rw [← he, ← hwi, ← hp]
  obtain ⟨-, ⟨hlt, hmove⟩ | ⟨hlt, hmove⟩⟩ := afterMid_position t
  · rwa [if_pos hlt]
  · rwa [if_neg hlt]

/-- Settles O22: FIRST moves on from the OR-merge of its upper bits. -/
theorem firstMergesUpperBits : Obligations.FirstMergesUpperBits := by
  refine fun s hc hm hpol => ⟨fun hw => ⟨_, execFirst_of_uniformOr hc hpol hw, ?_⟩, execFirst_of_ge⟩
  intro a old
  have hbus := sameBus_afterFirst (s.merged s.work.startLut (setBitRange s.work.startOffset 31))
  rw [afterFirst_work, hbus.lutWord]
  exact ⟨isBitRange_setBitRange _ 31, lutWord_afterOrMerge_self (s := s.setMask _) hc hm hw _,
    hbus.bytesKeptOutside (bytesKeptOutside_afterOrMerge (s.setMask _) _ _ _), hbus.trace, rfl,
    afterFirst_move rfl rfl rfl, (afterFirst_position _).1, hbus.platform, hbus.abort⟩

/-- Settles O23: FIRST moves on from the plain write of its mask, which has no bit below `start_offset`. -/
theorem firstAssignsUnderLegacy : Obligations.FirstAssignsUnderLegacy := by
  refine fun s hc hm hpol => ⟨fun hw => ⟨_, execFirst_of_legacyAssign hc hpol hw, ?_⟩, execFirst_of_ge⟩
  intro a
  have hbus := sameBus_afterFirst ((s.setMask (setBitRange s.work.startOffset 31)).afterAssign s.work.curType
    s.work.startLut (setBitRange s.work.startOffset 31))
  have hword := lutWord_afterAssign_self (s := s.setMask (setBitRange s.work.startOffset 31)) hc hm hw
    (setBitRange s.work.startOffset 31)
  simp only [afterFirst_work, State.lutBit, hbus.lutWord, hword]
  refine ⟨isBitRange_setBitRange _ 31, rfl, fun b hb => ?_,
    hbus.bytesKeptOutside (bytesKeptOutside_afterAssign (s.setMask _) _ _ _), hbus.trace, rfl,
    afterFirst_move rfl rfl rfl, (afterFirst_position _).1, hbus.platform, hbus.abort⟩
  rw [setBitRange_getLsbD _ _ (hb.trans s.work.startOffset.isLt), decide_eq_false (fun h => absurd h.1 (Nat.not_le.2 hb))]

/-- MID moves on from the fill of its word (43_lut_programmer.md R86). -/
theorem execMid_of_lt (hw : s.wi.toNat < s.params.nLutWords) :
    execMid s = .next (afterMid (s.afterAssign s.work.curType s.wi allOnes)) :=
  execMid_eq_next.2 ⟨hw, rfl⟩

/-- While the move of MID stays in MID, `wi` stays strictly between (43_lut_programmer.md R86). -/
theorem afterMid_between (hlow : s.work.startLut < s.wi) (hlt : s.wi < s.work.endLut)
    (hmid : (afterMid s).phase = .mid) : s.work.startLut < (afterMid s).wi ∧ (afterMid s).wi < s.work.endLut := by
  have hnext : (s.wi + 1#32).toNat = s.wi.toNat + 1 := toNat_add_one_of_lt hlt
  obtain ⟨-, ⟨hlt', -, hwi⟩ | ⟨-, hlast, -⟩⟩ := afterMid_position s
  · rw [hwi]
    exact ⟨by rw [BitVec.lt_def] at hlow ⊢; omega, hlt'⟩
  · rw [hlast] at hmid
    contradiction

/-- Settles O24: MID moves on from the fill of its word. -/
theorem midFillsOneWord : Obligations.MidFillsOneWord := by
  refine fun s hc hm => ⟨fun hw => ⟨_, execMid_of_lt hw, ?_⟩, fun hw => ?_⟩
  · intro a
    have hbus := sameBus_afterMid (s.afterAssign s.work.curType s.wi allOnes)
    rw [hbus.lutWord]
    exact ⟨lutWord_afterAssign_self hc hm hw allOnes, hbus.bytesKeptOutside (bytesKeptOutside_afterAssign s _ _ _),
      hbus.trace, afterMid_work _, afterMid_move rfl rfl rfl,
      fun hlow hlt hmid _ => afterMid_between (s := s.afterAssign s.work.curType s.wi allOnes) hlow hlt hmid,
      (afterMid_position _).1, hbus.platform, hbus.abort⟩
  · exact andThen_eq_refused.2 (.inl (assign_eq_refused.2 ⟨hw, rfl⟩))

end Sys2Proof.Machine
end

section
/-! PROOFS. What PROGRAM and a whole descriptor do: O36, O37 (43_lut_programmer.md R88, R89, 44_orchestrator.md R95).
Each write sets an interval of blocks of one type, and writes of adjacent intervals set their union. -/

namespace Sys2Proof.Machine

variable {s t u : State} {ty : MemType} {w : Word} {a m z : Nat} {es fs : List BusEvent}

/-! ### Setting an interval of blocks -/

/-- From `s` to `t` the LUT bits of blocks `a` up to but not including `z` of type `ty` are set, by the transactions `es`;
every other LUT bit, every byte outside the LUT array of the type, the platform and the abort registers are kept. -/
structure SetsBlocks (ty : MemType) (a z : Nat) (es : List BusEvent) (s t : State) : Prop where
  platform : keepsPlatform s t
  abort : keepsAbort s t
  canonical : t.mem.wf
  bits : ∀ (ty' : MemType) (w : Word) (b : Nat), w.toNat < (s.cfg.of ty').nLutWords → b < 32 →
    t.lutBit ty' w b = (decide (ty = ty' ∧ a ≤ 32 * w.toNat + b ∧ 32 * w.toNat + b < z) || s.lutBit ty' w b)
  outside : ∀ x, ¬ (s.cfg.of ty).inLut x → t.mem.readByte x = s.mem.readByte x
  trace : t.trace = s.trace ++ es

namespace SetsBlocks

/-- Adjacent intervals. -/
theorem trans (h : SetsBlocks ty a m es s t) (h' : SetsBlocks ty m z fs t u) (ham : a ≤ m) (hmz : m ≤ z) :
    SetsBlocks ty a z (es ++ fs) s u where
  platform := keepsPlatform_trans h.platform h'.platform
  abort := ⟨h'.abort.1.trans h.abort.1, h'.abort.2.trans h.abort.2⟩
  canonical := h'.canonical
  bits ty' w b hw hb := by
    rw [h'.bits ty' w b (h.platform.1 ▸ hw) hb, h.bits ty' w b hw hb, ← Bool.or_assoc, ← Bool.decide_or]
    congr 2
    rw [eq_iff_iff, ← and_or_left]
    refine and_congr_right fun _ => ?_
    omega
  outside x hx := (h'.outside x (h.platform.1 ▸ hx)).trans (h.outside x hx)
  trace := by rw [h'.trace, h.trace, List.append_assoc]

/-- Without a write the interval is empty. -/
theorem of_mem_eq (hm : s.mem.wf) (hp : keepsPlatform s t) (ha : keepsAbort s t) (hmem : t.mem = s.mem)
    (htrace : t.trace = s.trace ++ es) : SetsBlocks ty a a es s t where
  platform := hp
  abort := ha
  canonical := hmem ▸ hm
  bits ty' w b _ _ := by
    have hempty : ¬ (ty = ty' ∧ a ≤ 32 * w.toNat + b ∧ 32 * w.toNat + b < a) := by omega
    rw [decide_eq_false hempty, Bool.false_or, State.lutBit, State.lutBit, State.lutWord, State.lutWord, hmem, hp.1]
  outside x _ := by rw [hmem]
  trace := htrace

theorem of_sameBus (hm : s.mem.wf) (h : SameBus s t) : SetsBlocks ty a a [] s t :=
  of_mem_eq hm h.platform h.abort h.mem (by rw [h.trace, List.append_nil])

theorem then_sameBus (h : SetsBlocks ty a z es s t) (h' : SameBus t u) : SetsBlocks ty a z es s u where
  platform := keepsPlatform_trans h.platform h'.platform
  abort := ⟨h'.abort.1.trans h.abort.1, h'.abort.2.trans h.abort.2⟩
  canonical := h'.mem ▸ h.canonical
  bits ty' w b hw hb := by rw [State.lutBit, h'.lutWord]; exact h.bits ty' w b hw hb
  outside x hx := by rw [h'.mem, h.outside x hx]
  trace := h'.trace.trans h.trace

/-- The write of a word whose new bits are an interval and the old ones. -/
theorem afterAssign (hc : s.cfg.wf) (hm : s.mem.wf) (hw : w.toNat < (s.cfg.of ty).nLutWords) {v : Word}
    (hlo : 32 * w.toNat ≤ a) (hhi : z ≤ 32 * w.toNat + 32)
    (hv : ∀ b < 32, v.getLsbD b = (decide (a ≤ 32 * w.toNat + b ∧ 32 * w.toNat + b < z) || s.lutBit ty w b)) :
    SetsBlocks ty a z [{ kind := .wr, addr := lutAddr (s.cfg.of ty) w, data := v }] s (s.afterAssign ty w v) where
  platform := keepsPlatform_refl s
  abort := ⟨rfl, rfl⟩
  canonical := Memory.wf_writeWord hm _ _
  bits ty' w' b hw' hb := by
    rw [State.lutBit, lutWord_afterAssign hc hm v hw hw']
    by_cases heq : ty = ty' ∧ w = w'
    · obtain ⟨rfl, rfl⟩ := heq
      simp only [and_self, if_true, true_and, hv b hb]
    · have hother : ¬ (ty = ty' ∧ a ≤ 32 * w'.toNat + b ∧ 32 * w'.toNat + b < z) := by
        rintro ⟨hty, hin⟩
        exact heq ⟨hty, BitVec.eq_of_toNat_eq (by omega)⟩
      rw [if_neg heq, decide_eq_false hother, Bool.false_or, State.lutBit]
  outside x hx := by
    obtain ⟨haddr, hend⟩ := lutAddr_bounds hc hw
    have hx' : ¬ ((s.cfg.of ty).lutBase.toNat ≤ x ∧ x < (s.cfg.of ty).lutEnd) := hx
    exact Memory.readByte_writeWord_outside (by omega) v
  trace := rfl

/-- FILL sets the blocks of its word (43_lut_programmer.md R81). -/
theorem fill (hc : s.cfg.wf) (hm : s.mem.wf) (hw : w.toNat < (s.cfg.of ty).nLutWords) :
    SetsBlocks ty (32 * w.toNat) (32 * (w.toNat + 1))
      [{ kind := .wr, addr := lutAddr (s.cfg.of ty) w, data := allOnes }] s (s.afterAssign ty w allOnes) := by
  refine afterAssign hc hm hw le_rfl le_rfl fun b hb => ?_
  have hall : 32 * w.toNat ≤ 32 * w.toNat + b ∧ 32 * w.toNat + b < 32 * (w.toNat + 1) := by omega
  rw [allOnes_getLsbD hb, decide_eq_true hall, Bool.true_or]

end SetsBlocks

/-- The two transactions of an OR-merge on the LUT of `s` (43_lut_programmer.md R80). -/
def mergeEvents (s : State) (ty : MemType) (w m : Word) : List BusEvent :=
  [{ kind := .rd, addr := lutAddr (s.cfg.of ty) w, data := s.lutWord ty w },
   { kind := .wr, addr := lutAddr (s.cfg.of ty) w, data := s.lutWord ty w ||| m }]

/-- An OR-merge of a run of ones sets the blocks of the run. -/
theorem SetsBlocks.merged (hc : s.cfg.wf) (hm : s.mem.wf) (hw : w.toNat < s.params.nLutWords) (lo hi : BitVec 5) :
    SetsBlocks s.work.curType (32 * w.toNat + lo.toNat) (32 * w.toNat + hi.toNat + 1)
      (mergeEvents s s.work.curType w (setBitRange lo hi)) s (s.merged w (setBitRange lo hi)) := by
  have hassign := SetsBlocks.afterAssign (v := s.lutWord s.work.curType w ||| setBitRange lo hi)
    (a := 32 * w.toNat + lo.toNat) (z := 32 * w.toNat + hi.toNat + 1) hc hm hw (by omega) (by omega) fun b hb => by
      rw [BitVec.getLsbD_or, setBitRange_getLsbD lo hi hb, Bool.or_comm, State.lutBit]
      congr 2
      rw [eq_iff_iff]
      omega
  exact ⟨hassign.platform, hassign.abort, hassign.canonical, hassign.bits, hassign.outside, rfl⟩

/-- A word none of whose blocks lies in the interval is kept. -/
theorem SetsBlocks.lutWord_of_le (h : SetsBlocks ty a z es s t) (hw : w.toNat < (s.cfg.of ty).nLutWords)
    (hz : z ≤ 32 * w.toNat) : t.lutWord ty w = s.lutWord ty w := by
  refine BitVec.eq_of_getLsbD_eq fun b hb => ?_
  have hout : ¬ (ty = ty ∧ a ≤ 32 * w.toNat + b ∧ 32 * w.toNat + b < z) := by omega
  have hbit := h.bits ty w b hw hb
  rwa [decide_eq_false hout, Bool.false_or] at hbit

/-! ### The words between -/

/-- The writes of `n` words of all ones from word `w` on, ascending (43_lut_programmer.md R84). -/
def fillEvents (p : TypeParams) (w : Word) (n : Nat) : List BusEvent :=
  (List.range n).map fun i => { kind := .wr, addr := lutAddr p (w + BitVec.ofNat 32 i), data := allOnes }

theorem fillEvents_succ (p : TypeParams) (w : Word) (n : Nat) :
    fillEvents p w (n + 1) = { kind := .wr, addr := lutAddr p w, data := allOnes } :: fillEvents p (w + 1#32) n := by
  have hshift : ∀ i, w + BitVec.ofNat 32 (i + 1) = w + 1#32 + BitVec.ofNat 32 i := fun i => by
    rw [BitVec.ofNat_add, BitVec.add_comm (BitVec.ofNat 32 i), BitVec.add_assoc]
  rw [fillEvents, List.range_succ_eq_map, List.map_cons, List.map_map, BitVec.add_zero, fillEvents]
  refine congrArg _ (List.map_congr_left fun i _ => ?_)
  rw [Function.comp_apply, Nat.succ_eq_add_one, hshift]

/-- `t` works on the region of `s`, with the same word range. -/
structure SameRange (s t : State) : Prop where
  ri : t.ri = s.ri
  curRegion : t.curRegion = s.curRegion
  startLut : t.work.startLut = s.work.startLut
  endLut : t.work.endLut = s.work.endLut
  endOffset : t.work.endOffset = s.work.endOffset

namespace SameRange

theorem of_work_eq (hri : t.ri = s.ri) (hwork : t.work = s.work) : SameRange s t :=
  ⟨hri, by rw [State.curRegion, hwork, State.curRegion], by rw [hwork], by rw [hwork], by rw [hwork]⟩

theorem trans (h : SameRange s t) (h' : SameRange t u) : SameRange s u :=
  ⟨h'.ri.trans h.ri, h'.curRegion.trans h.curRegion, h'.startLut.trans h.startLut, h'.endLut.trans h.endLut,
    h'.endOffset.trans h.endOffset⟩

theorem curType (h : SameRange s t) : t.work.curType = s.work.curType := congrArg Region.type h.curRegion

theorem params (h : SameRange s t) (hcfg : t.cfg = s.cfg) : t.params = s.params := by
  rw [State.params, hcfg, h.curType, State.params]

theorem midCount (h : SameRange s t) : t.midCount = s.midCount := by
  rw [State.midCount, h.startLut, h.endLut, State.midCount]

end SameRange

/-- MID fills its word, keeps the word range and leaves one word less. -/
theorem execMid_setsBlocks {n : Nat} (hc : s.cfg.wf) (hm : s.mem.wf) (hp : s.phase = .mid)
    (hwi : s.wi.toNat + (n + 1) = s.work.endLut.toNat) (hw : s.wi.toNat < s.params.nLutWords) :
    ∃ t, execMid s = .next t ∧ wordsLeft n t ∧ SameRange s t ∧
      SetsBlocks s.work.curType (32 * s.wi.toNat) (32 * (s.wi.toNat + 1))
        [{ kind := .wr, addr := lutAddr s.params s.wi, data := allOnes }] s t :=
  ⟨_, execMid_of_lt hw, wordsLeft_afterMid (s := s.afterAssign _ _ _) hp hwi,
    .of_work_eq (afterMid_position _).1 (afterMid_work _),
    (SetsBlocks.fill hc hm hw).then_sameBus (sameBus_afterMid _)⟩

/-- The MID steps of the words left fill them: from word `w` up to `end_lut`. -/
theorem midSteps_setsBlocks {n : Nat} (hc : s.cfg.wf) (hm : s.mem.wf) (hleft : wordsLeft n s)
    (hw : w.toNat + n = s.work.endLut.toNat) (hend : s.work.endLut.toNat < s.params.nLutWords) :
    ∃ u, midSteps n s = .next u ∧ SameRange s u ∧
      SetsBlocks s.work.curType (32 * w.toNat) (32 * s.work.endLut.toNat) (fillEvents s.params w n) s u := by
  induction n generalizing s w with
  | zero =>
    refine ⟨s, rfl, .of_work_eq rfl rfl, ?_⟩
    rw [← hw]
    exact .of_sameBus hm ⟨keepsPlatform_refl s, ⟨rfl, rfl⟩, rfl, rfl⟩
  | succ n ih =>
    obtain ⟨-, hn⟩ | ⟨hp, -, hwi⟩ := hleft
    · omega
    obtain rfl : w = s.wi := BitVec.eq_of_toNat_eq (by omega)
    have hnext : (s.wi + 1#32).toNat = s.wi.toNat + 1 :=
      toNat_add_one_of_lt (b := s.work.endLut) (BitVec.lt_def.2 (by omega))
    obtain ⟨t, ht, hleft, hrange, hfill⟩ := execMid_setsBlocks hc hm hp hwi (by omega)
    have hcfg : t.cfg = s.cfg := hfill.platform.1
    have hparams : t.params = s.params := hrange.params hcfg
    obtain ⟨u, hu, hrange', hrest⟩ := ih (w := s.wi + 1#32) (hcfg ▸ hc) hfill.canonical hleft
      (by rw [hrange.endLut]; omega) (by rw [hrange.endLut, hparams]; exact hend)
    rw [hrange.curType, hrange.endLut, hparams, hnext] at hrest
    refine ⟨u, by rw [midSteps, ht, andThen_next, hu], hrange.trans hrange', ?_⟩
    rw [fillEvents_succ]
    exact hfill.trans hrest (by omega) (by omega)

/-! ### PROGRAM -/

/-- FIRST sets the blocks from `start_offset` of its word to the end of that word, and leaves the words between. -/
theorem execFirst_setsBlocks (hc : s.cfg.wf) (hm : s.mem.wf) (hpol : s.cfg.mergePolicy = .uniformOr)
    (hlt : s.work.startLut < s.work.endLut) (hw : s.work.startLut.toNat < s.params.nLutWords) :
    ∃ t, execFirst s = .next t ∧ wordsLeft s.midCount t ∧ SameRange s t ∧
      SetsBlocks s.work.curType (32 * s.work.startLut.toNat + s.work.startOffset.toNat)
        (32 * (s.work.startLut.toNat + 1))
        (mergeEvents s s.work.curType s.work.startLut (setBitRange s.work.startOffset 31)) s t := by
  have hmerged : SameRange s (s.merged s.work.startLut (setBitRange s.work.startOffset 31)) := ⟨rfl, rfl, rfl, rfl, rfl⟩
  exact ⟨afterFirst (s.merged s.work.startLut (setBitRange s.work.startOffset 31)), execFirst_of_uniformOr hc hpol hw,
    wordsLeft_afterFirst (s := s.merged s.work.startLut (setBitRange s.work.startOffset 31)) hlt,
    hmerged.trans (.of_work_eq (afterFirst_position _).1 (afterFirst_work _)),
    (SetsBlocks.merged hc hm hw s.work.startOffset 31).then_sameBus (sameBus_afterFirst _)⟩

/-- LAST, in a state `t` that the earlier phases of the region of `s` have left, adds the blocks up to `end_offset` of
the last word, which those phases have kept. -/
theorem execLast_setsBlocks (hc : s.cfg.wf) (hend : s.work.endLut.toNat < s.params.nLutWords) (hrange : SameRange s t)
    (h : SetsBlocks s.work.curType a (32 * s.work.endLut.toNat) es s t) (ha : a ≤ 32 * s.work.endLut.toNat) :
    ∃ u, execLast t = nextRegion u ∧ u.ri = s.ri ∧ u.curRegion = s.curRegion ∧
      SetsBlocks s.work.curType a (32 * s.work.endLut.toNat + s.work.endOffset.toNat + 1)
        (es ++ mergeEvents s s.work.curType s.work.endLut (setBitRange 0 s.work.endOffset)) s u := by
  have hcfg : t.cfg = s.cfg := h.platform.1
  have hend' : s.work.endLut.toNat < t.params.nLutWords := by rwa [hrange.params hcfg]
  have hexec := execLast_of_lt (s := t) (hcfg ▸ hc) (hrange.endLut ▸ hend')
  rw [hrange.endLut, hrange.endOffset] at hexec
  have hlast := SetsBlocks.merged (hcfg ▸ hc) h.canonical hend' 0 s.work.endOffset
  rw [hrange.curType, mergeEvents, hcfg, h.lutWord_of_le hend le_rfl] at hlast
  exact ⟨_, hexec, hrange.ri, hrange.curRegion, h.trans hlast ha (by omega)⟩

/-- Case B sets the blocks from `start_offset` of the first word to `end_offset` of the last, and ends in the advance to
the next region (43_lut_programmer.md R84). -/
theorem caseB_setsBlocks (hc : s.cfg.wf) (hm : s.mem.wf) (hpol : s.cfg.mergePolicy = .uniformOr)
    (hlt : s.work.startLut < s.work.endLut) (hend : s.work.endLut.toNat < s.params.nLutWords) :
    ∃ u, caseB s = nextRegion u ∧ u.ri = s.ri ∧ u.curRegion = s.curRegion ∧
      SetsBlocks s.work.curType (32 * s.work.startLut.toNat + s.work.startOffset.toNat)
        (32 * s.work.endLut.toNat + s.work.endOffset.toNat + 1)
        (mergeEvents s s.work.curType s.work.startLut (setBitRange s.work.startOffset 31) ++
          fillEvents s.params (s.work.startLut + 1#32) s.midCount ++
          mergeEvents s s.work.curType s.work.endLut (setBitRange 0 s.work.endOffset)) s u := by
  have hlt' : s.work.startLut.toNat < s.work.endLut.toNat := hlt
  have hoffset : s.work.startOffset.toNat < 32 := s.work.startOffset.isLt
  have hnext : (s.work.startLut + 1#32).toNat = s.work.startLut.toNat + 1 := toNat_add_one_of_lt hlt
  have hcount : s.work.startLut.toNat + 1 + s.midCount = s.work.endLut.toNat := by rw [State.midCount]; omega
  obtain ⟨t, ht, hleft, hrange, hfirst⟩ := execFirst_setsBlocks hc hm hpol hlt (hlt'.trans hend)
  have hcfg : t.cfg = s.cfg := hfirst.platform.1
  have hparams : t.params = s.params := hrange.params hcfg
  obtain ⟨v, hv, hrange', hmids⟩ := midSteps_setsBlocks (w := s.work.startLut + 1#32) (hcfg ▸ hc) hfirst.canonical hleft
    (by rw [hrange.endLut, hnext, hcount]) (by rwa [hrange.endLut, hparams])
  rw [hrange.curType, hrange.endLut, hparams, hnext] at hmids
  obtain ⟨u, hu, hleaves⟩ := execLast_setsBlocks hc hend (hrange.trans hrange')
    (hfirst.trans hmids (by omega) (by omega)) (by omega)
  exact ⟨u, by rw [caseB, ht, andThen_next, hrange.midCount, hv, andThen_next, hu], hleaves⟩

/-- A block by its word and its bit (30_encoding.md R55). -/
theorem lutIndex_mul_add_lutOffset (k : Word) : 32 * (lutIndex k).toNat + (lutOffset k).toNat = k.toNat := by
  rw [lutIndex_toNat, lutOffset_toNat, Nat.div_add_mod]

theorem lutOffset_le_of_lutIndex_eq {j k : Word} (hle : j.toNat ≤ k.toNat) (h : lutIndex j = lutIndex k) :
    lutOffset j ≤ lutOffset k := by
  have hj := lutIndex_mul_add_lutOffset j
  have hk := lutIndex_mul_add_lutOffset k
  rw [h] at hj
  rw [BitVec.le_def]
  omega

/-- The transactions of a region in one word (43_lut_programmer.md R88). -/
theorem programEvents_caseA {r : Region} (h : lutIndex (startBlockOf s.cfg r) = lutIndex (endBlockOf s.cfg r)) :
    programEvents s r = mergeEvents s r.type (lutIndex (startBlockOf s.cfg r))
      (setBitRange (lutOffset (startBlockOf s.cfg r)) (lutOffset (endBlockOf s.cfg r))) :=
  if_pos h

/-- The transactions of a region in several words (43_lut_programmer.md R88). -/
theorem programEvents_caseB {r : Region} (h : lutIndex (startBlockOf s.cfg r) ≠ lutIndex (endBlockOf s.cfg r)) :
    programEvents s r =
      mergeEvents s r.type (lutIndex (startBlockOf s.cfg r)) (setBitRange (lutOffset (startBlockOf s.cfg r)) 31) ++
      fillEvents (s.cfg.of r.type) (lutIndex (startBlockOf s.cfg r) + 1#32)
        ((lutIndex (endBlockOf s.cfg r)).toNat - (lutIndex (startBlockOf s.cfg r)).toNat - 1) ++
      mergeEvents s r.type (lutIndex (endBlockOf s.cfg r)) (setBitRange 0 (lutOffset (endBlockOf s.cfg r))) :=
  if_neg h

/-- PROGRAM sets the block range of the current region, and ends in the advance to the next one
(43_lut_programmer.md R78, R89). -/
theorem program_setsBlocks (hc : s.cfg.wf) (hm : s.mem.wf) (hpol : s.cfg.mergePolicy = .uniformOr)
    (hstart : s.work.startBlock = startBlockOf s.cfg s.curRegion) (hstop : s.work.endBlock = endBlockOf s.cfg s.curRegion)
    (hle : s.work.startBlock.toNat ≤ s.work.endBlock.toNat) (hfits : s.work.endBlock.toNat / 32 < s.params.nLutWords) :
    ∃ u, program s = nextRegion u ∧ u.ri = s.ri ∧ u.curRegion = s.curRegion ∧
      SetsBlocks s.work.curType s.work.startBlock.toNat (s.work.endBlock.toNat + 1) (programEvents s s.curRegion) s u := by
  have hsplit : SetsBlocks s.work.curType s.work.startBlock.toNat s.work.startBlock.toNat [] s s.afterSplit :=
    .of_sameBus hm ⟨⟨rfl, rfl, rfl, rfl⟩, ⟨rfl, rfl⟩, rfl, rfl⟩
  have hend : (lutIndex s.work.endBlock).toNat < s.params.nLutWords := by rwa [lutIndex_toNat]
  have hexec : program s = if s.afterSplit.phase = .single then execSingle s.afterSplit else caseB s.afterSplit := by
    rw [program, execSplit_of_le hle hfits, andThen_next]
  rcases afterSplit_phase hle with ⟨hp, heq⟩ | ⟨hp, hlt⟩
  · have heq' : lutIndex s.work.startBlock = lutIndex s.work.endBlock := heq
    have hw : (lutIndex s.work.startBlock).toNat < s.params.nLutWords := heq' ▸ hend
    have hmerge := SetsBlocks.merged (s := s.afterSplit) hc hm hw (lutOffset s.work.startBlock) (lutOffset s.work.endBlock)
    rw [lutIndex_mul_add_lutOffset, heq', lutIndex_mul_add_lutOffset, ← heq'] at hmerge
    rw [if_pos hp, execSingle_of_lt (s := s.afterSplit) hc (lutOffset_le_of_lutIndex_eq hle heq') hw] at hexec
    rw [programEvents_caseA (hstart ▸ hstop ▸ heq'), ← hstart, ← hstop]
    exact ⟨_, hexec, rfl, rfl, hsplit.trans hmerge le_rfl (by omega)⟩
  · have hne : lutIndex s.work.startBlock ≠ lutIndex s.work.endBlock := BitVec.ne_of_lt hlt
    obtain ⟨u, hu, hri, hregion, hset⟩ := caseB_setsBlocks (s := s.afterSplit) hc hm hpol hlt hend
    rw [if_neg (by rw [hp]; decide), hu] at hexec
    rw [programEvents_caseB (hstart ▸ hstop ▸ hne), ← hstart, ← hstop]
    refine ⟨u, hexec, hri, hregion, hsplit.trans ?_ le_rfl (by omega)⟩
    rw [← lutIndex_mul_add_lutOffset s.work.startBlock, ← lutIndex_mul_add_lutOffset s.work.endBlock]
    exact hset

/-! ### A whole descriptor -/

/-- The instruction of a Region executes the region whole (44_orchestrator.md R93, R94). -/
theorem exec_toInstr (r : Region) (s : State) : exec r.toInstr s = execRegion r s := by
  obtain ⟨start, stop, type⟩ := r
  cases type <;> rfl

/-- The state RESOLVE and TRANSLATE leave of a region that passes their checks. -/
def State.translated (s : State) (r : Region) : State :=
  { s with
    phase := .split
    work := { s.work with
      curStart := r.start, curEnd := r.stop, curType := r.type
      shift := shiftOf (s.cfg.of r.type), blocksize := blocksizeOf (s.cfg.of r.type)
      startBlock := startBlockOf s.cfg r, endBlock := endBlockOf s.cfg r }
    trace := s.trace ++ [{ kind := .rd, addr := (s.cfg.of r.type).cfgAddr, data := (s.cfg.of r.type).cfgValue }] }

theorem setBlocks_afterResolve_loadRegion (s : State) (r : Region) :
    (s.loadRegion r).afterResolve.setBlocks = s.translated r := by
  simp only [State.loadRegion, State.afterResolve, State.setBlocks, State.params, State.setWork, State.toPhase, State.log,
    State.translated, startBlockOf, endBlockOf]

section

variable (s : State) (r : Region)

@[simp] theorem State.translated_cfg : (s.translated r).cfg = s.cfg := rfl
@[simp] theorem State.translated_mem : (s.translated r).mem = s.mem := rfl
@[simp] theorem State.translated_phase : (s.translated r).phase = .split := rfl
@[simp] theorem State.translated_curRegion : (s.translated r).curRegion = r := rfl
@[simp] theorem State.translated_curType : (s.translated r).work.curType = r.type := rfl
@[simp] theorem State.translated_startBlock : (s.translated r).work.startBlock = startBlockOf s.cfg r := rfl
@[simp] theorem State.translated_endBlock : (s.translated r).work.endBlock = endBlockOf s.cfg r := rfl

end

/-- The LUT transactions of a region depend on the parameters and the register space only. -/
theorem programEvents_congr (hcfg : t.cfg = s.cfg) (hmem : t.mem = s.mem) (r : Region) :
    programEvents t r = programEvents s r := by
  have hword : t.lutWord r.type = s.lutWord r.type := funext fun w => by
    rw [State.lutWord, hmem, hcfg, State.lutWord]
  simp only [programEvents, hcfg, hword]

/-- A region in its window, and aligned where the option asks for it, reaches PROGRAM. -/
theorem execRegion_of_inWindow {r : Region} (hc : s.cfg.wf) (hwindow : inWindow (s.cfg.of r.type) r.start r.stop = true)
    (haligned : s.cfg.checkPreconditions = true → r.aligned s.cfg) : execRegion r s = program (s.translated r) := by
  have htranslate : execTranslate (s.loadRegion r).afterResolve = .next (s.translated r) :=
    execTranslate_eq_next.2 (.inr ⟨fun hcheck => failedCheck_eq_none.2 ⟨hwindow, haligned hcheck⟩, hwindow,
      (setBlocks_afterResolve_loadRegion s r).symm⟩)
  rw [execRegion, execResolve_next (s := s.loadRegion r) hc, andThen_next, htranslate, andThen_next,
    State.translated_phase, if_neg (by decide)]

/-- The transactions of one descriptor: the CFG read of its type, then those of PROGRAM (44_orchestrator.md R95). -/
def regionEvents (s : State) (r : Region) : List BusEvent :=
  { kind := .rd, addr := (s.cfg.of r.type).cfgAddr, data := (s.cfg.of r.type).cfgValue } :: programEvents s r

/-- A region the block programs has its block range set, and the next region is taken up, or the list refused there
(43_lut_programmer.md R89). -/
theorem execRegion_setsBlocks {r : Region} (hc : s.cfg.wf) (hm : s.mem.wf) (hpol : s.cfg.mergePolicy = .uniformOr)
    (hr : r.accepted s.cfg) :
    ∃ u, execRegion r s = nextRegion u ∧ u.ri = s.ri ∧ u.curRegion = r ∧
      SetsBlocks r.type (startBlockOf s.cfg r).toNat ((endBlockOf s.cfg r).toNat + 1) (regionEvents s r) s u := by
  obtain ⟨⟨hwindow, hfits⟩, haligned⟩ := hr
  have hread : SetsBlocks r.type (startBlockOf s.cfg r).toNat (startBlockOf s.cfg r).toNat
      [{ kind := .rd, addr := (s.cfg.of r.type).cfgAddr, data := (s.cfg.of r.type).cfgValue }] s (s.translated r) :=
    .of_mem_eq hm ⟨rfl, rfl, rfl, rfl⟩ ⟨rfl, rfl⟩ rfl rfl
  have hle : (startBlockOf s.cfg r).toNat ≤ (endBlockOf s.cfg r).toNat := blockOf_le_of_inWindow hwindow _
  obtain ⟨u, hu, hri, hregion, hset⟩ := program_setsBlocks (s := s.translated r) hc hm hpol
    (by simp only [State.translated_startBlock, State.translated_cfg, State.translated_curRegion])
    (by simp only [State.translated_endBlock, State.translated_cfg, State.translated_curRegion])
    hle (by rw [← lutIndex_toNat]; exact hfits)
  rw [State.translated_curType, State.translated_startBlock, State.translated_endBlock, State.translated_curRegion,
    programEvents_congr (State.translated_cfg s r) (State.translated_mem s r)] at hset
  exact ⟨u, (execRegion_of_inWindow hc hwindow haligned).trans hu, hri, hregion,
    hread.trans hset le_rfl (Nat.le_succ_of_le hle)⟩

theorem canTakeUp_congr {n : Nat} (h : t.regions = s.regions) : canTakeUp t n ↔ canTakeUp s n := by
  rw [canTakeUp, h, canTakeUp]

theorem takenUp_congr {n : Nat} (hlist : t.regions = s.regions) (hregion : t.curRegion = s.curRegion) :
    takenUp t n u ↔ takenUp s n u := by
  rw [takenUp, hlist, hregion, takenUp]

/-- A region the block programs, whose next region can be taken up, is executed to the end. -/
theorem exec_nsr_next {start stop : Word} (hc : s.cfg.wf) (hm : s.mem.wf) (hpol : s.cfg.mergePolicy = .uniformOr)
    (hr : Region.accepted s.cfg ⟨start, stop, ty⟩) (hnext : canTakeUp s (s.ri + 1)) :
    ∃ t, exec (nsr ty start stop) s = .next t ∧ takenUp (s.loadRegion ⟨start, stop, ty⟩) (s.ri + 1) t := by
  obtain ⟨u, hu, hri, hregion, hset⟩ := execRegion_setsBlocks hc hm hpol hr
  obtain ⟨-, hlist, -⟩ := hset.platform
  obtain ⟨t, ht⟩ := enterRegion_of_canTakeUp (hri ▸ (canTakeUp_congr hlist).2 hnext)
  refine ⟨t, (exec_toInstr _ s).trans (hu.trans ht), ?_⟩
  obtain ⟨htaken, -⟩ := enterRegion_takenUp ht
  rw [← hri]
  exact (takenUp_congr (s := s.loadRegion ⟨start, stop, ty⟩) hlist hregion).1 htaken

/-- Whatever an instruction on a region the block programs answers has the block range of the region set. -/
theorem setsBlocks_of_exec_nsr {start stop : Word} (hc : s.cfg.wf) (hm : s.mem.wf)
    (hpol : s.cfg.mergePolicy = .uniformOr) (hr : Region.accepted s.cfg ⟨start, stop, ty⟩)
    (h : exec (nsr ty start stop) s = .next t) :
    SetsBlocks ty (startBlockOf s.cfg ⟨start, stop, ty⟩).toNat ((endBlockOf s.cfg ⟨start, stop, ty⟩).toNat + 1)
      (regionEvents s ⟨start, stop, ty⟩) s t := by
  obtain ⟨u, hu, -, -, hset⟩ := execRegion_setsBlocks hc hm hpol hr
  exact hset.then_sameBus (sameBus_enterRegion ((hu.symm.trans (exec_toInstr _ s).symm).trans h))

/-- The bits of the set blocks, as `coversBit` says them. -/
theorem SetsBlocks.lutBit {r : Region}
    (h : SetsBlocks r.type (startBlockOf s.cfg r).toNat ((endBlockOf s.cfg r).toNat + 1) es s t) {ty' : MemType} {b : Nat}
    (hw : w.toNat < (s.cfg.of ty').nLutWords) (hb : b < 32) :
    t.lutBit ty' w b = (coversBit s.cfg r ty' w b || s.lutBit ty' w b) := by
  rw [h.bits ty' w b hw hb, coversBit]
  simp only [Nat.lt_succ_iff]

/-- Settles O36: an accepted region sets its blocks by writes of adjacent intervals of blocks, whatever their number. -/
theorem nsrSetsExactlyItsBlocks : Obligations.NsrSetsExactlyItsBlocks := by
  intro s ty start stop r hc hm hpol hr hnext
  obtain ⟨t, ht, htaken⟩ := exec_nsr_next hc hm hpol hr hnext
  have hset := setsBlocks_of_exec_nsr hc hm hpol hr ht
  exact ⟨t, ht, fun ty' w b hw hb => hset.lutBit (r := r) hw hb, hset.outside, htaken, hset.platform, hset.abort⟩

/-- The number of transactions of a region: the CFG read and those of Case A or Case B (43_lut_programmer.md R84). -/
theorem regionEvents_length (s : State) (r : Region) :
    (regionEvents s r).length =
      if (startBlockOf s.cfg r).toNat / 32 = (endBlockOf s.cfg r).toNat / 32 then 3
      else 5 + ((endBlockOf s.cfg r).toNat / 32 - (startBlockOf s.cfg r).toNat / 32 - 1) := by
  rw [regionEvents, List.length_cons]
  by_cases h : lutIndex (startBlockOf s.cfg r) = lutIndex (endBlockOf s.cfg r)
  · rw [programEvents_caseA h, if_pos ((lutIndex_inj _ _).1 h)]
    rfl
  · rw [programEvents_caseB h, if_neg (mt (lutIndex_inj _ _).2 h)]
    simp only [List.length_append, mergeEvents, fillEvents, List.length_map, List.length_range, List.length_cons,
      List.length_nil, lutIndex_toNat]
    omega

/-- Settles O37: the trace is the one with which the blocks were set. -/
theorem nsrTransactions : Obligations.NsrTransactions := by
  intro s ty start stop r p sl el hc hm hpol hr hnext
  obtain ⟨t, ht, -⟩ := exec_nsr_next hc hm hpol hr hnext
  have htrace : t.trace = s.trace ++ regionEvents s r := (setsBlocks_of_exec_nsr hc hm hpol hr ht).trace
  exact ⟨t, ht, htrace, by rw [htrace, List.length_append, regionEvents_length]⟩

end Sys2Proof.Machine
end

section
/-! PROOFS. O40, O41: the register space is its LUT bits and the bytes outside the LUT arrays, and a region adds its blocks
to the set bits (43_lut_programmer.md R90). -/

namespace Sys2Proof.Machine

variable {s t u : State}

/-! ### The register space is determined by its LUT bits and its other bytes -/

/-- Equal words have equal bytes. -/
theorem Memory.readByte_eq_of_readWord_eq {m m' : Memory} {a x : Nat} (h : m.readWord a = m'.readWord a) (hl : a ≤ x)
    (hu : x < a + 4) : m.readByte x = m'.readByte x := by
  have hbytes := congrArg bytesOfWord h
  simp only [Memory.readWord, bytesOfWord_wordOfBytes, List.cons.injEq, and_true] at hbytes
  obtain ⟨h0, h1, h2, h3⟩ := hbytes
  obtain rfl | rfl | rfl | rfl : x = a ∨ x = a + 1 ∨ x = a + 2 ∨ x = a + 3 := by omega
  · exact h0
  · exact h1
  · exact h2
  · exact h3

/-- Every byte of a LUT array lies in one of its words. -/
theorem exists_lutWord_of_inLut {c : Config} (hc : c.wf) {ty : MemType} {x : Nat} (hx : (c.of ty).inLut x) :
    ∃ w : Word, w.toNat < (c.of ty).nLutWords ∧ (lutAddr (c.of ty) w).toNat ≤ x ∧ x < (lutAddr (c.of ty) w).toNat + 4 := by
  obtain ⟨hl, hu⟩ := hx
  obtain ⟨-, -, -, -, -, hend, -⟩ := Config.of_wf hc ty
  unfold TypeParams.lutEnd at hu hend
  have hw : (BitVec.ofNat 32 ((x - (c.of ty).lutBase.toNat) / 4)).toNat = (x - (c.of ty).lutBase.toNat) / 4 :=
    Nat.mod_eq_of_lt (by omega)
  have hlt : (BitVec.ofNat 32 ((x - (c.of ty).lutBase.toNat) / 4)).toNat < (c.of ty).nLutWords := by omega
  obtain ⟨haddr, -⟩ := lutAddr_bounds hc hlt
  exact ⟨_, hlt, by omega, by omega⟩

/-- Two canonical register spaces with the same LUT bits and the same bytes outside both LUT arrays are the same. -/
theorem mem_eq_of_lutBit_eq (hc : t.cfg.wf) (hcfg : u.cfg = t.cfg) (ht : t.mem.wf) (hu : u.mem.wf)
    (hbits : ∀ (ty : MemType) (w : Word) (b : Nat), w.toNat < (t.cfg.of ty).nLutWords → b < 32 →
      u.lutBit ty w b = t.lutBit ty w b)
    (hout : ∀ x, (∀ ty, ¬ (t.cfg.of ty).inLut x) → u.mem.readByte x = t.mem.readByte x) : u.mem = t.mem := by
  refine Memory.ext_of_wf hu ht fun x => ?_
  by_cases hx : ∃ ty, (t.cfg.of ty).inLut x
  · obtain ⟨ty, hin⟩ := hx
    obtain ⟨w, hw, hl, hr⟩ := exists_lutWord_of_inLut hc hin
    have hword : u.lutWord ty w = t.lutWord ty w := BitVec.eq_of_getLsbD_eq fun b hb => hbits ty w b hw hb
    rw [State.lutWord, State.lutWord, hcfg] at hword
    exact Memory.readByte_eq_of_readWord_eq hword hl hr
  · exact hout x (not_exists.1 hx)

/-! ### What an instruction does to the register space -/

/-- From `s` to `t` the parameters are kept, the LUT bits of the blocks of `r` are set, and every other byte and bit is as
it was, in a register space that is canonical (43_lut_programmer.md R89). -/
structure AddsBlocks (c : Config) (r : Region) (s t : State) : Prop where
  cfg : t.cfg = c
  canonical : t.mem.wf
  bits : ∀ (ty : MemType) (w : Word) (b : Nat), w.toNat < (c.of ty).nLutWords → b < 32 →
    t.lutBit ty w b = (coversBit c r ty w b || s.lutBit ty w b)
  outside : ∀ x, (∀ ty, ¬ (c.of ty).inLut x) → t.mem.readByte x = s.mem.readByte x

/-- An instruction on a region the block programs adds the region's blocks. -/
theorem addsBlocks_of_exec_nsr {c : Config} {ty : MemType} {start stop : Word} (hcfg : s.cfg = c) (hc : c.wf)
    (hm : s.mem.wf) (hpol : c.mergePolicy = .uniformOr) (hr : Region.accepted c ⟨start, stop, ty⟩)
    (h : exec (nsr ty start stop) s = .next t) : AddsBlocks c ⟨start, stop, ty⟩ s t := by
  subst hcfg
  have hset := setsBlocks_of_exec_nsr hc hm hpol hr h
  exact ⟨hset.platform.1, hset.canonical, fun ty' w b hw hb => hset.lutBit (r := ⟨start, stop, ty⟩) hw hb,
    fun x hx => hset.outside x (hx ty)⟩

/-- Settles O40: the blocks of the region are set already, and setting them again changes no bit. -/
theorem nsrIdempotent : Obligations.NsrIdempotent := by
  intro s t u ty start stop hc hm hpol hr ht hu
  have h := addsBlocks_of_exec_nsr rfl hc hm hpol hr ht
  have h' := addsBlocks_of_exec_nsr h.cfg hc h.canonical hpol hr hu
  refine mem_eq_of_lutBit_eq (h.cfg ▸ hc) (h'.cfg.trans h.cfg.symm) h.canonical h'.canonical ?_ ?_
  · rw [h.cfg]
    intro ty' w b hw hb
    rw [h'.bits ty' w b hw hb, h.bits ty' w b hw hb, ← Bool.or_assoc, Bool.or_self]
  · rw [h.cfg]
    exact h'.outside

/-- Settles O41: either order sets the union of the two block ranges. -/
theorem nsrCommute : Obligations.NsrCommute := by
  intro s t u t' u' ty ty' start stop start' stop' hc hm hpol hr hr' ht hu ht' hu'
  have h := addsBlocks_of_exec_nsr rfl hc hm hpol hr ht
  have hthen := addsBlocks_of_exec_nsr h.cfg hc h.canonical hpol hr' hu
  have h' := addsBlocks_of_exec_nsr rfl hc hm hpol hr' ht'
  have hthen' := addsBlocks_of_exec_nsr h'.cfg hc h'.canonical hpol hr hu'
  refine mem_eq_of_lutBit_eq (hthen'.cfg ▸ hc) (hthen.cfg.trans hthen'.cfg.symm) hthen'.canonical hthen.canonical ?_ ?_
  · rw [hthen'.cfg]
    intro ty'' w b hw hb
    rw [hthen.bits ty'' w b hw hb, h.bits ty'' w b hw hb, hthen'.bits ty'' w b hw hb, h'.bits ty'' w b hw hb,
      Bool.or_left_comm]
  · rw [hthen'.cfg]
    intro x hx
    rw [hthen.outside x hx, h.outside x hx, hthen'.outside x hx, h'.outside x hx]

end Sys2Proof.Machine
end

section
/-! PROOFS. RUN: in IDLE and DONE it takes up the first region, while busy it is refused, in ABORT it does nothing:
O27 to O29 (44_orchestrator.md R96, R98, R101, 60_exceptions.md R111). -/

namespace Sys2Proof.Machine

variable {s : State} {n : Nat}

/-- Past the end of the list DONE is entered (44_orchestrator.md R97, R98). -/
theorem enterRegion_of_length_le (h : s.regions.length ≤ n) :
    enterRegion n s = .next { s with ri := n, phase := .done } :=
  enterRegion_eq_next.2 (.inl ⟨h, rfl⟩)

/-- A descriptor that spells a Region is fetched (44_orchestrator.md R95, R97). -/
theorem enterRegion_of_decodeRegion {d : Descriptor} {r : Region} (hd : s.regions[n]? = some d)
    (hr : decodeRegion d = .ok r) : enterRegion n s = .next ((s.setRi n).loadRegion r) :=
  enterRegion_eq_next.2 (.inr ⟨d, r, hd, hr, rfl⟩)

theorem execRun_of_accepting (b : Bool) (hp : s.phase = .idle ∨ s.phase = .done) (hlist : regionsDecode s.regions = true) :
    execRun b s = enterRegion 0 s := by
  unfold execRun
  rcases hp with hp | hp
  · rw [hp, if_pos hlist]
  · rw [hp, if_pos hlist]

theorem execRun_of_busy (b : Bool) (hb : s.busy = true) : execRun b s = .refused .reentry := by
  obtain ⟨hidle, hdone, habort⟩ := s.busy_iff.1 hb
  unfold execRun
  split
  · contradiction
  · contradiction
  · contradiction
  · rfl

theorem execRun_of_abort (b : Bool) (hp : s.phase = .abort) : execRun b s = .next s :=
  execRun_eq_next.2 (.inr ⟨hp, rfl⟩)

/-- Settles O27: RUN is the fetch of region 0, which a list of Regions does not refuse. -/
theorem runTakesUpFirstRegion : Obligations.RunTakesUpFirstRegion := by
  intro s b hp hlist
  have hrun : exec (.run b) s = enterRegion 0 s := execRun_of_accepting b hp hlist
  refine ⟨fun hnil => ?_, fun d rest hcons => ?_⟩
  · exact hrun.trans (enterRegion_of_length_le (by rw [hnil]; rfl))
  · obtain ⟨t, ht⟩ := enterRegion_of_canTakeUp (canTakeUp_of_regionsDecode hlist 0)
    rcases enterRegion_eq_next.1 ht with ⟨hlen, -⟩ | ⟨d', r, hd, hr, rfl⟩
    · simp [hcons] at hlen
    · obtain rfl : d = d' := by simpa [hcons] using hd
      exact ⟨r, _, hr, hrun.trans ht, rfl, rfl, rfl⟩

/-- Settles O28: the step is RUN, and region 0 lies past the end of the list. -/
theorem emptyListRunsToDone : Obligations.EmptyListRunsToDone := by
  intro s hc hnil hp hstart
  have hrun : step s = enterRegion 0 s.tick :=
    (step_of_start hc hstart).trans (execRun_of_accepting (s := s.tick) s.done hp (by rw [State.tick_regions, hnil]; rfl))
  have hlen : s.tick.regions.length ≤ 0 := by rw [State.tick_regions, hnil]; rfl
  exact ⟨_, hrun.trans (enterRegion_of_length_le hlen), rfl, rfl, rfl⟩

/-- Settles O29: the step with a trigger is RUN, which looks at the phase before the list. -/
theorem triggerOutsideIdleAndDone : Obligations.TriggerOutsideIdleAndDone :=
  ⟨fun _ b => execRun_of_busy b, fun s hc hstart =>
    ⟨fun hb => (step_of_start hc hstart).trans (execRun_of_busy (s := s.tick) s.done hb),
      fun hp => (step_of_start hc hstart).trans (execRun_of_abort (s := s.tick) s.done hp)⟩⟩

end Sys2Proof.Machine
end

section
/-! PROOFS. A descriptor executed whole is the walk of its phases by steps: O39; and what it does with a region the block
does not program: O38 (44_orchestrator.md R93 to R95, 92_eei_decisions.md D16). -/

namespace Sys2Proof.Machine

variable {s : State} {r : Region}

/-! ### A region the block does not program -/

/-- RESOLVE always answers, so a descriptor starts at TRANSLATE. -/
theorem execRegion_eq_andThen (hc : s.cfg.wf) :
    execRegion r s = andThen (execTranslate (s.loadRegion r).afterResolve) fun t =>
      if t.phase = .abort then .next t else program t := by
  rw [execRegion, execResolve_next (s := s.loadRegion r) hc, andThen_next]

/-- A region that is not both in its window and aligned fails a check. -/
theorem exists_failedCheck {c : Config} (h : ¬ (inWindow (c.of r.type) r.start r.stop = true ∧ r.aligned c)) :
    ∃ code, failedCheck (c.of r.type) r.start r.stop (blocksizeOf (c.of r.type)) = some code :=
  Option.ne_none_iff_exists'.1 fun hnone => h (failedCheck_eq_none.1 hnone)

/-- With the option a failed check ends the descriptor in ABORT (60_exceptions.md R110). -/
theorem execRegion_of_failedCheck {code : BitVec 2} (hc : s.cfg.wf) (hcheck : s.cfg.checkPreconditions = true)
    (hfail : failedCheck (s.cfg.of r.type) r.start r.stop (blocksizeOf (s.cfg.of r.type)) = some code) :
    execRegion r s = .next ((s.loadRegion r).afterResolve.raiseAbort code) := by
  have habort : execTranslate (s.loadRegion r).afterResolve = .next ((s.loadRegion r).afterResolve.raiseAbort code) :=
    execTranslate_eq_next.2 (.inl ⟨hcheck, code, hfail, rfl⟩)
  rw [execRegion_eq_andThen hc, habort, andThen_next, if_pos (State.raiseAbort_phase ..)]

/-- Settles O38: TRANSLATE refuses or aborts, or SPLIT refuses a range in order that does not fit. -/
theorem nsrStops : Obligations.NsrStops := by
  intro s ty start stop r p hc
  have hexec : exec (nsr ty start stop) s = execRegion r s := exec_toInstr r s
  rw [hexec]
  refine ⟨fun hcheck hwindow => ?_, fun hwindow haligned hfits => ?_, fun hcheck hfail => ?_⟩
  · rw [execRegion_eq_andThen hc]
    exact andThen_eq_refused.2 (.inl (execTranslate_eq_refused.2 ⟨hcheck, eq_false_of_ne_true hwindow, rfl⟩))
  · rw [execRegion_of_inWindow hc hwindow haligned]
    refine andThen_eq_refused.2 (.inl (execSplit_eq_refused.2 (.inr ⟨rfl, blockOf_le_of_inWindow hwindow _, ?_⟩)))
    rw [← lutIndex_toNat]
    exact Nat.le_of_not_lt hfits
  · obtain ⟨code, hcode⟩ := exists_failedCheck (r := r) hfail
    exact ⟨_, execRegion_of_failedCheck hc hcheck hcode, rfl, rfl, failedCheck_ne_zero hcode, rfl, rfl, rfl, rfl, rfl, rfl,
      rfl⟩

/-! ### A region the block programs, under either merge policy -/

theorem sameRange_firstWritten (s : State) : SameRange s s.firstWritten := by
  unfold State.firstWritten
  split <;> exact ⟨rfl, rfl, rfl, rfl, rfl⟩

/-- The MID steps of the words left answer, where the last word names a register. -/
theorem midSteps_next {n : Nat} (hleft : wordsLeft n s) (hend : s.work.endLut.toNat < s.params.nLutWords) :
    ∃ t, midSteps n s = .next t ∧ SameRange s t := by
  induction n generalizing s with
  | zero => exact ⟨s, rfl, .of_work_eq rfl rfl⟩
  | succ n ih =>
    obtain ⟨-, hn⟩ | ⟨hp, -, hwi⟩ := hleft
    · omega
    have hmid := execMid_of_lt (s := s) (by omega)
    have hrange : SameRange s (afterMid (s.afterAssign s.work.curType s.wi allOnes)) :=
      .of_work_eq (afterMid_position _).1 (afterMid_work _)
    have hparams := hrange.params (sameBus_afterMid (s.afterAssign s.work.curType s.wi allOnes)).platform.1
    obtain ⟨t, ht, hrange'⟩ := ih (wordsLeft_afterMid (s := s.afterAssign _ _ _) hp hwi)
      (by rw [hrange.endLut, hparams]; exact hend)
    exact ⟨t, by rw [midSteps, hmid, andThen_next, ht], hrange.trans hrange'⟩

/-- Case B answers, where its last word names a register and the next region can be taken up. -/
theorem caseB_next (hc : s.cfg.wf) (hlt : s.work.startLut < s.work.endLut)
    (hend : s.work.endLut.toNat < s.params.nLutWords) (hnext : canTakeUp s (s.ri + 1)) : ∃ t, caseB s = .next t := by
  have hwritten := sameRange_firstWritten s
  have hfirst : execFirst s = .next (afterFirst s.firstWritten) :=
    (execFirst_eq_next hc).2 ⟨(BitVec.lt_def.1 hlt).trans hend, rfl⟩
  have hrange : SameRange s (afterFirst s.firstWritten) :=
    hwritten.trans (.of_work_eq (afterFirst_position _).1 (afterFirst_work _))
  obtain ⟨hcfg, hlist, -⟩ := (busRel_true.opRel.first _ _ hfirst hc).1
  have hleft : wordsLeft s.midCount (afterFirst s.firstWritten) :=
    hwritten.midCount ▸ wordsLeft_afterFirst (by rw [hwritten.startLut, hwritten.endLut]; exact hlt)
  obtain ⟨u, hu, hrange'⟩ := midSteps_next hleft (by rw [hrange.endLut, hrange.params hcfg]; exact hend)
  obtain ⟨hcfg', hlist', -⟩ := (busRel_true.opRel.mids _ hu (hcfg ▸ hc)).1
  have hall := hrange.trans hrange'
  have hlast := execLast_of_lt (s := u) (hcfg' ▸ hcfg ▸ hc)
    (by rw [hall.endLut, hall.params (hcfg'.trans hcfg)]; exact hend)
  obtain ⟨t, ht⟩ := enterRegion_of_canTakeUp (s := u.merged u.work.endLut (setBitRange 0 u.work.endOffset))
    (n := u.ri + 1) (by rw [hall.ri]; exact (canTakeUp_congr (hlist'.trans hlist)).2 hnext)
  exact ⟨t, by rw [caseB, hfirst, andThen_next, hrange.midCount, hu, andThen_next, hlast]; exact ht⟩

/-- PROGRAM answers for a range in order that fits the LUT. -/
theorem program_next (hc : s.cfg.wf) (hle : s.work.startBlock.toNat ≤ s.work.endBlock.toNat)
    (hfits : s.work.endBlock.toNat / 32 < s.params.nLutWords) (hnext : canTakeUp s (s.ri + 1)) :
    ∃ t, program s = .next t := by
  have hend : (lutIndex s.work.endBlock).toNat < s.params.nLutWords := by rwa [lutIndex_toNat]
  rw [program, execSplit_of_le hle hfits, andThen_next]
  rcases afterSplit_phase hle with ⟨hp, heq⟩ | ⟨hp, hlt⟩
  · have heq' : lutIndex s.work.startBlock = lutIndex s.work.endBlock := heq
    have hstart : (lutIndex s.work.startBlock).toNat < s.params.nLutWords := heq' ▸ hend
    rw [if_pos hp, execSingle_of_lt (s := s.afterSplit) hc (lutOffset_le_of_lutIndex_eq hle heq') hstart]
    exact enterRegion_of_canTakeUp hnext
  · rw [if_neg (by rw [hp]; decide)]
    exact caseB_next (s := s.afterSplit) hc hlt hend hnext

/-- A region the block programs is executed to the end, where the next can be taken up. -/
theorem execRegion_next (hc : s.cfg.wf) (hr : r.accepted s.cfg) (hnext : canTakeUp s (s.ri + 1)) :
    ∃ t, execRegion r s = .next t := by
  obtain ⟨⟨hwindow, hfits⟩, haligned⟩ := hr
  rw [execRegion_of_inWindow hc hwindow haligned]
  exact program_next (s := s.translated r) hc (blockOf_le_of_inWindow hwindow _) (by rw [← lutIndex_toNat]; exact hfits)
    hnext

/-! ### Steps without an input -/

theorem State.input_of_nil (h : s.inputs = []) : s.input = .quiet := by rw [State.input, h]

theorem State.tick_of_nil (h : s.inputs = []) : s.tick = s := by
  cases s
  cases h
  rfl

/-- Without an input a block that is not busy waits (70_reset_and_hazards.md R122). -/
theorem step_of_not_busy (hc : s.cfg.wf) (hi : s.input = .quiet) (hb : s.busy = false) : step s = .next s.tick :=
  step_eq_next.2 ⟨hc, .inr (.inr (.inl ⟨hi, hb, rfl⟩))⟩

/-- The phase codes of a busy block are those of operations (30_encoding.md R59). -/
theorem exists_decode_code {p : Phase} (h : p.isBusy = true) : ∃ i, decode [p.code.setWidth 8] = .ok i := by
  cases p
  case idle | done | abort => exact nomatch h
  all_goals exact ⟨_, rfl⟩

theorem phaseOp_of_not_busy (h : s.busy = false) : phaseOp s = .next s := by
  rcases s.not_busy_iff.1 h with hp | hp | hp <;> rw [phaseOp, hp]

/-- With one phase a step and no input, a step is the operation of the phase (10_state.md R23). -/
theorem step_eq_phaseOp (hc : s.cfg.wf) (hg : s.grain = .phase) (hi : s.inputs = []) : step s = phaseOp s := by
  have hquiet := State.input_of_nil hi
  have htick := State.tick_of_nil hi
  cases hb : s.busy
  case false => rw [step_of_not_busy hc hquiet hb, phaseOp_of_not_busy hb, htick]
  case true =>
    obtain ⟨i, hcode⟩ := exists_decode_code hb
    have hfetch : decode (fetchBytes s) = .ok i := by rw [fetchBytes_eq_code (.inl hg), hcode]
    rw [step_of_fetch hc hquiet hb hfetch, htick]
    rcases exec_of_fetch hb hfetch with hop | ⟨hregion, -⟩
    · exact hop s rfl
    · exact nomatch hg.symm.trans hregion

/-- With one phase a step and no input, a run is a walk of phase operations. -/
theorem runSteps_eq_phaseRun (hc : s.cfg.wf) (hg : s.grain = .phase) (hi : s.inputs = []) (n : Nat) :
    runSteps n s = phaseRun n s := by
  induction n generalizing s with
  | zero => rfl
  | succ n ih =>
    rw [runSteps, phaseRun, step_eq_phaseOp hc hg hi]
    refine andThen_congr fun t ht => ?_
    obtain ⟨hcfg, -, hinputs, hgrain⟩ := (busRel_true.opRel.phaseOp ht hc).1
    exact ih (hcfg ▸ hc) (hgrain.trans hg) (hinputs.trans hi)

/-! ### The walk of a region -/

theorem State.loadRegion_curRegion (hp : s.phase = .resolve) : s.loadRegion s.curRegion = s := by
  cases s
  cases hp
  rfl

/-- From the start of a region the steps of its walk are its descriptor executed whole, to the same state or the same
stop. -/
theorem runSteps_regionSteps (hc : s.cfg.wf) (hg : s.grain = .phase) (hi : s.inputs = []) (hp : s.phase = .resolve) :
    runSteps (regionSteps s.cfg s.curRegion) s = execRegion s.curRegion s := by
  rw [runSteps_eq_phaseRun hc hg hi, execRegion_eq_phaseRun hc, State.loadRegion_curRegion hp]

theorem regionSteps_of_accepted {c : Config} (hr : r.accepted c) : regionSteps c r = walkSteps c r false := by
  obtain ⟨⟨hwindow, -⟩, haligned⟩ := hr
  have hcond : ¬ (c.checkPreconditions = true ∧
      (failedCheck (c.of r.type) r.start r.stop (blocksizeOf (c.of r.type))).isSome) := by
    rintro ⟨hcheck, hsome⟩
    rw [failedCheck_eq_none.2 ⟨hwindow, haligned hcheck⟩] at hsome
    exact nomatch hsome
  rw [regionSteps, if_neg hcond, programSteps]
  simp only [walkSteps, Bool.false_eq_true, if_false, BitVec.toNat_inj]
  split
  · rfl
  · omega

theorem regionSteps_of_failedCheck {c : Config} {code : BitVec 2} (hcheck : c.checkPreconditions = true)
    (hfail : failedCheck (c.of r.type) r.start r.stop (blocksizeOf (c.of r.type)) = some code) :
    regionSteps c r = walkSteps c r true :=
  if_pos ⟨hcheck, Option.isSome_iff_exists.2 ⟨code, hfail⟩⟩

/-- Settles O39: a step is the operation of its phase, a descriptor the walk of its phases, and the number of phases is
the one stated. -/
theorem nsrIsThePhaseWalk : Obligations.NsrIsThePhaseWalk := by
  intro s hc hg hi hp r
  have hexec : exec (nsr r.type r.start r.stop) s = execRegion r s := exec_toInstr r s
  rw [hexec, ← runSteps_regionSteps hc hg hi hp]
  refine ⟨fun hr hnext => ⟨by rw [regionSteps_of_accepted hr], ?_⟩, fun hcheck hfail => ?_⟩
  · rw [runSteps_regionSteps hc hg hi hp]
    exact execRegion_next hc hr hnext
  · obtain ⟨code, hcode⟩ := exists_failedCheck hfail
    refine ⟨by rw [regionSteps_of_failedCheck hcheck hcode], ?_⟩
    rw [runSteps_regionSteps hc hg hi hp]
    exact ⟨_, execRegion_of_failedCheck hc hcheck hcode, State.raiseAbort_phase ..⟩

end Sys2Proof.Machine
end

section
/-! PROOFS. A run over a region list sets the blocks of its regions one region after the other, in either step size, and
running it again sets them again: O50, O51 (44_orchestrator.md R97, R99, R100). -/

namespace Sys2Proof.Machine

variable {s t u : State} {ds : List Descriptor} {d : Descriptor} {r : Region}

/-! ### What a run over regions leaves -/

/-- The accesses of a descriptor's transactions are those of its region (43_lut_programmer.md R88). -/
theorem accesses_regionEvents (s : State) (r : Region) : accesses (regionEvents s r) = regionAccesses s.cfg r := by
  dsimp only [regionEvents, regionAccesses]
  by_cases h : lutIndex (startBlockOf s.cfg r) = lutIndex (endBlockOf s.cfg r)
  · rw [programEvents_caseA h, if_pos h]
    rfl
  · rw [programEvents_caseB h, if_neg h]
    simp [accesses, mergeEvents, fillEvents, Function.comp_def]

/-- From `s` to `t` the LUT bits of the listed regions' blocks are set, with the accesses of those regions in list order;
every other LUT bit, every byte outside the LUT arrays and the platform are kept. -/
structure AddsList (ds : List Descriptor) (s t : State) : Prop where
  platform : keepsPlatform s t
  canonical : t.mem.wf
  bits : ∀ (ty : MemType) (w : Word) (b : Nat), w.toNat < (s.cfg.of ty).nLutWords → b < 32 →
    t.lutBit ty w b = (listCovers s.cfg ds ty w b || s.lutBit ty w b)
  outside : ∀ x, (∀ ty, ¬ (s.cfg.of ty).inLut x) → t.mem.readByte x = s.mem.readByte x
  trace : accesses t.trace = accesses s.trace ++ listAccesses s.cfg ds

namespace AddsList

theorem nil (hm : s.mem.wf) : AddsList [] s s where
  platform := keepsPlatform_refl s
  canonical := hm
  bits _ _ _ _ _ := by rw [listCovers_nil, Bool.false_or]
  outside _ _ := rfl
  trace := by rw [listAccesses_nil, List.append_nil]

/-- The blocks of one region, then those of the rest of the list. -/
theorem cons (hd : decodeRegion d = .ok r)
    (hset : SetsBlocks r.type (startBlockOf s.cfg r).toNat ((endBlockOf s.cfg r).toNat + 1) (regionEvents s r) s t)
    (h : AddsList ds t u) : AddsList (d :: ds) s u := by
  have hcfg : t.cfg = s.cfg := hset.platform.1
  refine ⟨keepsPlatform_trans hset.platform h.platform, h.canonical, fun ty w b hw hb => ?_, fun x hx => ?_, ?_⟩
  · rw [h.bits ty w b (hcfg ▸ hw) hb, hset.lutBit hw hb, hcfg, listCovers_cons hd, Bool.or_left_comm, Bool.or_assoc]
  · exact (h.outside x (hcfg ▸ hx)).trans (hset.outside x (hx r.type))
  · rw [h.trace, hset.trace, accesses_append, accesses_regionEvents, hcfg, listAccesses_cons hd, List.append_assoc]

theorem then_sameBus (h : AddsList ds s t) (h' : SameBus t u) : AddsList ds s u where
  platform := keepsPlatform_trans h.platform h'.platform
  canonical := h'.mem ▸ h.canonical
  bits ty w b hw hb := by rw [State.lutBit, h'.lutWord]; exact h.bits ty w b hw hb
  outside x hx := by rw [h'.mem, h.outside x hx]
  trace := by rw [h'.trace, h.trace]

theorem after_sameBus (h' : SameBus s t) (h : AddsList ds t u) : AddsList ds s u := by
  have hcfg : t.cfg = s.cfg := h'.platform.1
  refine ⟨keepsPlatform_trans h'.platform h.platform, h.canonical, fun ty w b hw hb => ?_, fun x hx => ?_, ?_⟩
  · rw [h.bits ty w b (hcfg ▸ hw) hb, hcfg, State.lutBit, h'.lutWord, ← State.lutBit]
  · rw [h.outside x (hcfg ▸ hx), h'.mem]
  · rw [h.trace, h'.trace, hcfg]

/-- The blocks a list has set are set already when it is run again. -/
theorem mem_eq_again (hc : s.cfg.wf) (h : AddsList ds s t) (h' : AddsList ds t u) : u.mem = t.mem := by
  have hcfg : t.cfg = s.cfg := h.platform.1
  refine mem_eq_of_lutBit_eq (hcfg ▸ hc) h'.platform.1 h.canonical h'.canonical (fun ty w b hw hb => ?_) h'.outside
  rw [h'.bits ty w b hw hb, h.bits ty w b (hcfg ▸ hw) hb, hcfg, ← Bool.or_assoc, Bool.or_self]

end AddsList

/-! ### The steps of a run -/

@[simp] theorem andThen_next_right (o : Result) : andThen o .next = o := by
  cases o <;> rfl

/-- At the start of a region, in either step size and without an input, some number of steps is the descriptor executed
whole (92_eei_decisions.md D16). -/
theorem exists_runSteps_eq_execRegion (hc : s.cfg.wf) (hi : s.inputs = []) (hp : s.phase = .resolve)
    (hd : s.regions[s.ri]? = some d) (hr : decodeRegion d = .ok s.curRegion) :
    ∃ n, runSteps n s = execRegion s.curRegion s := by
  cases hg : s.grain
  case phase => exact ⟨_, runSteps_regionSteps hc hg hi hp⟩
  case region =>
    have hfetch : decode (fetchBytes s) = .ok s.curRegion.toInstr := by
      rw [fetchBytes_eq_toBytes hg hp hd, decode_toBytes, hr]
      rfl
    have hstep := step_of_fetch hc (State.input_of_nil hi) (by rw [State.busy, hp]; rfl) hfetch
    rw [State.tick_of_nil hi, exec_toInstr] at hstep
    exact ⟨1, (andThen_next_right (step s)).trans hstep⟩

/-- From where region `k` is taken up, some number of steps runs the regions `ds` that stand next in the list, and takes
up the one after them. -/
theorem exists_runSteps_enterRegion {k : Nat} {rest : List Descriptor} (hc : s.cfg.wf) (hm : s.mem.wf)
    (hpol : s.cfg.mergePolicy = .uniformOr) (hi : s.inputs = []) (hlist : s.regions.drop k = ds ++ rest)
    (hacc : ∀ d ∈ ds, ∃ r, decodeRegion d = .ok r ∧ r.accepted s.cfg) :
    ∃ n u, andThen (enterRegion k s) (runSteps n) = enterRegion (k + ds.length) u ∧ AddsList ds s u := by
  induction ds generalizing k s with
  | nil => exact ⟨0, s, andThen_next_right _, .nil hm⟩
  | cons d ds ih =>
    obtain ⟨r, hr, hrok⟩ := hacc d List.mem_cons_self
    have hd : s.regions[k]? = some d := by
      have hhead := congrArg (·[0]?) hlist
      simpa using hhead
    have hlist' : s.regions.drop (k + 1) = ds ++ rest := by
      rw [← List.drop_drop, hlist]
      rfl
    have henter := enterRegion_of_decodeRegion hd hr
    obtain ⟨m, hrun⟩ := exists_runSteps_eq_execRegion (s := (s.setRi k).loadRegion r) hc hi rfl hd hr
    obtain ⟨t, ht, hri, -, hset⟩ := execRegion_setsBlocks (s := (s.setRi k).loadRegion r) hc hm hpol hrok
    obtain ⟨hcfg, hregions, hinputs, -⟩ := hset.platform
    obtain ⟨n, u, hu, hadds⟩ := ih (s := t) (k := k + 1) (hcfg ▸ hc) hset.canonical (hcfg ▸ hpol) (hinputs.trans hi)
      (hregions ▸ hlist') fun d hd => hcfg ▸ hacc d (List.mem_cons_of_mem _ hd)
    refine ⟨m + n, u, ?_, (hadds.cons hr hset).after_sameBus (sameBus_enterRegion henter)⟩
    have hregion : runSteps m ((s.setRi k).loadRegion r) = enterRegion (k + 1) t :=
      hrun.trans (ht.trans (by rw [nextRegion, hri]; rfl))
    calc andThen (enterRegion k s) (runSteps (m + n))
      _ = andThen (enterRegion (k + 1) t) (runSteps n) := by rw [henter, andThen_next, runSteps_add, hregion]
      _ = enterRegion (k + (d :: ds).length) u := by rw [hu, List.length_cons, Nat.add_right_comm, Nat.add_assoc]

/-! ### A run from the trigger -/

/-- A run over a list of regions the block programs reaches DONE with their blocks set. The state it is compared with is
the one the trigger has been taken from. -/
theorem State.RunReady.exists_done {prior : List BusEvent} {lut : Memory} (h : s.RunReady prior lut)
    (ha : ListAligned s.cfg s.regions) :
    ∃ n t, runSteps n s = .next t ∧ t.phase = .done ∧ t.ri = s.regions.length ∧ AddsList s.regions s.tick t := by
  obtain ⟨hc, hlist, ⟨hp, -⟩, ⟨rfl, hm⟩, hpol, hinputs⟩ := h
  have hstep : step s = enterRegion 0 s.tick :=
    (step_of_start hc (by rw [State.input, hinputs])).trans
      (execRun_of_accepting (s := s.tick) s.done hp hlist.regionsDecode)
  obtain ⟨n, u, hu, hadds⟩ := exists_runSteps_enterRegion (s := s.tick) (k := 0) (rest := []) hc hm hpol
    (by rw [State.tick_inputs, hinputs]; rfl) (List.append_nil _).symm (listAccepted_iff.1 ⟨hlist, ha⟩)
  obtain ⟨-, hregions, -⟩ := hadds.platform
  have hdone := enterRegion_of_length_le (s := u) (n := 0 + s.regions.length)
    (by rw [hregions, State.tick_regions, Nat.zero_add])
  exact ⟨n + 1, _, by rw [runSteps, hstep, ← hdone]; exact hu, rfl, Nat.zero_add _,
    hadds.then_sameBus (sameBus_enterRegion hdone)⟩

/-- Settles O50: the trigger takes up region 0, and each region leads to the next, in either step size. -/
theorem runReachesDone : Obligations.RunReachesDone := by
  intro s prior lut h ha
  obtain ⟨n, t, ht, hphase, hri, hadds⟩ := h.exists_done ha
  obtain ⟨hcfg, hregions, -⟩ := hadds.platform
  obtain ⟨-, rfl⟩ := h.entryClean
  exact ⟨n, t, ht, hphase, t.done_iff.2 hphase, hri, hadds.bits, hcfg, hregions, hadds.trace⟩

/-- Giving the trigger to a block without inputs and taking it off again changes nothing. -/
theorem State.tick_start (h : s.inputs = []) : ({ s with inputs := [.start] } : State).tick = s := by
  cases s
  cases h
  rfl

/-- Settles O51: DONE is ready for a run again, and the bits that run sets are set already. -/
theorem rerunLeavesLutUnchanged : Obligations.RerunLeavesLutUnchanged := by
  intro s prior lut h ha
  obtain ⟨n, t, ht, hphase, -, hadds⟩ := h.exists_done ha
  obtain ⟨hcfg, hregions, hinputs, -⟩ := hadds.platform
  rw [State.tick_cfg] at hcfg
  rw [State.tick_regions] at hregions
  rw [State.tick_inputs, h.trigger, List.tail_cons] at hinputs
  have hready : State.RunReady { t with inputs := [.start] } t.trace t.mem :=
    ⟨hcfg ▸ h.paramsOk, hcfg ▸ hregions ▸ h.listWellFormed, ⟨.inr hphase, rfl⟩, ⟨rfl, hadds.canonical⟩, hcfg ▸ h.policy, rfl⟩
  obtain ⟨m, u, hu, huphase, -, hagain⟩ := hready.exists_done (hcfg ▸ hregions ▸ ha)
  have hrerun : AddsList s.regions t u := by
    rw [State.tick_start hinputs] at hagain
    exact hregions ▸ hagain
  exact ⟨n, m, t, u, ht, hphase, hu, huphase, AddsList.mem_eq_again (s := s.tick) h.paramsOk hadds hrerun,
    hcfg ▸ hrerun.trace⟩

end Sys2Proof.Machine
end

section
/-! PROOFS. The optional precondition check: the code of each failed check, O10; with it a run over a list ends in ABORT at
the first misaligned region, O52 (60_exceptions.md R108 to R110). -/

namespace Sys2Proof.Machine

variable {s : State} {d : Descriptor} {r : Region}

/-! ### The code of the first failed check -/

section

variable {p : TypeParams} {start stop size : Word}

/-- ORDER is checked first. -/
theorem failedCheck_of_order (h : stop.toNat < start.toNat) : failedCheck p start stop size = some 1#2 :=
  if_pos h

/-- WINDOW is checked for a region in order. -/
theorem failedCheck_of_window (horder : ¬ stop.toNat < start.toNat)
    (h : start.toNat < p.base.toNat ∨ p.base.toNat + p.size < stop.toNat + 1) :
    failedCheck p start stop size = some 2#2 :=
  (if_neg horder).trans (if_pos h)

/-- ALIGN is checked for a region in order and in its window. -/
theorem failedCheck_of_align (horder : ¬ stop.toNat < start.toNat)
    (hwindow : ¬ (start.toNat < p.base.toNat ∨ p.base.toNat + p.size < stop.toNat + 1))
    (h : (start - p.base) % size ≠ 0#32 ∨ (stop + 1#32 - p.base) % size ≠ 0#32) :
    failedCheck p start stop size = some 3#2 :=
  (if_neg horder).trans ((if_neg hwindow).trans (if_pos h))

/-- In order and in the window is what `inWindow` says. -/
theorem inWindow_iff_order_window :
    inWindow p start stop = true ↔
      ¬ stop.toNat < start.toNat ∧ ¬ (start.toNat < p.base.toNat ∨ p.base.toNat + p.size < stop.toNat + 1) := by
  rw [inWindow_iff]
  omega

end

/-- A well-formed region that is misaligned fails ALIGN. -/
theorem failedCheck_of_not_aligned {c : Config} (hwindow : inWindow (c.of r.type) r.start r.stop = true)
    (h : ¬ r.aligned c) :
    failedCheck (c.of r.type) r.start r.stop (blocksizeOf (c.of r.type)) = some 3#2 := by
  obtain ⟨horder, hwindow⟩ := inWindow_iff_order_window.1 hwindow
  exact failedCheck_of_align horder hwindow (not_and_or.1 h)

/-- Settles O10: TRANSLATE aborts with the code of the first check that fails, and computes the block range if none does. -/
theorem abortReportsFirstFailedCheck : Obligations.AbortReportsFirstFailedCheck := by
  intro s hcheck order window align aborted
  have haborts {code : BitVec 2}
      (h : failedCheck s.params s.work.curStart s.work.curEnd s.work.blocksize = some code) :
      exec .translate s = .next (aborted code) :=
    execTranslate_eq_next.2 (.inl ⟨hcheck, code, h, rfl⟩)
  refine ⟨fun ho => haborts (failedCheck_of_order ho), fun ho hw => haborts (failedCheck_of_window ho hw),
    fun ho hw ha => haborts (failedCheck_of_align ho hw ha), fun ho hw ha => ?_, fun _ => ⟨rfl, rfl, rfl⟩⟩
  have hwindow : inWindow s.params s.work.curStart s.work.curEnd = true := inWindow_iff_order_window.2 ⟨ho, hw⟩
  obtain ⟨hstart, hstop⟩ := not_or.1 ha
  exact ⟨s.setBlocks, execTranslate_eq_next.2
    (.inr ⟨fun _ => failedCheck_eq_none.2 ⟨hwindow, not_not.1 hstart, not_not.1 hstop⟩, hwindow, rfl⟩), rfl⟩

/-! ### A run that aborts -/

/-- A run over a list reaches the place where a region of it is taken up, when the block programs the regions before. The
state it is compared with is the one the trigger has been taken from. -/
theorem State.RunReady.exists_enterRegion {prior : List BusEvent} {lut : Memory} {before rest : List Descriptor}
    (h : s.RunReady prior lut) (hlist : s.regions = before ++ rest) (ha : ListAligned s.cfg before) :
    ∃ n u, runSteps n s = enterRegion before.length u ∧ AddsList before s.tick u := by
  obtain ⟨hc, hwf, ⟨hp, -⟩, ⟨rfl, hm⟩, hpol, hinputs⟩ := h
  have hstep : step s = enterRegion 0 s.tick :=
    (step_of_start hc (by rw [State.input, hinputs])).trans
      (execRun_of_accepting (s := s.tick) s.done hp hwf.regionsDecode)
  obtain ⟨hbefore, -⟩ := listWellFormed_append.1 (hlist ▸ hwf)
  obtain ⟨n, u, hu, hadds⟩ := exists_runSteps_enterRegion (s := s.tick) (k := 0) hc hm hpol
    (by rw [State.tick_inputs, hinputs]; rfl) hlist (listAccepted_iff.1 ⟨hbefore, ha⟩)
  exact ⟨n + 1, u, by rw [runSteps, hstep, hu, Nat.zero_add], hadds⟩

/-- From where a region that fails a check is taken up, some number of steps aborts, in either step size. -/
theorem exists_runSteps_abort {k : Nat} {code : BitVec 2} (hc : s.cfg.wf) (hi : s.inputs = [])
    (hd : s.regions[k]? = some d) (hr : decodeRegion d = .ok r) (hcheck : s.cfg.checkPreconditions = true)
    (hfail : failedCheck (s.cfg.of r.type) r.start r.stop (blocksizeOf (s.cfg.of r.type)) = some code) :
    ∃ n, andThen (enterRegion k s) (runSteps n) =
      .next (((s.setRi k).loadRegion r).afterResolve.raiseAbort code) := by
  obtain ⟨n, hn⟩ := exists_runSteps_eq_execRegion (s := (s.setRi k).loadRegion r) hc hi rfl hd hr
  refine ⟨n, ?_⟩
  rw [enterRegion_of_decodeRegion hd hr, andThen_next, hn]
  exact execRegion_of_failedCheck (s := (s.setRi k).loadRegion r) hc hcheck hfail

/-- Settles O52: the regions before set their blocks, and TRANSLATE of the misaligned one aborts after its CFG read. -/
theorem runAbortsAtMisalignedRegion : Obligations.RunAbortsAtMisalignedRegion := by
  intro s prior lut before after d r h hcheck hlist ha hr hmis
  obtain ⟨n, u, hu, hadds⟩ := h.exists_enterRegion hlist ha
  obtain ⟨hcfg, hregions, hinputs, -⟩ := hadds.platform
  rw [State.tick_cfg] at hcfg
  rw [State.tick_regions, hlist] at hregions
  rw [State.tick_inputs, h.trigger, List.tail_cons] at hinputs
  obtain ⟨r', hr', ⟨hwindow, -⟩⟩ := h.listWellFormed d (by simp [hlist])
  obtain rfl : r = r' := Except.ok.inj (hr.symm.trans hr')
  obtain ⟨m, hm⟩ := exists_runSteps_abort (s := u) (k := before.length) (hcfg ▸ h.paramsOk) hinputs
    (by simp [hregions]) hr (hcfg ▸ hcheck) (hcfg ▸ failedCheck_of_not_aligned hwindow hmis)
  obtain ⟨-, rfl⟩ := h.entryClean
  have hrun := runSteps_add n m s
  rw [hu, hm] at hrun
  refine ⟨n + m, _, hrun, rfl, rfl, rfl, rfl, rfl, rfl, hadds.bits, ?_⟩
  have htrace : accesses u.trace = accesses s.trace ++ listAccesses s.cfg before := hadds.trace
  rw [← htrace, ← hcfg]
  exact accesses_append u.trace _

end Sys2Proof.Machine
end

section
/-! PROOFS. ABORT and the abort registers: O11, that reset alone leaves it, and O12, that an abort and reset alone write them
(60_exceptions.md R110, R111). -/

namespace Sys2Proof.Machine

variable {s t u : State}

/-! ### ABORT is terminal -/

/-- In ABORT a step without a reset takes its input and does nothing (60_exceptions.md R111). -/
theorem step_of_abort (hc : s.cfg.wf) (hp : s.phase = .abort) (hi : s.input ≠ .reset) : step s = .next s.tick := by
  cases hin : s.input with
  | quiet => exact step_of_not_busy hc hin (s.not_busy_iff.2 (.inr (.inr hp)))
  | start => exact (step_of_start hc hin).trans (execRun_of_abort (s := s.tick) s.done hp)
  | reset => exact absurd hin hi

/-- The input of a step is no reset where the first input of the list is none: past its end the ports are quiet. -/
theorem State.input_ne_reset {n : Nat} (h : ∀ x ∈ s.inputs.take (n + 1), x ≠ .reset) : s.input ≠ .reset := by
  rw [State.input]
  cases hin : s.inputs with
  | nil => exact nofun
  | cons x xs => exact h x (by rw [hin]; exact List.mem_cons_self)

/-- Settles O11: by induction on the number of steps, each of which takes one input off the list. -/
theorem abortIsTerminal : Obligations.AbortIsTerminal := by
  constructor
  · intro n
    induction n with
    | zero => exact fun s _ _ _ => rfl
    | succ n ih =>
      intro s hc hp hinputs
      have hrest : ∀ x ∈ s.tick.inputs.take n, x ≠ .reset := fun x hx =>
        hinputs x (List.mem_of_mem_tail (by rw [List.tail_take_eq_take_tail]; exact hx))
      rw [runSteps, step_of_abort hc hp (State.input_ne_reset hinputs), andThen_next, ih s.tick hc hp hrest,
        State.tick_inputs, List.drop_tail]
      rfl
  · intro s rest hc _ hinputs
    exact ⟨s.tick.applyReset, step_eq_next.2 ⟨hc, .inl ⟨by rw [State.input, hinputs], rfl⟩⟩, rfl, rfl, rfl⟩

/-! ### Only an abort writes the abort registers -/

theorem keepsAbort_trans (h : keepsAbort s t) (h' : keepsAbort t u) : keepsAbort s u :=
  ⟨h'.1.trans h.1, h'.2.trans h.2⟩

/-- The OR-merge that ends a region, and the advance to the next one. -/
theorem keepsAbort_nextRegion_merged {w m : Word} (h : nextRegion (s.merged w m) = .next t) : keepsAbort s t :=
  (sameBus_enterRegion h).abort

theorem execSplit_keepsAbort (h : execSplit s = .next t) : keepsAbort s t := by
  obtain ⟨-, -, rfl⟩ := execSplit_eq_next.1 h
  exact ⟨rfl, rfl⟩

theorem execSingle_keepsAbort (hc : s.cfg.wf) (h : execSingle s = .next t) : keepsAbort s t := by
  obtain ⟨-, -, hn⟩ := (execSingle_eq_next hc).1 h
  exact keepsAbort_nextRegion_merged hn

theorem execFirst_keepsAbort (hc : s.cfg.wf) (h : execFirst s = .next t) : keepsAbort s t := by
  obtain ⟨-, rfl⟩ := (execFirst_eq_next hc).1 h
  have hwritten : keepsAbort s s.firstWritten := by
    unfold State.firstWritten
    split <;> exact ⟨rfl, rfl⟩
  exact keepsAbort_trans hwritten (sameBus_afterFirst _).abort

theorem execMid_keepsAbort (h : execMid s = .next t) : keepsAbort s t := by
  obtain ⟨-, rfl⟩ := execMid_eq_next.1 h
  exact (sameBus_afterMid _).abort

theorem execLast_keepsAbort (hc : s.cfg.wf) (h : execLast s = .next t) : keepsAbort s t := by
  obtain ⟨-, hn⟩ := (execLast_eq_next hc).1 h
  exact keepsAbort_nextRegion_merged hn

theorem midSteps_keepsAbort {n : Nat} (h : midSteps n s = .next t) : keepsAbort s t := by
  induction n generalizing s with
  | zero => exact Host.Outcome.next.inj h ▸ ⟨rfl, rfl⟩
  | succ n ih =>
    obtain ⟨u, hu, hn⟩ := andThen_eq_next.1 h
    exact keepsAbort_trans (execMid_keepsAbort hu) (ih hn)

theorem caseB_keepsAbort (hc : s.cfg.wf) (h : caseB s = .next t) : keepsAbort s t := by
  obtain ⟨u, hfirst, h⟩ := andThen_eq_next.1 h
  obtain ⟨v, hmids, hlast⟩ := andThen_eq_next.1 h
  have hin : WithinRegion s v := (WithinRegion.of_execFirst hc hfirst).trans (WithinRegion.of_midSteps hmids)
  exact keepsAbort_trans (execFirst_keepsAbort hc hfirst)
    (keepsAbort_trans (midSteps_keepsAbort hmids) (execLast_keepsAbort (hin.cfg ▸ hc) hlast))

theorem program_keepsAbort (hc : s.cfg.wf) (h : program s = .next t) : keepsAbort s t := by
  obtain ⟨u, hsplit, h⟩ := andThen_eq_next.1 h
  have hcfg : u.cfg = s.cfg := (WithinRegion.of_execSplit hsplit).cfg
  refine keepsAbort_trans (execSplit_keepsAbort hsplit) ?_
  split at h
  · exact execSingle_keepsAbort (hcfg ▸ hc) h
  · exact caseB_keepsAbort (hcfg ▸ hc) h

/-- `t` is the ABORT state of the region `s` works on, with the option present (60_exceptions.md R110). -/
def abortsAt (s t : State) : Prop :=
  t.phase = .abort ∧ t.abortRi = s.ri ∧ s.cfg.checkPreconditions = true

/-- TRANSLATE is the one operation that writes the abort registers, and it does so where it aborts. -/
theorem execTranslate_abort (h : execTranslate s = .next t) : keepsAbort s t ∨ abortsAt s t := by
  rcases execTranslate_eq_next.1 h with ⟨hcheck, code, -, rfl⟩ | ⟨-, -, rfl⟩
  · exact .inr ⟨rfl, rfl, hcheck⟩
  · exact .inl ⟨rfl, rfl⟩

/-- So it is the one phase whose operation reaches them. -/
theorem phaseOp_abort (hc : s.cfg.wf) (h : phaseOp s = .next t) :
    keepsAbort s t ∨ (abortsAt s t ∧ s.phase = .translate) := by
  cases hp : s.phase with
  | idle | done | abort =>
    rw [phaseOp, hp] at h
    exact .inl (Host.Outcome.next.inj h ▸ ⟨rfl, rfl⟩)
  | resolve =>
    rw [phaseOp_resolve hp, execResolve_next hc] at h
    exact .inl (Host.Outcome.next.inj h ▸ ⟨rfl, rfl⟩)
  | translate => exact (execTranslate_abort (phaseOp_translate hp ▸ h)).imp_right (⟨·, rfl⟩)
  | split => exact .inl (execSplit_keepsAbort (phaseOp_split hp ▸ h))
  | single => exact .inl (execSingle_keepsAbort hc (phaseOp_single hp ▸ h))
  | first => exact .inl (execFirst_keepsAbort hc (phaseOp_first hp ▸ h))
  | mid => exact .inl (execMid_keepsAbort (phaseOp_mid hp ▸ h))
  | last => exact .inl (execLast_keepsAbort hc (phaseOp_last hp ▸ h))

/-- A descriptor executed whole ends where TRANSLATE aborts, and else keeps the abort registers. -/
theorem execRegion_abort {r : Region} (hc : s.cfg.wf) (h : execRegion r s = .next t) : keepsAbort s t ∨ abortsAt s t := by
  rw [execRegion_eq_andThen hc] at h
  obtain ⟨u, htranslate, h⟩ := andThen_eq_next.1 h
  rcases execTranslate_eq_next.1 htranslate with ⟨hcheck, code, -, rfl⟩ | ⟨-, -, rfl⟩
  · rw [if_pos (State.raiseAbort_phase ..)] at h
    exact .inr (Host.Outcome.next.inj h ▸ ⟨rfl, rfl, hcheck⟩)
  · rw [if_neg (by rw [State.setBlocks_phase]; decide)] at h
    exact .inl (program_keepsAbort (s := (s.loadRegion r).afterResolve.setBlocks) hc h)

theorem execRun_keepsAbort {b : Bool} (h : execRun b s = .next t) : keepsAbort s t := by
  rcases execRun_eq_next.1 h with ⟨-, -, hn⟩ | ⟨-, rfl⟩
  · exact (sameBus_enterRegion hn).abort
  · exact ⟨rfl, rfl⟩

/-- Settles O12: of what a step can do, only reset, TRANSLATE and the descriptor executed whole reach the abort
registers. -/
theorem abortRegistersWrittenOnlyByAbort : Obligations.AbortRegistersWrittenOnlyByAbort := by
  intro s t h hwritten
  obtain ⟨hc, ⟨hi, -⟩ | ⟨-, h⟩ | ⟨-, -, rfl⟩ | ⟨-, hb, i, hf, h⟩⟩ := step_eq_next.1 h
  · exact .inl hi
  · exact absurd (execRun_keepsAbort (s := s.tick) h) hwritten
  · exact absurd ⟨rfl, rfl⟩ hwritten
  · right
    rcases exec_of_fetch hb hf with hop | ⟨hg, hp, d, r, -, -, hop⟩
    · obtain ⟨⟨hphase, hri, hcheck⟩, hp⟩ :=
        (phaseOp_abort (s := s.tick) hc ((hop s.tick rfl).symm.trans h)).resolve_left hwritten
      exact ⟨hphase, hri, hcheck, .inl hp⟩
    · obtain ⟨hphase, hri, hcheck⟩ :=
        (execRegion_abort (s := s.tick) hc ((hop s.tick).symm.trans h)).resolve_left hwritten
      exact ⟨hphase, hri, hcheck, .inr ⟨hp, hg⟩⟩

end Sys2Proof.Machine
end

section
/-! PROOFS. O44: where a step can stop in a state that meets the invariant (60_exceptions.md R102, R103). -/

namespace Sys2Proof.Machine

variable {s : State} {r : Refusal}

/-! ### RUN and the advance to the next region -/

/-- A list that holds a descriptor with reserved bits is refused whole (30_encoding.md R52). -/
theorem execRun_of_undecoded (b : Bool) (hp : s.phase = .idle ∨ s.phase = .done)
    (hlist : regionsDecode s.regions = false) : execRun b s = .refused .reservedBits := by
  unfold execRun
  rcases hp with hp | hp <;> simp only [hp, hlist, Bool.false_eq_true, if_false]

/-- A list that decodes can be taken up anywhere, so no advance stops. -/
theorem exists_nextRegion_merged (hon : onRegion s) (w m : Word) : ∃ t, nextRegion (s.merged w m) = .next t :=
  enterRegion_of_canTakeUp (s := s.merged w m) (canTakeUp_of_regionsDecode hon.1 _)

/-- RUN is refused for reserved bits in IDLE and DONE, and while busy; a list that decodes can be taken up. -/
theorem execRun_refused {b : Bool} (h : execRun b s = .refused r) :
    (r = .reservedBits ∧ regionsDecode s.regions = false ∧ (s.phase = .idle ∨ s.phase = .done)) ∨
    (r = .reentry ∧ s.busy = true) := by
  by_cases hp : s.phase = .idle ∨ s.phase = .done
  · left
    cases hlist : regionsDecode s.regions
    case true =>
      rw [execRun_of_accepting b hp hlist] at h
      obtain ⟨t, ht⟩ := enterRegion_of_canTakeUp (canTakeUp_of_regionsDecode hlist 0)
      exact nomatch h.symm.trans ht
    case false =>
      rw [execRun_of_undecoded b hp hlist] at h
      exact ⟨(Host.Outcome.refused.inj h).symm, rfl, hp⟩
  · right
    cases hb : s.busy
    case false =>
      have habort : s.phase = .abort := by
        rcases s.not_busy_iff.1 hb with h | h | h
        · exact absurd (.inl h) hp
        · exact absurd (.inr h) hp
        · exact h
      exact nomatch h.symm.trans (execRun_of_abort b habort)
    case true =>
      rw [execRun_of_busy b hb] at h
      exact ⟨(Host.Outcome.refused.inj h).symm, rfl⟩

/-! ### What a busy block executes -/

/-- Under the invariant a busy block stands on a region of a list that decodes. -/
theorem onRegion_of_busy (hpos : positionOk s) (hb : s.busy = true) : onRegion s := by
  cases hp : s.phase with
  | idle | done | abort => simp [State.busy, hp, Phase.isBusy] at hb
  | resolve => exact (positionOk_resolve hp).1 hpos
  | translate | split | single | first | mid | last =>
    rw [positionOk, hp] at hpos
    exact hpos.1

/-- The descriptor at `ri` spells the Region the working registers hold. -/
theorem onRegion.decodeRegion_eq {d : Descriptor} (hon : onRegion s) (hd : s.regions[s.ri]? = some d) :
    decodeRegion d = .ok s.curRegion := by
  obtain ⟨-, d', hd', hr⟩ := hon
  obtain rfl : d = d' := Option.some.inj (hd.symm.trans hd')
  exact hr

/-- What a busy block fetches is an instruction. -/
theorem exists_decode_fetchBytes (hpos : positionOk s) (hb : s.busy = true) : ∃ i, decode (fetchBytes s) = .ok i := by
  rcases fetchBytes_cases s with hf | ⟨-, hp, d, hd, hf⟩
  · rw [hf]
    exact exists_decode_code hb
  · have hr := (onRegion_of_busy hpos hb).decodeRegion_eq hd
    exact ⟨s.curRegion.toInstr, by rw [hf, decode_toBytes, hr]; rfl⟩

/-- Of the phases only TRANSLATE and SPLIT stop. -/
theorem phaseOp_refused (hc : s.cfg.wf) (hpos : positionOk s) (h : phaseOp s = .refused r) :
    (r = .illFormedRegion ∧ s.cfg.checkPreconditions = false ∧
      inWindow s.params s.work.curStart s.work.curEnd = false ∧ s.phase = .translate) ∨
    (r = .lutIndexOutOfRange ∧ s.phase = .split ∧ s.params.nLutWords ≤ s.work.endBlock.toNat / 32) := by
  cases hp : s.phase with
  | idle | done | abort =>
    rw [phaseOp, hp] at h
    exact nomatch h
  | resolve =>
    rw [phaseOp_resolve hp, execResolve_next hc] at h
    exact nomatch h
  | translate =>
    obtain ⟨hcheck, hwindow, rfl⟩ := execTranslate_eq_refused.1 (phaseOp_translate hp ▸ h)
    exact .inl ⟨rfl, hcheck, hwindow, rfl⟩
  | split =>
    obtain ⟨-, hle⟩ := (positionOk_split hp).1 hpos
    rcases execSplit_eq_refused.1 (phaseOp_split hp ▸ h) with ⟨-, hlt⟩ | ⟨rfl, -, hfits⟩
    · exact absurd (BitVec.le_def.1 hle) (Nat.not_le.2 hlt)
    · exact .inr ⟨rfl, rfl, hfits⟩
  | single =>
    obtain ⟨hon, heq, hle, hend⟩ := (positionOk_single hp).1 hpos
    obtain ⟨t, ht⟩ := exists_nextRegion_merged hon s.work.startLut (setBitRange s.work.startOffset s.work.endOffset)
    exact nomatch h.symm.trans ((phaseOp_single hp).trans ((execSingle_eq_next hc).2 ⟨hle, heq ▸ hend, ht⟩))
  | first =>
    obtain ⟨-, hlt, hend⟩ := (positionOk_first hp).1 hpos
    exact nomatch h.symm.trans
      ((phaseOp_first hp).trans ((execFirst_eq_next hc).2 ⟨(BitVec.lt_def.1 hlt).trans hend, rfl⟩))
  | mid =>
    obtain ⟨-, -, hlt, hend⟩ := (positionOk_mid hp).1 hpos
    exact nomatch h.symm.trans
      ((phaseOp_mid hp).trans (execMid_eq_next.2 ⟨(BitVec.lt_def.1 hlt).trans hend, rfl⟩))
  | last =>
    obtain ⟨hon, -, hend⟩ := (positionOk_last hp).1 hpos
    obtain ⟨t, ht⟩ := exists_nextRegion_merged hon s.work.endLut (setBitRange 0 s.work.endOffset)
    exact nomatch h.symm.trans ((phaseOp_last hp).trans ((execLast_eq_next hc).2 ⟨hend, ht⟩))

/-- A descriptor executed whole, whose next region can be taken up, stops where TRANSLATE or SPLIT does. -/
theorem execRegion_refused {q : Region} (hc : s.cfg.wf) (hnext : canTakeUp s (s.ri + 1))
    (h : execRegion q s = .refused r) :
    (r = .illFormedRegion ∧ s.cfg.checkPreconditions = false ∧ inWindow (s.cfg.of q.type) q.start q.stop = false) ∨
    (r = .lutIndexOutOfRange ∧ ¬ q.fits s.cfg) := by
  rw [execRegion_eq_andThen hc] at h
  rcases andThen_eq_refused.1 h with h | ⟨t, ht, h⟩
  · obtain ⟨hcheck, hwindow, rfl⟩ := execTranslate_eq_refused.1 h
    exact .inl ⟨rfl, hcheck, hwindow⟩
  · rcases execTranslate_eq_next.1 ht with ⟨-, code, -, rfl⟩ | ⟨-, hwindow, rfl⟩
    · rw [if_pos (State.raiseAbort_phase ..)] at h
      exact nomatch h
    · rw [if_neg (by rw [State.setBlocks_phase]; decide), setBlocks_afterResolve_loadRegion] at h
      have hle := blockOf_le_of_inWindow hwindow (shiftOf (s.cfg.of q.type))
      by_cases hfits : q.fits s.cfg
      · obtain ⟨u, hu⟩ := program_next (s := s.translated q) hc hle (by rw [← lutIndex_toNat]; exact hfits) hnext
        exact nomatch h.symm.trans hu
      · have hsplit : program (s.translated q) = .refused .lutIndexOutOfRange :=
          andThen_eq_refused.2 (.inl (execSplit_eq_refused.2 (.inr
            ⟨rfl, hle, by rw [← lutIndex_toNat]; exact Nat.le_of_not_lt hfits⟩)))
        exact .inr ⟨Host.Outcome.refused.inj (h.symm.trans hsplit), hfits⟩

/-- Settles O44: a trigger is RUN; without one a busy block executes the operation of its phase or a descriptor whole. -/
theorem stopsOnlyWhereNamed : Obligations.StopsOnlyWhereNamed := by
  refine fun s hinv => ⟨fun r h => ?_, fun f => nomatch f⟩
  have hpos := hinv.position
  rcases step_eq_refused.1 h with ⟨hbad, -⟩ | ⟨hc, ⟨hi, h⟩ | ⟨-, hb, e, he, -⟩ | ⟨-, hb, i, hf, h⟩⟩
  · exact nomatch hbad.symm.trans hinv.params
  · rcases execRun_refused (s := s.tick) h with ⟨rfl, hlist, hp⟩ | ⟨rfl, hb⟩
    · exact .inr (.inr (.inl ⟨rfl, hlist, hi, hp⟩))
    · exact .inr (.inr (.inr ⟨rfl, hb, hi⟩))
  · obtain ⟨i, hf⟩ := exists_decode_fetchBytes hpos hb
    exact nomatch he.symm.trans hf
  · rcases exec_of_fetch hb hf with hop | ⟨hg, hp, d, q, hd, hq, hop⟩
    · rcases phaseOp_refused (s := s.tick) hc hpos ((hop s.tick rfl).symm.trans h) with
        ⟨rfl, hcheck, hwindow, hp⟩ | ⟨rfl, hp, hfits⟩
      · exact .inl ⟨rfl, hcheck, ne_true_of_eq_false hwindow, .inl hp⟩
      · exact .inr (.inl ⟨rfl, .inl ⟨hp, hfits⟩⟩)
    · have hon : onRegion s := (positionOk_resolve hp).1 hpos
      obtain rfl : q = s.curRegion := Except.ok.inj (hq.symm.trans (hon.decodeRegion_eq hd))
      rcases execRegion_refused (s := s.tick) hc (canTakeUp_of_regionsDecode hon.1 _) ((hop s.tick).symm.trans h) with
        ⟨rfl, hcheck, hwindow⟩ | ⟨rfl, hfits⟩
      · exact .inl ⟨rfl, hcheck, ne_true_of_eq_false hwindow, .inr ⟨hp, hg⟩⟩
      · exact .inr (.inl ⟨rfl, .inr ⟨hp, hg, hfits⟩⟩)

end Sys2Proof.Machine
end

section
/-! PROOFS. Waiting and reset, O30 and O31, and the premises of 70_reset_and_hazards.md R133 that speak of a whole run,
O53: every step meets them, and they compose. -/

namespace Sys2Proof.Machine

variable {s t : State}

/-- Settles O30: of what a step can do, waiting is what is left without an input and without work. -/
theorem waitsForTrigger : Obligations.WaitsForTrigger :=
  fun _ => step_of_not_busy

/-- Settles O31: reset overrides everything, whatever the phase (60_exceptions.md R105). -/
theorem resetReturnsToIdle : Obligations.ResetReturnsToIdle :=
  fun _ hc hi => step_eq_next.2 ⟨hc, .inl ⟨hi, rfl⟩⟩

/-! ### The premises of a run -/

/-- Of reads that return the latest write, those of a CFG register return its constant: legal parameters keep the two
CFG registers apart (00_scope.md R6). -/
theorem readsTrue.data_of_cfgAddr {es : List BusEvent} (hc : s.cfg.wf) (h : readsTrue s.cfg s.mem es) {e : BusEvent}
    (he : e ∈ es) (hrd : e.kind = .rd) {ty : MemType} (ha : e.addr = (s.cfg.of ty).cfgAddr) :
    e.data = (s.cfg.of ty).cfgValue := by
  induction es generalizing s with
  | nil => exact absurd he List.not_mem_nil
  | cons x xs ih =>
    obtain ⟨hread, hrest⟩ := h
    rcases List.mem_cons.1 he with rfl | he
    · have hreg : e.data = s.regAt e.addr := hread hrd
      rw [hreg, ha, State.regAt_cfgAddr hc]
    · exact ih (s := s.setMem (replayEvent s.mem x)) hc hrest he ha

/-- A step keeps `CFG_VALUE`, and its CFG reads return it (10_state.md R18). -/
theorem step_cfgConstant (h : step s = .next t) : CfgConstant s t := by
  obtain ⟨hc, -⟩ := step_eq_next.1 h
  obtain ⟨hcfg, -⟩ := step_keepsPlatform h
  obtain ⟨es, htrace, -, hreads⟩ := traceReplaysToMemory s t h
  exact ⟨hcfg, es, htrace, fun e he hrd ty ha => hreads.data_of_cfgAddr hc he hrd ha⟩

/-- A block that is busy has a step only where no trigger is given: a trigger is refused (44_orchestrator.md R101). -/
theorem input_ne_start_of_step (h : step s = .next t) (hb : s.busy = true) : s.input ≠ .start := by
  intro hstart
  obtain ⟨hc, -⟩ := step_eq_next.1 h
  obtain ⟨hrefused, -⟩ := triggerOutsideIdleAndDone.2 s hc hstart
  exact nomatch h.symm.trans (hrefused hb)

theorem runSteps_cfgConstant {n : Nat} (h : runSteps n s = .next t) : CfgConstant s t :=
  runSteps_induction CfgConstant.refl (fun _ _ _ => CfgConstant.trans) (fun _ _ => step_cfgConstant) n h

theorem runSteps_regions {n : Nat} (h : runSteps n s = .next t) : t.regions = s.regions :=
  runSteps_induction (P := fun a b => b.regions = a.regions) (fun _ => rfl) (fun _ _ _ hab hbc => hbc.trans hab)
    (fun a b hstep =>
      have ⟨_, hregions, _⟩ := parametersAndProgramConstant a b hstep
      hregions) n h

/-- Runs in order compose where the first keeps the parameters, so the two are carried through the run together. -/
theorem runSteps_inOrderBus {n : Nat} (h : runSteps n s = .next t) : InOrderBus s t :=
  (runSteps_induction (P := fun a b => b.cfg = a.cfg ∧ InOrderBus a b) (fun a => ⟨rfl, InOrderBus.refl a⟩)
    (fun _ _ _ ⟨hcfg, hab⟩ ⟨hcfg', hbc⟩ => ⟨hcfg'.trans hcfg, hab.trans hcfg hbc⟩)
    (fun a b hstep => ⟨(step_keepsPlatform hstep).1, traceReplaysToMemory a b hstep⟩) n h).2

/-- Settles O53: CFG, region table and bus by induction on the number of steps; the trigger by the step that a run has at
each of its states but the last. -/
theorem everyRunMeetsPlatformPremises : Obligations.EveryRunMeetsPlatformPremises := by
  intro n s t h
  have hconst := runSteps_cfgConstant h
  have horder := runSteps_inOrderBus h
  have ⟨hcfg, _⟩ := hconst
  have ⟨es, htrace, hmem, _⟩ := horder
  refine ⟨hconst, ⟨⟨es, htrace, hmem⟩, hcfg, runSteps_regions h, fun k hk u hu hb => ?_⟩, horder⟩
  obtain ⟨v, hstep⟩ := step_of_runSteps h hk hu
  exact input_ne_start_of_step hstep hb

end Sys2Proof.Machine
end
